-- ==== Sys2Proof/Word.lean ====
section
/-! DEFINITION. The word type of the CAN mailbox block: every register and mailbox word is one 32-bit value
(spec/20_memory.md R62, R63; 10_state.md R23). -/

namespace Sys2Proof

/-- A register or mailbox word, `u32` of 00_scope.md R7. -/
abbrev Word := BitVec 32

end Sys2Proof
end

