-- ==== Sys2Proof/Syntax.lean ====
section
/-! DEFINITION. The operations of the block as syntax: one constructor for each row of spec/opcode_table.json
(30_encoding.md R80, R82). A command word carries at most one of the fields IDX and CODE (R81); every other operand comes as a
typed operand record beside the word (R85), which `Machine.State.operands` holds. -/

namespace Sys2Proof

/-- The eleven operations of 30_encoding.md R80 with the fields their command words carry. -/
inductive Instr where
  /-- BTCALC: compute the bit-timing fields (40_bit_timing.md R100). -/
  | btcalc
  /-- ENCODE: buffer state to 4-bit code (41_codec.md R121). -/
  | encode
  /-- DECODE: 4-bit code, the CODE field, to buffer state (41_codec.md R122). -/
  | decode (code : BitVec 4)
  /-- MBWRITE: write a frame into mailbox IDX (42_mailbox_store.md R145). -/
  | mbwrite (idx : BitVec 8)
  /-- MBREAD: read and acknowledge mailbox IDX (42_mailbox_store.md R146). -/
  | mbread (idx : BitVec 8)
  /-- MBPEEK: read mailbox IDX without acknowledging it (42_mailbox_store.md R147). -/
  | mbpeek (idx : BitVec 8)
  /-- MBINACT: force mailbox IDX inactive (42_mailbox_store.md R148). -/
  | mbinact (idx : BitVec 8)
  /-- MBABORT: abort the pending transmission of mailbox IDX (42_mailbox_store.md R149). -/
  | mbabort (idx : BitVec 8)
  /-- TXQUICK: submit a frame to the first free transmit mailbox (43_transmit_arbiter.md R181). -/
  | txquick
  /-- TX: submit a frame, evicting the lowest-priority pending frame if needed (43_transmit_arbiter.md R182). -/
  | tx
  /-- RX: return the first received frame (44_receive_scanner.md R200). -/
  | rx
  deriving DecidableEq, Repr

end Sys2Proof
end

