-- ==== Sys2Proof/Decode.lean ====
section
/-! DEFINITION. Command words: the fields of 30_encoding.md R81, the decoder (total, rejecting by name, R83), the encoder, and
the rows of spec/opcode_table.json as data. -/

namespace Sys2Proof

/-- OP, bits 3:0 (30_encoding.md R81). -/
def opField (w : Word) : BitVec 4 := w.extractLsb' 0 4
/-- IDX, bits 11:4 (30_encoding.md R81). -/
def idxField (w : Word) : BitVec 8 := w.extractLsb' 4 8
/-- CODE, bits 15:12 (30_encoding.md R81). -/
def codeField (w : Word) : BitVec 4 := w.extractLsb' 12 4
/-- RSV, bits 31:16 (30_encoding.md R81). -/
def rsvField (w : Word) : BitVec 16 := w.extractLsb' 16 16

/-- Why a command word is illegal: one name for each line of 30_encoding.md R83. -/
inductive Reject where
  /-- OP is 0xB to 0xF. -/
  | reservedOp
  /-- RSV is not 0. -/
  | reservedBits
  /-- CODE is not 0 for an operation other than DECODE. -/
  | codeNotZero
  /-- IDX is not 0 for an operation that does not use IDX. -/
  | idxNotZero
  deriving DecidableEq, Repr

/-- A command that uses neither IDX nor CODE: both fields must be 0 (30_encoding.md R83). -/
def bareCommand (w : Word) (i : Instr) : Except Reject Instr :=
  if codeField w ≠ 0 then .error .codeNotZero
  else if idxField w ≠ 0 then .error .idxNotZero
  else .ok i

/-- A command that uses IDX: CODE must be 0 (30_encoding.md R83). -/
def indexCommand (w : Word) (mk : BitVec 8 → Instr) : Except Reject Instr :=
  if codeField w ≠ 0 then .error .codeNotZero else .ok (mk (idxField w))

/-- A command that uses CODE: IDX must be 0 (30_encoding.md R83). -/
def codeCommand (w : Word) (mk : BitVec 4 → Instr) : Except Reject Instr :=
  if idxField w ≠ 0 then .error .idxNotZero else .ok (mk (codeField w))

/-- The decoder: every 32-bit word is one of the eleven operations with its fields, or illegal (30_encoding.md R82, R83). -/
def decodeWord (w : Word) : Except Reject Instr :=
  if rsvField w ≠ 0 then .error .reservedBits
  else match (opField w).toNat with
    | 0x0 => bareCommand w .btcalc
    | 0x1 => bareCommand w .encode
    | 0x2 => codeCommand w .decode
    | 0x3 => indexCommand w .mbwrite
    | 0x4 => indexCommand w .mbread
    | 0x5 => indexCommand w .mbpeek
    | 0x6 => indexCommand w .mbinact
    | 0x7 => indexCommand w .mbabort
    | 0x8 => bareCommand w .txquick
    | 0x9 => bareCommand w .tx
    | 0xA => bareCommand w .rx
    | _ => .error .reservedOp

/-- The command word with the given fields and RSV = 0 (30_encoding.md R81). -/
def commandWord (op : BitVec 4) (idx : BitVec 8) (code : BitVec 4) : Word :=
  (0 : BitVec 16) ++ code ++ idx ++ op

/-- The encoder: the one word of a command (30_encoding.md R82). -/
def encode : Instr → Word
  | .btcalc => commandWord 0x0 0 0
  | .encode => commandWord 0x1 0 0
  | .decode code => commandWord 0x2 0 code
  | .mbwrite idx => commandWord 0x3 idx 0
  | .mbread idx => commandWord 0x4 idx 0
  | .mbpeek idx => commandWord 0x5 idx 0
  | .mbinact idx => commandWord 0x6 idx 0
  | .mbabort idx => commandWord 0x7 idx 0
  | .txquick => commandWord 0x8 0 0
  | .tx => commandWord 0x9 0 0
  | .rx => commandWord 0xA 0 0

/-- The mnemonic of a command (30_encoding.md R82). -/
def mnemonic : Instr → String
  | .btcalc => "BTCALC"
  | .encode => "ENCODE"
  | .decode _ => "DECODE"
  | .mbwrite _ => "MBWRITE"
  | .mbread _ => "MBREAD"
  | .mbpeek _ => "MBPEEK"
  | .mbinact _ => "MBINACT"
  | .mbabort _ => "MBABORT"
  | .txquick => "TXQUICK"
  | .tx => "TX"
  | .rx => "RX"

/-- The rows (mnemonic, mask, match) of spec/opcode_table.json: a second reading of the encoding, held against the decoder by
the obligation `TableRowsAreWhatTheDecoderAccepts`. -/
def opcodeTable : List (String × Word × Word) :=
  [("BTCALC", 0xFFFFFFFF, 0x00000000), ("ENCODE", 0xFFFFFFFF, 0x00000001), ("DECODE", 0xFFFF0FFF, 0x00000002),
   ("MBWRITE", 0xFFFFF00F, 0x00000003), ("MBREAD", 0xFFFFF00F, 0x00000004), ("MBPEEK", 0xFFFFF00F, 0x00000005),
   ("MBINACT", 0xFFFFF00F, 0x00000006), ("MBABORT", 0xFFFFF00F, 0x00000007), ("TXQUICK", 0xFFFFFFFF, 0x00000008),
   ("TX", 0xFFFFFFFF, 0x00000009), ("RX", 0xFFFFFFFF, 0x0000000A)]

/-- The 32 bits of an instruction whose lowest `nbits` bits are those of `w` and whose other bits are 0. -/
def wordOfBits (nbits w : Nat) : Word := BitVec.ofNat 32 (w % 2 ^ nbits)

/-- The instruction the decoder reads from an opcode-table word. A command is one 32-bit word and is not stored in memory
(30_encoding.md R84, 20_memory.md R63), so there is no byte order to apply. -/
def decodeTableWord (nbits w : Nat) : Option Instr := (decodeWord (wordOfBits nbits w)).toOption

end Sys2Proof
end

