-- ==== Sys2Proof/Config.lean ====
section
/-! DEFINITION. The named open parameters of 00_scope.md R6, with one the model adds (log 23), and the one free value of the
model, the value a TIMER read returns. The parameters are plain data held in `State.params`, so that a statement about every state holds for every
choice of them (assumption log 10). -/

namespace Sys2Proof.Config

/-- HW_TX_ORDER (48_peripheral_agent.md R213): which pending mailbox the peripheral may send. -/
inductive TxOrder where
  /-- Any pending mailbox (the default). -/
  | any
  /-- Only a pending mailbox with the least arbitration value, the lowest index on ties. -/
  | lowestIdFirst
  deriving DecidableEq, Repr

/-- The open parameters of 00_scope.md R6 and, last, the model's own. -/
structure Params where
  /-- CAN_BASE without its two low bits: the base address is a multiple of 4, as 20_memory.md R64 needs (log 9). -/
  canBaseWord : BitVec 30
  /-- SPIN_BOUND (60_exceptions.md R249): `none`, or the number of re-reads after which a spin raises Timeout. -/
  spinBound : Option Nat
  /-- LOCK_BLOCKS_HW (48_peripheral_agent.md R219). -/
  lockBlocksHw : Bool
  /-- HW_TX_ORDER (48_peripheral_agent.md R213). -/
  hwTxOrder : TxOrder
  /-- HAVOC_ON_BUS_ERROR (48_peripheral_agent.md R223). -/
  havocOnBusError : Bool
  /-- ACCESS_PERMITTED (60_exceptions.md R252). -/
  accessPermitted : Bool
  /-- The model's own (DESIGN CHOICE, log 23): may a reception in progress go on after a mode request is written, as the remarks of
  48_peripheral_agent.md R225 and 70_reset_and_hazards.md R287 say? False, the default, is 92_eei_decisions.md D34: bus steps only in
  Running. -/
  rxFinishesUnderRequest : Bool
  deriving DecidableEq, Repr

/-- The defaults of 00_scope.md R6; CAN_BASE is 0x4002_4000. The model's own parameter follows D34. -/
def Params.default : Params where
  canBaseWord := 0x10009000
  spinBound := none
  lockBlocksHw := false
  hwTxOrder := .any
  havocOnBusError := false
  accessPermitted := true
  rxFinishesUnderRequest := false

/-- The value the n-th TIMER read of a run returns: any u16 (48_peripheral_agent.md R220, 93 U4). A free value: it has no
body, so nothing can be proved of it (assumption log 3). -/
opaque freeTimer : Nat → BitVec 16

end Sys2Proof.Config
end

