-- ==== Sys2Proof/Machine/Types.lean ====
section
/-! DEFINITION. The value types of 00_scope.md R10 to R16 and 30_encoding.md R85: identifiers, frames, buffer states, headers,
operand records (as the caller spells them, possibly ill-formed), settings, results and errors. -/

namespace Sys2Proof.Machine

/-- An identifier, well-formed by type (00_scope.md R10). -/
inductive Identifier where
  | base (v : BitVec 11)
  | extended (v : BitVec 29)
  deriving DecidableEq, Repr

/-- `num(id)` of 00_scope.md R10: the value, for either kind. -/
def Identifier.num : Identifier → Nat
  | .base v => v.toNat
  | .extended v => v.toNat

/-- Is the identifier of the Extended kind? -/
def Identifier.isExtended : Identifier → Bool
  | .base _ => false
  | .extended _ => true

/-- A frame (00_scope.md R11). The length bound of a data frame is `Frame.wf`. -/
inductive Frame where
  | data (id : Identifier) (bytes : List (BitVec 8))
  | remote (id : Identifier)
  deriving DecidableEq, Repr

/-- `id(f)` of 00_scope.md R11. -/
def Frame.id : Frame → Identifier
  | .data id _ => id
  | .remote id => id

/-- Is the frame a remote frame? -/
def Frame.isRemote : Frame → Bool
  | .data _ _ => false
  | .remote _ => true

/-- A data frame holds at most 8 payload bytes (00_scope.md R11, MAX_PAYLOAD of R6). -/
def Frame.wf : Frame → Bool
  | .data _ bytes => decide (bytes.length ≤ 8)
  | .remote _ => true

/-- The transmit states of 00_scope.md R12. -/
inductive TxState where
  | inactive | abort | dataRemote | tanswer
  deriving DecidableEq, Repr

/-- The receive states of 00_scope.md R12. -/
inductive RxState where
  | inactive | empty | full | overrun | ranswer
  deriving DecidableEq, Repr

/-- A buffer state (00_scope.md R12): 4 transmit values and 5 × 2 receive values. -/
inductive BufferState where
  | tx (t : TxState)
  | rx (r : RxState) (busy : Bool)
  deriving DecidableEq, Repr

/-- The role of a mailbox (00_scope.md R12, R14). -/
inductive Role where
  | transmit | receive
  deriving DecidableEq, Repr

/-- `role(state)` of 00_scope.md R12. -/
def BufferState.role : BufferState → Role
  | .tx _ => .transmit
  | .rx _ _ => .receive

/-- `role_of_index(i)` of 00_scope.md R14. -/
def roleOfIndex (i : Fin 16) : Role := if i.val < 8 then .transmit else .receive

/-- A mailbox header (00_scope.md R13). -/
structure Header where
  esi : Bool
  code : BufferState
  timestamp : BitVec 16
  prio : BitVec 3
  deriving DecidableEq, Repr

/-- The selectable source clock (00_scope.md R15). -/
inductive ClockSource where
  | sys | soscdiv2
  deriving DecidableEq, Repr

/-- What the clock provider exposes (00_scope.md R15); `soscdiv2Hz` is `none` when that oscillator is disabled. -/
structure ClockInfo where
  coreHz : Nat
  soscdiv2Hz : Option Nat
  deriving DecidableEq, Repr

/-- The settings INIT takes (00_scope.md R15). -/
structure Settings where
  warningInterrupt : Bool
  selfReception : Bool
  rxFifo : Bool
  individualMasking : Bool
  loopbackMode : Bool
  clockSource : ClockSource
  canFrequency : Nat
  deriving DecidableEq, Repr

/-! ### Operand records as the caller spells them (30_encoding.md R85); R86 says which are ill-formed -/

/-- An identifier of an operand record: its number may be too wide. -/
inductive RawIdentifier where
  | base (v : Nat)
  | extended (v : Nat)
  deriving DecidableEq, Repr

/-- A frame of an operand record: its bytes may be too many or too large. -/
inductive RawFrame where
  | data (id : RawIdentifier) (bytes : List Nat)
  | remote (id : RawIdentifier)
  deriving DecidableEq, Repr

/-- A header of an operand record: its timestamp and priority may be too large. -/
structure RawHeader where
  esi : Bool
  code : BufferState
  timestamp : Nat
  prio : Nat
  deriving DecidableEq, Repr

/-- `BtcalcOperands` (30_encoding.md R85). -/
structure BtcalcOperands where
  sel : ClockSource
  clocks : ClockInfo
  targetHz : Nat
  deriving DecidableEq, Repr

/-- `EncodeOperands` (30_encoding.md R85). -/
structure EncodeOperands where
  state : BufferState
  deriving DecidableEq, Repr

/-- `MbwriteOperands` (30_encoding.md R85). -/
structure MbwriteOperands where
  header : RawHeader
  frame : RawFrame
  deriving DecidableEq, Repr

/-- `FrameOperand` (30_encoding.md R85). -/
structure FrameOperand where
  frame : RawFrame
  deriving DecidableEq, Repr

/-- The operand records that come with a command, one of each type: an operation reads the one of its own type
(assumption log 5). -/
structure OperandPort where
  btcalc : BtcalcOperands
  encode : EncodeOperands
  mbwrite : MbwriteOperands
  frame : FrameOperand
  deriving DecidableEq, Repr

/-! ### Results (00_scope.md R16, 60_exceptions.md R240, R241) -/

/-- The fields BTCALC computes (40_bit_timing.md R100). -/
structure Timing where
  presdiv : BitVec 8
  propseg : BitVec 3
  pseg1 : BitVec 3
  pseg2 : BitVec 3
  rjw : BitVec 2
  tqs : Nat
  deriving DecidableEq, Repr

/-- The errors of 60_exceptions.md R241, each with the information that rule records. -/
inductive Err where
  | settingsError
  | clockSourceDisabled
  | bitTimingUnsupported (tqs : Nat)
  | prescalerOverflow (presdiv : Nat)
  | decodeError (code : BitVec 4)
  | busyMailboxWriteAttempted (i : Fin 16)
  | bufferExhausted
  | unreachableState (state : BufferState)
  | indexOutOfRange (idx : BitVec 8)
  | invalidHeaderCode (state : BufferState)
  | invalidAbort (state : BufferState)
  | illegalCommand (word : Word)
  | invalidOperand
  | timeout
  | unsupportedSetting
  deriving DecidableEq, Repr

/-- The numeric code of an error (60_exceptions.md R241); 0 is no error. -/
def Err.code : Err → Nat
  | .settingsError => 1
  | .clockSourceDisabled => 2
  | .bitTimingUnsupported _ => 3
  | .prescalerOverflow _ => 4
  | .decodeError _ => 5
  | .busyMailboxWriteAttempted _ => 6
  | .bufferExhausted => 7
  | .unreachableState _ => 8
  | .indexOutOfRange _ => 9
  | .invalidHeaderCode _ => 10
  | .invalidAbort _ => 11
  | .illegalCommand _ => 12
  | .invalidOperand => 13
  | .timeout => 14
  | .unsupportedSetting => 15

/-- The value of an Ok result, by the result types of the operations. -/
inductive Value where
  /-- `Ok(())`: MBWRITE, MBINACT, TXQUICK, INIT. -/
  | unit
  /-- BTCALC. -/
  | timing (t : Timing)
  /-- ENCODE. -/
  | code (c : BitVec 4)
  /-- DECODE. -/
  | state (s : BufferState)
  /-- MBREAD, MBPEEK. -/
  | message (h : Header) (f : Frame)
  /-- RX. -/
  | frame (f : Frame)
  /-- MBABORT, TX: `some f` or `none`. -/
  | maybeFrame (f : Option Frame)
  deriving DecidableEq, Repr

/-- What an operation returns to its caller (00_scope.md R16). -/
inductive Result where
  | ok (v : Value)
  | err (e : Err)
  deriving DecidableEq, Repr

/-- The numeric code of a result (60_exceptions.md R241: code 0 is the Ok result). -/
def Result.code : Result → Nat
  | .ok _ => 0
  | .err e => e.code

end Sys2Proof.Machine
end

