-- ==== Sys2Proof/Machine/Codes.lean ====
section
/-! DEFINITION. The 4-bit mailbox code table and the functions over buffer states (41_codec.md R120 to R127). -/

namespace Sys2Proof.Machine

/-- `rx_base` of 41_codec.md R120: the pattern of a receive state with busy = false. -/
def rxBase : RxState → BitVec 4
  | .inactive => 0b0000
  | .empty => 0b0100
  | .full => 0b0010
  | .overrun => 0b0110
  | .ranswer => 0b1010

/-- `encode` of 41_codec.md R121. -/
def encodeState : BufferState → BitVec 4
  | .tx .inactive => 0b1000
  | .tx .abort => 0b1001
  | .tx .dataRemote => 0b1100
  | .tx .tanswer => 0b1110
  | .rx r busy => rxBase r ||| (if busy then 0b0001 else 0b0000)

/-- `decode` of 41_codec.md R122, row by row of the table of R120; the reserved patterns 0b1101 and 0b1111 fail. -/
def decodeState (p : BitVec 4) : Option BufferState :=
  match p.toNat with
  | 0b0000 => some (.rx .inactive false)
  | 0b0001 => some (.rx .inactive true)
  | 0b0010 => some (.rx .full false)
  | 0b0011 => some (.rx .full true)
  | 0b0100 => some (.rx .empty false)
  | 0b0101 => some (.rx .empty true)
  | 0b0110 => some (.rx .overrun false)
  | 0b0111 => some (.rx .overrun true)
  | 0b1000 => some (.tx .inactive)
  | 0b1001 => some (.tx .abort)
  | 0b1010 => some (.rx .ranswer false)
  | 0b1011 => some (.rx .ranswer true)
  | 0b1100 => some (.tx .dataRemote)
  | 0b1110 => some (.tx .tanswer)
  | _ => none

/-- `is_busy` of 41_codec.md R125. -/
def BufferState.isBusy : BufferState → Bool
  | .rx _ busy => busy
  | .tx _ => false

/-- `writable` of 41_codec.md R126 (90_conflicts.md C3). -/
def writable (s : BufferState) : Bool :=
  s == .tx .inactive || s == .tx .abort || s == .rx .inactive false

/-- `inactive_of` of 41_codec.md R127. -/
def inactiveOf : Role → BufferState
  | .transmit => .tx .inactive
  | .receive => .rx .inactive false

/-- A code on which the peripheral may begin a reception: Rx(Empty), Rx(Full) or Rx(Overrun), not busy
(48_peripheral_agent.md R215). -/
def receivable (code : BitVec 4) : Bool := code == 0b0100#4 || code == 0b0010#4 || code == 0b0110#4

/-- A remote-answer code: Tx(Tanswer), Rx(Ranswer) or Rx(Ranswer, busy) (48_peripheral_agent.md R222). -/
def answerCode (code : BitVec 4) : Bool := code == 0b1110#4 || code == 0b1010#4 || code == 0b1011#4

end Sys2Proof.Machine
end

