-- ==== Sys2Proof/WellFormed.lean ====
section
/-! DEFINITION. Well-formedness. The fields of `Instr` are bit vectors of their fields' widths, so every term of `Instr` is a
command (30_encoding.md R81). What can be ill-formed is an operand record: the checks of 30_encoding.md R86, one for each
line of that rule. -/

namespace Sys2Proof.Machine

/-- `Base(v)` needs v < 2^11 and `Extended(v)` needs v < 2^29 (30_encoding.md R86). -/
def RawIdentifier.wf : RawIdentifier → Bool
  | .base v => decide (v < 2 ^ 11)
  | .extended v => decide (v < 2 ^ 29)

/-- At most 8 payload bytes, each below 256, and a well-formed identifier (30_encoding.md R86). -/
def RawFrame.wf : RawFrame → Bool
  | .data id bytes => id.wf && decide (bytes.length ≤ 8) && bytes.all fun b => decide (b < 256)
  | .remote id => id.wf

/-- prio < 8 and timestamp < 2^16 (30_encoding.md R86). -/
def RawHeader.wf (h : RawHeader) : Bool := decide (h.prio < 8) && decide (h.timestamp < 2 ^ 16)

/-- core_hz, a present soscdiv2_hz and target_hz are below 2^32 (30_encoding.md R86). -/
def BtcalcOperands.wf (o : BtcalcOperands) : Bool :=
  decide (o.clocks.coreHz < 2 ^ 32) && (o.clocks.soscdiv2Hz.all fun f => decide (f < 2 ^ 32)) &&
    decide (o.targetHz < 2 ^ 32)

/-- An MBWRITE record is well-formed when its header and its frame are (30_encoding.md R86). -/
def MbwriteOperands.wf (o : MbwriteOperands) : Bool := o.header.wf && o.frame.wf

/-- A frame operand is well-formed when its frame is (30_encoding.md R86). -/
def FrameOperand.wf (o : FrameOperand) : Bool := o.frame.wf

end Sys2Proof.Machine
end

