-- ==== Sys2Proof/Machine/Operands.lean ====
section
/-! DEFINITION. Reading the operand records: each is checked (30_encoding.md R86) and turned into values that are well-formed by
type; `none` is an ill-formed record, which ends the operation with InvalidOperand. -/

namespace Sys2Proof.Machine

/-- The identifier a record spells, its number narrowed to its kind's width. -/
def RawIdentifier.narrow : RawIdentifier → Identifier
  | .base v => .base (BitVec.ofNat 11 v)
  | .extended v => .extended (BitVec.ofNat 29 v)

/-- The frame a record spells. -/
def RawFrame.narrow : RawFrame → Frame
  | .data id bytes => .data id.narrow (bytes.map (BitVec.ofNat 8))
  | .remote id => .remote id.narrow

/-- The header a record spells. -/
def RawHeader.narrow (h : RawHeader) : Header :=
  { esi := h.esi, code := h.code, timestamp := BitVec.ofNat 16 h.timestamp, prio := BitVec.ofNat 3 h.prio }

/-- The operands of BTCALC, if well-formed. -/
def btcalcOperands (o : BtcalcOperands) : Option (ClockSource × ClockInfo × Nat) :=
  if o.wf then some (o.sel, o.clocks, o.targetHz) else none

/-- The operand of ENCODE: every buffer state is well-formed. -/
def encodeOperand (o : EncodeOperands) : BufferState := o.state

/-- The operands of MBWRITE, if well-formed. -/
def mbwriteOperands (o : MbwriteOperands) : Option (Header × Frame) :=
  if o.wf then some (o.header.narrow, o.frame.narrow) else none

/-- The operand of TXQUICK and TX, if well-formed. -/
def frameOperand (o : FrameOperand) : Option Frame :=
  if o.wf then some o.frame.narrow else none

/-- A well-formed identifier as a record spells it. -/
def Identifier.spell : Identifier → RawIdentifier
  | .base v => .base v.toNat
  | .extended v => .extended v.toNat

/-- A frame as a record spells it. -/
def Frame.spell : Frame → RawFrame
  | .data id bytes => .data id.spell (bytes.map BitVec.toNat)
  | .remote id => .remote id.spell

/-- A header as a record spells it. -/
def Header.spell (h : Header) : RawHeader :=
  { esi := h.esi, code := h.code, timestamp := h.timestamp.toNat, prio := h.prio.toNat }

end Sys2Proof.Machine
end

