-- ==== Sys2Proof/Machine/Fields.lean ====
section
/-! DEFINITION. The layouts of the mailbox words and of the MCR and CTRL1 registers: reading and writing their fields
(10_state.md R24 to R31, 42_mailbox_store.md R140 to R144). -/

namespace Sys2Proof.Machine

/-- Bit `i` as a word with only that bit set when `b` holds: `b << i`. -/
def bitAt (b : Bool) (i : Nat) : Word := if b then 1#32 <<< i else 0#32

/-- `w` with bit `i` cleared. -/
def clearBit (w : Word) (i : Nat) : Word := w &&& ~~~(1#32 <<< i)

/-! ### The CS word (10_state.md R24) -/

/-- `code_of(cs) = cs[27:24]` (42_mailbox_store.md R140). -/
def codeOf (cs : Word) : BitVec 4 := cs.extractLsb' 24 4

/-- `with_code(cs, p)`: replaces CODE and keeps every other bit (42_mailbox_store.md R140). -/
def withCode (cs : Word) (p : BitVec 4) : Word := (cs &&& 0xF0FFFFFF) ||| (p.setWidth 32 <<< 24)

/-- The CS word with TIME_STAMP, bits 15:0, replaced (10_state.md R24). -/
def withTimestamp (cs : Word) (t : BitVec 16) : Word := (cs &&& 0xFFFF0000) ||| t.setWidth 32

/-- `dlc(frame)` as the block writes it: the payload length, 0 for a remote frame (42_mailbox_store.md R142). -/
def Frame.dlc : Frame → BitVec 4
  | .data _ bytes => BitVec.ofNat 4 bytes.length
  | .remote _ => 0

/-- The CS word the block writes for a header and a frame (42_mailbox_store.md R142). -/
def csWord (hdr : Header) (frame : Frame) : Word :=
  bitAt hdr.esi 29 ||| ((encodeState hdr.code).setWidth 32 <<< 24) ||| bitAt true 22 |||
    bitAt frame.id.isExtended 21 ||| bitAt frame.isRemote 20 ||| (frame.dlc.setWidth 32 <<< 16)

/-! ### The ID word (10_state.md R25) -/

/-- The identifier bits of the ID word (42_mailbox_store.md R141). -/
def idBits : Identifier → Word
  | .base v => v.setWidth 32 <<< 18
  | .extended v => v.setWidth 32

/-- `id_word(id, prio)` (42_mailbox_store.md R141). -/
def idWord (id : Identifier) (prio : BitVec 3) : Word := (prio.setWidth 32 <<< 29) ||| idBits id

/-- The identifier a mailbox holds: Extended(idw[28:0]) if IDE is set, else Base(idw[28:18]) (42_mailbox_store.md R144). -/
def identOf (cs idw : Word) : Identifier :=
  if cs.getLsbD 21 then .extended (idw.extractLsb' 0 29) else .base (idw.extractLsb' 18 11)

/-! ### The data words (10_state.md R26) -/

/-- Four bytes as a word, the first-named in bits 31:24 (42_mailbox_store.md R143). -/
def wordOfBytes (b0 b1 b2 b3 : BitVec 8) : Word := b0 ++ b1 ++ b2 ++ b3

/-- Byte `k` of a payload, 0 past its end (42_mailbox_store.md R143). -/
def byteOrZero (bytes : List (BitVec 8)) (k : Nat) : BitVec 8 := bytes.getD k 0

/-- `pack(data)`: the two data words of a payload (42_mailbox_store.md R143). -/
def pack (bytes : List (BitVec 8)) : Word × Word :=
  let b := byteOrZero bytes
  (wordOfBytes (b 0) (b 1) (b 2) (b 3), wordOfBytes (b 4) (b 5) (b 6) (b 7))

/-- Byte `k` of the data words: bits [31 - 8(k mod 4) : 24 - 8(k mod 4)] of word 2 + k/4 (10_state.md R26). -/
def dataByte (w2 w3 : Word) (k : Nat) : BitVec 8 :=
  (if k < 4 then w2 else w3).extractLsb' (24 - 8 * (k % 4)) 8

/-- The payload length of a CS word: min(DLC, 8) (42_mailbox_store.md R144). -/
def payloadLength (cs : Word) : Nat := min (cs.extractLsb' 16 4).toNat 8

/-- `unpack` of 42_mailbox_store.md R144, for a CS word whose code decodes to `st`. -/
def unpack (cs : Word) (st : BufferState) (idw w2 w3 : Word) : Header × Frame :=
  ({ esi := cs.getLsbD 29, code := st, timestamp := cs.extractLsb' 0 16, prio := idw.extractLsb' 29 3 },
   if cs.getLsbD 20 then .remote (identOf cs idw)
   else .data (identOf cs idw) ((List.range (payloadLength cs)).map (dataByte w2 w3)))

/-- `arb(k)` of 48_peripheral_agent.md R213: the arbitration value of a mailbox's identifier. -/
def arbValue (cs idw : Word) : Nat :=
  if cs.getLsbD 21 then (idw.extractLsb' 0 29).toNat else (idw.extractLsb' 18 11).toNat <<< 18

/-! ### What the peripheral writes on a reception (48_peripheral_agent.md R216) -/

/-- The data words after a reception: the frame's bytes, then bytes of the words `p2`, `p3` (any value) past its end. -/
def receivedData (bytes : List (BitVec 8)) (p2 p3 : Word) : Word × Word :=
  let b := fun k => bytes.getD k (dataByte p2 p3 k)
  (wordOfBytes (b 0) (b 1) (b 2) (b 3), wordOfBytes (b 4) (b 5) (b 6) (b 7))

/-- The DLC of a reception: n for a data frame of n < 8 bytes, any of 8 to 15 for 8 bytes, anything for a remote frame; `any`
is the choice. -/
def receivedDlc (frame : Frame) (any : BitVec 4) : BitVec 4 :=
  match frame with
  | .data _ bytes => if bytes.length < 8 then BitVec.ofNat 4 bytes.length else any ||| 0b1000
  | .remote _ => any

/-- The CS word after RX_WRITE: ESI, EDL and BRS are 0, SRR is any bit, IDE, RTR, DLC and TIME_STAMP come from the frame;
CODE and the reserved bits 28 and 23 keep their values (assumption log 11). -/
def receivedCs (cs : Word) (frame : Frame) (ts : BitVec 16) (srr : Bool) (any : BitVec 4) : Word :=
  (cs &&& 0x1F800000) ||| bitAt srr 22 ||| bitAt frame.id.isExtended 21 ||| bitAt frame.isRemote 20 |||
    ((receivedDlc frame any).setWidth 32 <<< 16) ||| ts.setWidth 32

/-! ### MCR (10_state.md R30) -/

/-- MCR bit 31, the low-power request. -/
def mdis (mcr : Word) : Bool := mcr.getLsbD 31
/-- MCR bit 30, freeze enable. -/
def frz (mcr : Word) : Bool := mcr.getLsbD 30
/-- MCR bit 28, the halt request. -/
def halt (mcr : Word) : Bool := mcr.getLsbD 28
/-- MCR bit 25, soft reset, self-clearing. -/
def softRst (mcr : Word) : Bool := mcr.getLsbD 25
/-- MCR bit 24, freeze acknowledge, read-only. -/
def frzAck (mcr : Word) : Bool := mcr.getLsbD 24
/-- MCR bit 20, low-power acknowledge, read-only. -/
def lpmAck (mcr : Word) : Bool := mcr.getLsbD 20

/-- MCR after a block write of `v` over `old`: FRZACK and LPMACK are read-only and keep their values (10_state.md R30). -/
def mcrWrite (old v : Word) : Word := (v &&& 0xFEEFFFFF) ||| (old &&& 0x01100000)

/-- The peripheral modes (10_state.md R37). -/
inductive Mode where
  | disabled | frozen | running | transitional
  deriving DecidableEq, Repr

/-- The mode is a function of MCR (10_state.md R37). -/
def modeOf (mcr : Word) : Mode :=
  if lpmAck mcr then .disabled
  else if frzAck mcr then .frozen
  else if !mdis mcr && !frz mcr && !halt mcr then .running
  else .transitional

/-- MCR after SOFTRST_DONE: MDIS and LPMACK are kept, every other bit is that of `any`, then FRZ = HALT = 1 and SOFTRST = 0
(48_peripheral_agent.md R225). -/
def mcrAfterSoftReset (mcr any : Word) : Word :=
  (mcr &&& 0x80100000) ||| (any &&& 0x2DEFFFFF) ||| 0x50000000

/-! ### CTRL1 (10_state.md R31) -/

/-- The CTRL1 timing fields of a BTCALC result, with LPB: what INIT writes inside the freeze window (70_reset_and_hazards.md R271). -/
def ctrl1Timing (bt : Timing) (lpb : Bool) : Word :=
  (bt.presdiv.setWidth 32 <<< 24) ||| (bt.rjw.setWidth 32 <<< 22) ||| (bt.pseg1.setWidth 32 <<< 19) |||
    (bt.pseg2.setWidth 32 <<< 16) ||| bitAt lpb 12 ||| bt.propseg.setWidth 32

/-- CLKSRC: 1 for Sys, 0 for Soscdiv2 (10_state.md R31, 92_eei_decisions.md D44). -/
def clksrc : ClockSource → Bool
  | .sys => true
  | .soscdiv2 => false

end Sys2Proof.Machine
end

