-- ==== Sys2Proof/Machine/Flags.lean ====
section
/-! DEFINITION. The completion flags of IFLAG1, the block's only flags (10_state.md R28). -/

namespace Sys2Proof.Machine

/-- `1 << i`: the word with only the flag of mailbox `i` (00_scope.md R7). -/
def flagMask (i : Fin 16) : Word := 1#32 <<< i.val

/-- Is the completion flag of mailbox `i` set? -/
def flagSet (iflag : Word) (i : Fin 16) : Bool := iflag.getLsbD i.val

/-- A write to IFLAG1 clears each flag whose bit is 1 in the written value and leaves the others (10_state.md R28). -/
def iflagWrite (iflag v : Word) : Word := iflag &&& ~~~v

/-- The peripheral sets the completion flag of mailbox `i` (10_state.md R28). -/
def raiseFlag (iflag : Word) (i : Fin 16) : Word := iflag ||| flagMask i

end Sys2Proof.Machine
end

