-- ==== Sys2Proof/Machine/Parts.lean ====
section
/-! DEFINITION. The parts of the state: mailboxes, receptions in progress, the peripheral's steps as plain data, the registers
and accesses, the caller's requests, and the places where an operation spins. -/

namespace Sys2Proof.Machine

/-- One mailbox: four 32-bit words (10_state.md R23). -/
structure Mailbox where
  cs : Word
  idw : Word
  d0 : Word
  d1 : Word
  deriving DecidableEq, Repr

/-- `RxMove`: a frame being moved into a mailbox, with the "words written" bit (10_state.md R36, 48_peripheral_agent.md R211).
`final` is Full or Overrun. -/
structure RxMove where
  frame : Frame
  ts : BitVec 16
  final : RxState
  written : Bool
  deriving DecidableEq, Repr

/-- The registers of the window (20_memory.md R61). -/
inductive Reg where
  | mcr | ctrl1 | timer | rxmgmask | iflag1
  /-- Word `w` of mailbox `i`. -/
  | mb (i : Fin 16) (w : Fin 4)
  deriving DecidableEq, Repr

/-- One access of the block with the value it moved (00_scope.md R8). -/
inductive Access where
  | read (r : Reg) (v : Word)
  | write (r : Reg) (v : Word)
  deriving DecidableEq, Repr

/-- The steps of the peripheral agent (48_peripheral_agent.md R211). Every value that the rules leave to the hardware ("any
u16", "any value") is carried by the step, so a statement about every schedule is a statement about every choice. -/
inductive Event where
  /-- TX_COMPLETE(i), with the timestamp captured (R212, R221). -/
  | txComplete (i : Fin 16) (ts : BitVec 16)
  /-- ABORT_RESOLVE(i, sent), with the timestamp captured if sent (R214). -/
  | abortResolve (i : Fin 16) (sent : Bool) (ts : BitVec 16)
  /-- RX_BEGIN(i, frame, ts) (R215). -/
  | rxBegin (i : Fin 16) (frame : Frame) (ts : BitVec 16)
  /-- RX_WRITE(i), with the PRIO bits, the SRR bit, the DLC choice and the bytes past the frame's end (R216). -/
  | rxWrite (i : Fin 16) (prio : BitVec 3) (srr : Bool) (dlc : BitVec 4) (pad0 pad1 : Word)
  /-- RX_END(i) (R217). -/
  | rxEnd (i : Fin 16)
  /-- ANSWER_HAVOC(i), with the words the mailbox takes (R222). -/
  | answerHavoc (i : Fin 16) (words : Mailbox)
  /-- BUS_ERROR(i), with the code the mailbox takes and whether its flag is set (R223). -/
  | busError (i : Fin 16) (code : BitVec 4) (setFlag : Bool)
  /-- LATE_TX(i) (R224). -/
  | lateTx (i : Fin 16)
  /-- LATE_DROP(i) (R224). -/
  | lateDrop (i : Fin 16)
  /-- LPM_ENTER (R225). -/
  | lpmEnter
  /-- LPM_EXIT (R225). -/
  | lpmExit
  /-- FRZ_ENTER (R225). -/
  | frzEnter
  /-- FRZ_EXIT (R225). -/
  | frzExit
  /-- SOFTRST_DONE, with the unspecified values the registers take (R225). -/
  | softRstDone (mcr ctrl1 iflag rxmgmask : Word)
  deriving DecidableEq, Repr

/-- The mode steps of 48_peripheral_agent.md R225; every other step is a bus step (R210). -/
def Event.isMode : Event → Bool
  | .lpmEnter | .lpmExit | .frzEnter | .frzExit | .softRstDone _ _ _ _ => true
  | _ => false

/-- INIT's polls, in the order INIT reaches them (70_reset_and_hazards.md R271 to R273). -/
inductive BootPoll where
  /-- disable() of reset(), first: until LPMACK = 1. -/
  | disable1
  /-- enable() of reset(): until LPMACK = 0. -/
  | enable1
  /-- The soft-reset poll of reset(): until SOFTRST = 0. -/
  | softReset
  /-- disable() of reset(), second: until LPMACK = 1. -/
  | disable2
  /-- enable() of INIT: until LPMACK = 0. -/
  | enable2
  /-- enter_freeze(): until FRZACK = 1. -/
  | enterFreeze
  /-- leave_freeze(): until FRZACK = 0. -/
  | leaveFreeze
  deriving DecidableEq, Repr

/-- The operation on whose behalf MBABORT's pseudocode runs. -/
inductive AbortCaller where
  | mbabort
  /-- TX, which will write this frame into the mailbox once the abort has ended. -/
  | tx (frame : Frame)
  deriving DecidableEq, Repr

/-- The operation on whose behalf MBREAD's pseudocode runs. -/
inductive ReadCaller where
  | mbread
  | rx
  /-- The re-read of MBABORT (42_mailbox_store.md R149). -/
  | abort (c : AbortCaller)
  deriving DecidableEq, Repr

/-- A place in an operation's pseudocode where it spins, with the locals it still needs; `n` is the spin's counter
(10_state.md R22, 60_exceptions.md R249). -/
inductive SpinPos where
  /-- MBREAD's busy spin (42_mailbox_store.md R146). -/
  | readBusy (c : ReadCaller) (i : Fin 16) (n : Nat)
  /-- MBABORT's flag spin (42_mailbox_store.md R149). -/
  | abortFlag (c : AbortCaller) (i : Fin 16) (n : Nat)
  /-- One of INIT's polls (70_reset_and_hazards.md R272, R273). -/
  | boot (p : BootPoll) (n : Nat) (bt : Timing) (st : Settings)
  deriving DecidableEq, Repr

/-- What the block agent is doing. -/
inductive Block where
  /-- No operation is in progress. -/
  | idle
  /-- An operation is in progress and spins: its last re-read did not meet the exit condition. -/
  | spinning (p : SpinPos)
  deriving DecidableEq, Repr

/-- What the caller asks of the block (00_scope.md R2, 30_encoding.md R88, 70_reset_and_hazards.md R270). -/
inductive Request where
  /-- INIT, the boundary sequence. -/
  | init (settings : Settings) (clocks : ClockInfo)
  /-- A command word with its operand records. -/
  | command (word : Word) (operands : OperandPort)
  /-- A command re-issued while its result is `Err(BufferExhausted)`: `txwait`, `rxwait` (30_encoding.md R88). -/
  | commandUntilFree (word : Word) (operands : OperandPort)
  deriving DecidableEq, Repr

/-- Entry `i` of a bank of 16 replaced. -/
def put {α : Type} (v : Vector α 16) (i : Fin 16) (x : α) : Vector α 16 := v.set i.val x i.isLt

/-- The transmit mailboxes, ascending (00_scope.md R14). -/
def txIdx : List (Fin 16) := [0, 1, 2, 3, 4, 5, 6, 7]

/-- The receive mailboxes, ascending (00_scope.md R14). -/
def rxIdx : List (Fin 16) := [8, 9, 10, 11, 12, 13, 14, 15]

end Sys2Proof.Machine
end

