-- ==== Sys2Proof/Machine/State.lean ====
section
/-! DEFINITION. The state of the machine (10_state.md R20 and INVENTORY.md), the reasons a step can stop, and the state right
after reset (10_state.md R39, 70_reset_and_hazards.md R270). -/

namespace Sys2Proof.Machine

/-- The state. The first ten fields are the record of 10_state.md R20. -/
structure State where
  /-- Mailbox RAM (R23). -/
  mb : Vector Mailbox 16
  /-- IFLAG1, the completion flags (R28). -/
  iflag : Word
  /-- TIMER, the free-running timer (R29). -/
  timer : BitVec 16
  /-- MCR, the mode/control register (R30). -/
  mcr : Word
  /-- CTRL1, the bit-timing and control register (R31). -/
  ctrl1 : Word
  /-- RXMGMASK, the global acceptance mask (R32). -/
  rxmgmask : Word
  /-- Hidden: the mailbox lock (R33). -/
  lockedMb : Option (Fin 16)
  /-- Hidden: an abort is requested and not yet resolved (R34). -/
  abortReq : Vector Bool 16
  /-- Hidden: a deactivated frame may still complete (R35). -/
  lateTx : Vector Bool 16
  /-- Hidden: a reception in progress (R36). -/
  rxStage : Vector (Option RxMove) 16
  /-- The block agent's position while an operation is in progress (00_scope.md R9, 10_state.md R22). -/
  block : Block
  /-- The operand records that came with the command being run (30_encoding.md R85). -/
  operands : OperandPort
  /-- The result of the last operation, none while one is in progress (60_exceptions.md R240). -/
  result : Option Result
  /-- The parameters of 00_scope.md R6; no step changes them (log 10). -/
  params : Config.Params
  /-- The model's own: what the caller has still to ask (log 5). -/
  requests : List Request
  /-- The model's own: for each coming access of the block, the peripheral's steps just before it (log 2). -/
  schedule : List (List Event)
  /-- The model's own: how many TIMER values have been drawn (log 3). -/
  draws : Nat
  /-- The model's own: the accesses of the current or last operation, oldest first (log 6). -/
  accesses : List Access
  deriving DecidableEq, Repr

/-- The faults of a step: there are none. The block has no trap mechanism (60_exceptions.md R240, R245), every error is an
operation's result, and a hang is a run that stays in its spin (R250), so nobody raises a fault and this is safe. -/
inductive Fault : Type
  deriving DecidableEq, Repr

/-- Why the model gives a step no meaning. Each is safe: the model stops where the hardware might go on. -/
inductive Refusal where
  /-- An instruction without a meaning yet. Raised by `exec`'s arms alone; none is left. Safe. -/
  | notModelled (mnemonic : String)
  /-- A second operation is issued while one is in progress (20_memory.md R73, 60_exceptions.md R251). Raised by every meaning
  through `issue`; `step` never issues one then. Safe. -/
  | operationInProgress
  /-- An access is made while ACCESS_PERMITTED is false (60_exceptions.md R251, R252). Raised by `memRead` and `memWrite`. Safe. -/
  | accessNotPermitted
  /-- An access is not an aligned 32-bit one (20_memory.md R64, 60_exceptions.md R251). Raised by `memRead` and `memWrite`; no
  operation makes one. Safe. -/
  | notAlignedWord
  /-- An access is outside the map of 20_memory.md R61, which says that what stands there is outside the model. Raised by `memRead`
  and `memWrite`; no operation makes one. Safe. -/
  | outsideWindow
  /-- A write to TIMER, which the block never makes and to which no effect is given (10_state.md R29). Raised by `memWrite`; no
  operation makes one. Safe. -/
  | timerWrite
  deriving DecidableEq, Repr

/-- The operand records at reset: no command has brought any, so one fixed well-formed record of each type stands here
(DESIGN CHOICE, log 5). -/
def OperandPort.reset : OperandPort where
  btcalc := { sel := .sys, clocks := { coreHz := 0, soscdiv2Hz := none }, targetHz := 0 }
  encode := { state := .tx .inactive }
  mbwrite := { header := { esi := false, code := .tx .inactive, timestamp := 0, prio := 0 }, frame := .data (.base 0) [] }
  frame := { frame := .data (.base 0) [] }

/-- Power-on (10_state.md R39, column "after power-on or soft reset"; 70_reset_and_hazards.md R270). R39 gives the hidden state. The
registers and the mailbox RAM are open at power-on, and take the values of assumption log 1, the bits FRZ, HALT and SOFTRST of MCR
included: R39 gives those three for soft reset only. The caller's queue, the operand records, the schedule and the draw counter are the
model's own (logs 5, 2 and 3). The schedule is empty (DESIGN CHOICE, log 2): 48_peripheral_agent.md R211 and R226 leave open which
steps the peripheral takes, and in the run from this state it takes none. -/
def State.reset : State where
  mb := Vector.replicate 16 { cs := 0, idw := 0, d0 := 0, d1 := 0 }
  iflag := 0
  timer := 0
  mcr := 0xD890000F
  ctrl1 := 0
  rxmgmask := 0
  lockedMb := none
  abortReq := Vector.replicate 16 false
  lateTx := Vector.replicate 16 false
  rxStage := Vector.replicate 16 none
  block := .idle
  operands := .reset
  result := none
  params := .default
  requests := []
  schedule := []
  draws := 0
  accesses := []

end Sys2Proof.Machine
end

