-- ==== Sys2Proof/Machine/Peripheral.lean ====
section
/-! DEFINITION. The peripheral agent: its steps, when each is enabled and what it does (48_peripheral_agent.md R210 to R225), and
the hidden effects of the block's CS writes (R227). -/

namespace Sys2Proof.Machine

/-- The peripheral's mode (10_state.md R37). -/
def State.mode (s : State) : Mode := modeOf s.mcr

/-- The peripheral is Running, which every bus step needs (48_peripheral_agent.md R210, 92_eei_decisions.md D34). -/
def State.running (s : State) : Bool := s.mode == .running

/-- A reception in progress may go on: Running (48_peripheral_agent.md R210, R216, R217; 10_state.md R37; 92_eei_decisions.md D34).
Where the parameter `rxFinishesUnderRequest` is set, it may also go on in Transitional, where a mode request is written and not yet
acknowledged, as the remarks of R225 and 70_reset_and_hazards.md R287 say (DESIGN CHOICE, log 23). -/
def State.receiving (s : State) : Bool :=
  s.running || (s.params.rxFinishesUnderRequest && s.mode == .transitional)

/-- `CODE(i)` of 48_peripheral_agent.md R211. -/
def State.codeAt (s : State) (i : Fin 16) : BitVec 4 := codeOf (s.mb.get i).cs

/-- No reception is in progress in any mailbox (48_peripheral_agent.md R215). -/
def State.noReception (s : State) : Bool := s.rxStage.toList.all fun m => m.isNone

/-- Mailbox `i` replaced. -/
def State.setMailbox (s : State) (i : Fin 16) (m : Mailbox) : State := { s with mb := put s.mb i m }

/-- The CS word of mailbox `i` replaced, with no hidden effect: what the peripheral does. -/
def State.setCs (s : State) (i : Fin 16) (cs : Word) : State := s.setMailbox i { s.mb.get i with cs := cs }

/-- The completion flag of mailbox `i` set (10_state.md R28). -/
def State.flagRaised (s : State) (i : Fin 16) : State := { s with iflag := raiseFlag s.iflag i }

/-- `arb(k)` of 48_peripheral_agent.md R213. -/
def State.arbAt (s : State) (i : Fin 16) : Nat := arbValue (s.mb.get i).cs (s.mb.get i).idw

/-- HW_TX_ORDER allows mailbox `i` to be sent: under `lowestIdFirst` no other pending mailbox goes before it
(48_peripheral_agent.md R213). -/
def State.orderAllows (s : State) (i : Fin 16) : Bool :=
  match s.params.hwTxOrder with
  | .any => true
  | .lowestIdFirst =>
    (List.finRange 16).all fun j =>
      j == i || s.codeAt j != 0b1100#4 ||
        !(decide (s.arbAt j < s.arbAt i) || (s.arbAt j == s.arbAt i && decide (j < i)))

/-- The mailbox lock lets a reception into mailbox `i` begin (48_peripheral_agent.md R219). -/
def State.lockAllows (s : State) (i : Fin 16) : Bool :=
  !(s.params.lockBlocksHw && s.lockedMb == some i)

/-- When a peripheral step is enabled (48_peripheral_agent.md R211 and the rules it names; R225 for the mode steps). LPM_ENTER and
FRZ_ENTER wait for a reception in progress; whether that can finish meanwhile is a parameter (`State.receiving`). -/
def enabled (e : Event) (s : State) : Bool :=
  match e with
  | .txComplete i _ => s.running && s.codeAt i == 0b1100#4 && s.orderAllows i
  | .abortResolve i _ _ => s.running && s.codeAt i == 0b1001#4 && s.abortReq.get i
  | .rxBegin i f _ => s.running && receivable (s.codeAt i) && s.noReception && s.lockAllows i && f.wf
  | .rxWrite i _ _ _ _ _ =>
    s.receiving && (match s.rxStage.get i with | some m => !m.written | none => false)
  | .rxEnd i => s.receiving && (match s.rxStage.get i with | some m => m.written | none => false)
  | .answerHavoc i _ => s.running && answerCode (s.codeAt i)
  | .busError _ _ _ => s.running && s.params.havocOnBusError
  | .lateTx i => s.running && s.lateTx.get i
  | .lateDrop i => s.running && s.lateTx.get i
  | .lpmEnter => mdis s.mcr && !lpmAck s.mcr && s.noReception
  | .lpmExit => !mdis s.mcr && lpmAck s.mcr
  | .frzEnter => !lpmAck s.mcr && !mdis s.mcr && frz s.mcr && halt s.mcr && !frzAck s.mcr && s.noReception
  | .frzExit => frzAck s.mcr && (!frz s.mcr || !halt s.mcr || mdis s.mcr)
  | .softRstDone _ _ _ _ => softRst s.mcr && !lpmAck s.mcr

/-- TX_COMPLETE(i): the frame was sent (48_peripheral_agent.md R212). -/
def txCompleteEffect (i : Fin 16) (ts : BitVec 16) (s : State) : State :=
  (s.setCs i (withTimestamp (withCode (s.mb.get i).cs 0b1000) ts)).flagRaised i

/-- ABORT_RESOLVE(i, sent): the abort request is answered (48_peripheral_agent.md R214). -/
def abortResolveEffect (i : Fin 16) (sent : Bool) (ts : BitVec 16) (s : State) : State :=
  let s := if sent then s.setCs i (withTimestamp (withCode (s.mb.get i).cs 0b1000) ts) else s
  { s.flagRaised i with abortReq := put s.abortReq i false }

/-- RX_BEGIN(i, frame, ts): the code becomes its busy variant; the final state is Full after Empty, Overrun after Full or
Overrun (48_peripheral_agent.md R215). -/
def rxBeginEffect (i : Fin 16) (frame : Frame) (ts : BitVec 16) (s : State) : State :=
  let code := s.codeAt i
  let final := if code = 0b0100#4 then RxState.full else RxState.overrun
  { s.setCs i (withCode (s.mb.get i).cs (code ||| 0b0001)) with
    rxStage := put s.rxStage i (some { frame := frame, ts := ts, final := final, written := false }) }

/-- RX_WRITE(i): the frame's words are written; a remote frame leaves the data words alone (48_peripheral_agent.md R216). -/
def rxWriteEffect (i : Fin 16) (prio : BitVec 3) (srr : Bool) (dlc : BitVec 4) (pad0 pad1 : Word) (s : State) : State :=
  match s.rxStage.get i with
  | none => s
  | some m =>
    let old := s.mb.get i
    let data := match m.frame with
      | .data _ bytes => receivedData bytes pad0 pad1
      | .remote _ => (old.d0, old.d1)
    { s.setMailbox i
        { cs := receivedCs old.cs m.frame m.ts srr dlc, idw := idWord m.frame.id prio, d0 := data.1, d1 := data.2 } with
      rxStage := put s.rxStage i (some { m with written := true }) }

/-- RX_END(i): the frame is complete (48_peripheral_agent.md R217). -/
def rxEndEffect (i : Fin 16) (s : State) : State :=
  match s.rxStage.get i with
  | none => s
  | some m =>
    { (s.setCs i (withCode (s.mb.get i).cs (encodeState (.rx m.final false)))).flagRaised i with
      rxStage := put s.rxStage i none }

/-- ANSWER_HAVOC(i): all four words take any values and the flag is set (48_peripheral_agent.md R222). -/
def answerHavocEffect (i : Fin 16) (words : Mailbox) (s : State) : State := (s.setMailbox i words).flagRaised i

/-- BUS_ERROR(i): CODE takes any pattern and the flag may be set (48_peripheral_agent.md R223). -/
def busErrorEffect (i : Fin 16) (code : BitVec 4) (setFlag : Bool) (s : State) : State :=
  let s := s.setCs i (withCode (s.mb.get i).cs code)
  if setFlag then s.flagRaised i else s

/-- LATE_TX(i): a frame already on the bus completes anyway (48_peripheral_agent.md R224). -/
def lateTxEffect (i : Fin 16) (s : State) : State := { s.flagRaised i with lateTx := put s.lateTx i false }

/-- LATE_DROP(i): it does not (48_peripheral_agent.md R224). -/
def lateDropEffect (i : Fin 16) (s : State) : State := { s with lateTx := put s.lateTx i false }

/-- SOFTRST_DONE: the registers take unspecified values but for the bits R225 fixes, and the hidden mailbox state is cleared;
mailbox RAM is unchanged (48_peripheral_agent.md R225). The lock is released, too: R225 does not list it, and the state that a soft
reset leaves by 70_reset_and_hazards.md R270 and 10_state.md R39 has no lock (DEDUCED, log 22). -/
def softRstDoneEffect (mcr ctrl1 iflag rxmgmask : Word) (s : State) : State :=
  { s with
    mcr := mcrAfterSoftReset s.mcr mcr
    ctrl1 := ctrl1
    iflag := iflag
    rxmgmask := rxmgmask
    lockedMb := none
    abortReq := Vector.replicate 16 false
    lateTx := Vector.replicate 16 false
    rxStage := Vector.replicate 16 none }

/-- What a peripheral step does when it is enabled (48_peripheral_agent.md R212 to R225). -/
def effect (e : Event) (s : State) : State :=
  match e with
  | .txComplete i ts => txCompleteEffect i ts s
  | .abortResolve i sent ts => abortResolveEffect i sent ts s
  | .rxBegin i f ts => rxBeginEffect i f ts s
  | .rxWrite i prio srr dlc pad0 pad1 => rxWriteEffect i prio srr dlc pad0 pad1 s
  | .rxEnd i => rxEndEffect i s
  | .answerHavoc i words => answerHavocEffect i words s
  | .busError i code setFlag => busErrorEffect i code setFlag s
  | .lateTx i => lateTxEffect i s
  | .lateDrop i => lateDropEffect i s
  | .lpmEnter => { s with mcr := s.mcr ||| bitAt true 20 }
  | .lpmExit => { s with mcr := clearBit s.mcr 20 }
  | .frzEnter => { s with mcr := s.mcr ||| bitAt true 24 }
  | .frzExit => { s with mcr := clearBit s.mcr 24 }
  | .softRstDone m c f r => softRstDoneEffect m c f r s

/-- One scheduled step: taken if enabled, else it does not happen (assumption log 2). -/
def takeEvent (s : State) (e : Event) : State := if enabled e s then effect e s else s

/-- The peripheral's steps at one point between two accesses of the block: the next entry of the schedule, in order; none once
the schedule is used up (00_scope.md R9, 48_peripheral_agent.md R211, R226). -/
def gap (s : State) : State :=
  match s.schedule with
  | [] => s
  | es :: rest => es.foldl takeEvent { s with schedule := rest }

/-- The hidden effects of a block CS write of `v` into mailbox `i`, before the word is stored (48_peripheral_agent.md R227). -/
def csWriteHidden (i : Fin 16) (v : Word) (s : State) : State :=
  let old := s.codeAt i
  let new := codeOf v
  let pending := old == 0b1100#4 || s.abortReq.get i
  { s with
    abortReq := put s.abortReq i (new == 0b1001#4 && pending)
    lateTx :=
      if s.running && pending && new != 0b1100#4 && new != 0b1001#4 then put s.lateTx i true else s.lateTx
    rxStage := put s.rxStage i none }

end Sys2Proof.Machine
end

