-- ==== Sys2Proof/Machine/Ops.lean ====
section
/-! DEFINITION. The shared operations: the register window and the block's accesses (20_memory.md R60 to R68, 00_scope.md R8, R9),
the result of a piece of pseudocode, raising an error (60_exceptions.md R240), and issuing an operation (R251). -/

namespace Sys2Proof.Machine

/-- What a piece of an operation's pseudocode comes to. -/
inductive Res (α : Type) where
  /-- It goes on, with a value. -/
  | ok (a : α) (s : State)
  /-- `raise e` (60_exceptions.md R240): every access before it has happened, none after it (R243). -/
  | err (e : Err) (s : State)
  /-- It spins: the last re-read did not meet the exit condition. -/
  | wait (p : SpinPos) (s : State)
  /-- Refused behaviour (60_exceptions.md R251). -/
  | refused (r : Refusal)

/-- One piece of pseudocode after another: an error, a spin or a refusal of the first ends the whole. -/
def Res.bind {α β : Type} (r : Res α) (f : α → State → Res β) : Res β :=
  match r with
  | .ok a s => f a s
  | .err e s => .err e s
  | .wait p s => .wait p s
  | .refused r => .refused r

/-- `raise e` (60_exceptions.md R240): the operation's result is the error. It is no trap: no state is saved, no mode changes, no
handler runs and no access is undone (R243, R245), so this one operation is all there is to taking an error and there is no
return from it. -/
def raise {α : Type} (e : Err) (s : State) : Res α := .err e s

/-! ### The address map (20_memory.md R61) -/

/-- CAN_BASE, a multiple of 4 (log 9). -/
def canBase (p : Config.Params) : Word := p.canBaseWord ++ (0 : BitVec 2)

/-- The offset of a register (20_memory.md R61, 42_mailbox_store.md R140). -/
def regOffset : Reg → Word
  | .mcr => 0x000
  | .ctrl1 => 0x004
  | .timer => 0x008
  | .rxmgmask => 0x010
  | .iflag1 => 0x030
  | .mb i w => BitVec.ofNat 32 (0x080 + 16 * i.val + 4 * w.val)

/-- `REG(name)` and `MB(i, w)`: the address of a register (00_scope.md R8). Addresses are 32 bits wide (20_memory.md R60). -/
def regAddr (p : Config.Params) (r : Reg) : Word := canBase p + regOffset r

/-- The register at an offset of the window, for an offset that is a multiple of 4 (20_memory.md R61). -/
def regAtOffset (o : Nat) : Option Reg :=
  if o = 0x000 then some .mcr
  else if o = 0x004 then some .ctrl1
  else if o = 0x008 then some .timer
  else if o = 0x010 then some .rxmgmask
  else if o = 0x030 then some .iflag1
  else if h : 0x080 ≤ o ∧ o < 0x180 then
    some (.mb ⟨(o - 0x080) / 16, by omega⟩ ⟨(o - 0x080) / 4 % 4, Nat.mod_lt _ (by decide)⟩)
  else none

/-- The register an address selects, if it is in the map. -/
def regAt (p : Config.Params) (addr : Word) : Option Reg := regAtOffset (addr - canBase p).toNat

/-! ### The value of a register, and one access -/

/-- Word `w` of a mailbox (10_state.md R23). -/
def Mailbox.word (m : Mailbox) (w : Fin 4) : Word :=
  match w with
  | 0 => m.cs
  | 1 => m.idw
  | 2 => m.d0
  | 3 => m.d1

/-- A mailbox with word `w` replaced. -/
def Mailbox.setWord (m : Mailbox) (w : Fin 4) (v : Word) : Mailbox :=
  match w with
  | 0 => { m with cs := v }
  | 1 => { m with idw := v }
  | 2 => { m with d0 := v }
  | 3 => { m with d1 := v }

/-- The current value of a register, without any side effect; bits 31:16 of TIMER read as 0 (10_state.md R29). -/
def peekReg (r : Reg) (s : State) : Word :=
  match r with
  | .mcr => s.mcr
  | .ctrl1 => s.ctrl1
  | .timer => s.timer.setWidth 32
  | .rxmgmask => s.rxmgmask
  | .iflag1 => s.iflag
  | .mb i w => (s.mb.get i).word w

/-- An access recorded (log 6). -/
def State.logged (s : State) (a : Access) : State := { s with accesses := s.accesses ++ [a] }

/-- A TIMER read draws a value, and releases the mailbox lock (48_peripheral_agent.md R220, 20_memory.md R65). -/
def State.drawTimer (s : State) : State :=
  { s with timer := Config.freeTimer s.draws, draws := s.draws + 1, lockedMb := none }

/-- The side effect of a read: TIMER draws and unlocks, a CS word locks its mailbox, every other read has none
(20_memory.md R65). -/
def readEffect (r : Reg) (s : State) : State :=
  match r with
  | .timer => s.drawTimer
  | .mb i w => if w = 0 then { s with lockedMb := some i } else s
  | .mcr | .ctrl1 | .rxmgmask | .iflag1 => s

/-- One read: the side effect, the value, the record of it. -/
def doRead (r : Reg) (s : State) : Res Word :=
  let t := readEffect r s
  .ok (peekReg r t) (t.logged (.read r (peekReg r t)))

/-- The effect of a write (20_memory.md R66): IFLAG1 is write-1-to-clear, a CS write has the hidden effects of
48_peripheral_agent.md R227, MCR keeps its read-only bits, every other word is stored. -/
def writeEffect (r : Reg) (v : Word) (s : State) : State :=
  match r with
  | .mcr => { s with mcr := mcrWrite s.mcr v }
  | .ctrl1 => { s with ctrl1 := v }
  | .timer => s
  | .rxmgmask => { s with rxmgmask := v }
  | .iflag1 => { s with iflag := iflagWrite s.iflag v }
  | .mb i w =>
    let s' := if w = 0 then csWriteHidden i v s else s
    s'.setMailbox i ((s.mb.get i).setWord w v)

/-- One write, with the record of it. TIMER is never written and has no write effect (10_state.md R29). -/
def doWrite (r : Reg) (v : Word) (s : State) : Res Unit :=
  match r with
  | .timer => .refused .timerWrite
  | _ => .ok () ((writeEffect r v s).logged (.write r v))

/-- The checks of an access before it is made, then the peripheral's steps of the gap before it, then the access
(20_memory.md R62, R64; 60_exceptions.md R251, R252; 00_scope.md R9). -/
def access {α : Type} (addr : Word) (bytes : Nat) (f : Reg → State → Res α) (s : State) : Res α :=
  if !s.params.accessPermitted then .refused .accessNotPermitted
  else if bytes ≠ 4 ∨ addr.extractLsb' 0 2 ≠ 0#2 then .refused .notAlignedWord
  else match regAt s.params addr with
    | none => .refused .outsideWindow
    | some r => f r (gap s)

/-- `MemRead(addr, n)` of 00_scope.md R8, for any address and width. -/
def memRead (addr : Word) (bytes : Nat) (s : State) : Res Word := access addr bytes doRead s

/-- `MemWrite(addr, n, v)` of 00_scope.md R8, for any address and width. -/
def memWrite (addr : Word) (bytes : Nat) (v : Word) (s : State) : Res Unit :=
  access addr bytes (fun r s => doWrite r v s) s

/-- `MemRead(REG(name), 4)` (00_scope.md R8). -/
def readReg (r : Reg) (s : State) : Res Word := memRead (regAddr s.params r) 4 s

/-- `MemWrite(REG(name), 4, v)` (00_scope.md R8). -/
def writeReg (r : Reg) (v : Word) (s : State) : Res Unit := memWrite (regAddr s.params r) 4 v s

/-- A read whose value is not used, `_ <- MemRead(REG(TIMER), 4)`: it releases the mailbox lock (70_reset_and_hazards.md R280). -/
def unlock (s : State) : Res Unit := (readReg .timer s).bind fun _ s => .ok () s

/-- `spin_check(n)`: has a spin that has re-read n times reached SPIN_BOUND (42_mailbox_store.md R140)? -/
def spinExpired (p : Config.Params) (n : Nat) : Bool :=
  match p.spinBound with
  | none => false
  | some b => decide (n ≥ b)

/-- `f` for each mailbox of a list, in order. -/
def forEach (l : List (Fin 16)) (f : Fin 16 → State → Res Unit) (s : State) : Res Unit :=
  match l with
  | [] => .ok () s
  | i :: rest => (f i s).bind fun _ s => forEach rest f s

/-- An index operand: IDX of 16 or more raises IndexOutOfRange before any access (60_exceptions.md R241, R244). -/
def withIndex {α : Type} (idx : BitVec 8) (f : Fin 16 → State → Res α) (s : State) : Res α :=
  if h : idx.toNat < 16 then f ⟨idx.toNat, h⟩ s else raise (.indexOutOfRange idx) s

/-! ### An operation's beginning and end -/

/-- An operation begins: no access of its own yet, no result yet. -/
def State.started (s : State) : State := { s with accesses := [], result := none }

/-- An operation ends with a result for its caller (60_exceptions.md R240). An error ends it as a
value does: nothing else changes. -/
def State.finished (s : State) (r : Result) : State := { s with result := some r, block := .idle }

/-- An operation stays in its spin (60_exceptions.md R250). -/
def State.suspended (s : State) (p : SpinPos) : State := { s with block := .spinning p }

/-- How an operation's pseudocode ends the step. -/
def finish (r : Res Value) : Host.Outcome State Fault Refusal :=
  match r with
  | .ok v s => .next (s.finished (.ok v))
  | .err e s => .next (s.finished (.err e))
  | .wait p s => .next (s.suspended p)
  | .refused r => .refused r

/-- An operation is issued: refused while another is in progress (20_memory.md R73, 60_exceptions.md R251). -/
def issue (body : State → Res Value) (s : State) : Host.Outcome State Fault Refusal :=
  match s.block with
  | .idle => finish (body s.started)
  | .spinning _ => .refused .operationInProgress

/-- `Ok(())`. -/
def returnUnit (r : Res Unit) : Res Value := r.bind fun _ s => .ok .unit s

/-- The result of an illegal command word, before any access (30_encoding.md R83, 60_exceptions.md R241). -/
def execIllegal (w : Word) (s : State) : Host.Outcome State Fault Refusal :=
  issue (fun s => raise (.illegalCommand w) s) s

end Sys2Proof.Machine
end

