-- ==== Sys2Proof/Machine/BitTiming.lean ====
section
/-! DEFINITION. The bit-timing calculator: BTCALC (40_bit_timing.md R100 to R111). All arithmetic is on unbounded naturals (R108);
each result is narrowed to its field's width at the end. -/

namespace Sys2Proof.Machine

/-- `select_source` (40_bit_timing.md R101). -/
def selectSource (sel : ClockSource) (clocks : ClockInfo) : Except Err Nat :=
  match sel with
  | .sys => .ok clocks.coreHz
  | .soscdiv2 =>
    match clocks.soscdiv2Hz with
    | some f => .ok f
    | none => .error .clockSourceDisabled

/-- (pseg2, rjw) for a number of quanta, by the disjoint ranges of 40_bit_timing.md R106. -/
def seg2Table (tqs : Nat) : Option (Nat × Nat) :=
  if 8 ≤ tqs ∧ tqs < 10 then some (1, 1)
  else if 10 ≤ tqs ∧ tqs < 15 then some (3, 2)
  else if 15 ≤ tqs ∧ tqs < 20 then some (6, 2)
  else if 20 ≤ tqs ∧ tqs < 26 then some (7, 3)
  else none

/-- pseg1 (40_bit_timing.md R107). -/
def pseg1Of (tqs pseg2 : Nat) : Nat := (tqs - (pseg2 + 1)) / 2 - 1

/-- propseg (40_bit_timing.md R107). -/
def propsegOf (tqs pseg2 pseg1 : Nat) : Nat := tqs - (pseg2 + 1) - (pseg1 + 1) - 2

/-- The fields for a prescaler and a number of quanta (40_bit_timing.md R106, R107). -/
def timingOf (presdiv tqs : Nat) : Except Err Timing :=
  match seg2Table tqs with
  | none => .error (.bitTimingUnsupported tqs)
  | some (pseg2, rjw) =>
    let pseg1 := pseg1Of tqs pseg2
    let propseg := propsegOf tqs pseg2 pseg1
    .ok { presdiv := BitVec.ofNat 8 presdiv, propseg := BitVec.ofNat 3 propseg, pseg1 := BitVec.ofNat 3 pseg1,
          pseg2 := BitVec.ofNat 3 pseg2, rjw := BitVec.ofNat 2 rjw, tqs := tqs }

/-- BTCALC's pseudocode after the source clock is known, the checks in the order of 40_bit_timing.md R100. -/
def timingFor (source target : Nat) : Except Err Timing :=
  if target = 0 then .error .settingsError
  else if source % target ≠ 0 then .error .settingsError
  else if source / target < 5 then .error .settingsError
  else if source / target / 25 > 255 then .error (.prescalerOverflow (source / target / 25))
  else timingOf (source / target / 25) (source / (source / target / 25 + 1) / target)

/-- BTCALC(sel, clocks, target) (40_bit_timing.md R100). -/
def bitTiming (sel : ClockSource) (clocks : ClockInfo) (target : Nat) : Except Err Timing :=
  match selectSource sel clocks with
  | .error e => .error e
  | .ok source => timingFor source target

/-- The calculator on an operand record: an ill-formed record is refused before every other check (30_encoding.md R86). -/
def checkedTiming (o : BtcalcOperands) : Except Err Timing :=
  match btcalcOperands o with
  | none => .error .invalidOperand
  | some (sel, clocks, target) => bitTiming sel clocks target

/-- A pure computation as a piece of pseudocode: it makes no access. -/
def ofExcept {α : Type} (r : Except Err α) (s : State) : Res α :=
  match r with
  | .ok a => .ok a s
  | .error e => raise e s

/-- BTCALC (40_bit_timing.md R100). -/
def execBtcalc (s : State) : Host.Outcome State Fault Refusal :=
  issue (fun s => (ofExcept (checkedTiming s.operands.btcalc) s).bind fun t s => .ok (.timing t) s) s

end Sys2Proof.Machine
end

