-- ==== Sys2Proof/Machine/Codec.lean ====
section
/-! DEFINITION. The mailbox state codec: ENCODE and DECODE (41_codec.md R121, R122). -/

namespace Sys2Proof.Machine

/-- ENCODE (41_codec.md R121): total, no register access. -/
def execEncode (s : State) : Host.Outcome State Fault Refusal :=
  issue (fun s => .ok (.code (encodeState (encodeOperand s.operands.encode))) s) s

/-- Decoding a code, a reserved pattern being an explicit error (41_codec.md R122, R124). -/
def decodeOrRaise (p : BitVec 4) (s : State) : Res BufferState :=
  match decodeState p with
  | some st => .ok st s
  | none => raise (.decodeError p) s

/-- DECODE (41_codec.md R122). -/
def execDecode (code : BitVec 4) (s : State) : Host.Outcome State Fault Refusal :=
  issue (fun s => (decodeOrRaise code s).bind fun st s => .ok (.state st) s) s

end Sys2Proof.Machine
end

