-- ==== Sys2Proof/Machine/Mailbox.lean ====
section
/-! DEFINITION. The mailbox store: MBWRITE, MBREAD, MBPEEK, MBINACT, MBABORT (42_mailbox_store.md R145 to R149). -/

namespace Sys2Proof.Machine

/-- The payload writes of MBWRITE: both data words for a data frame, none for a remote frame (42_mailbox_store.md R145). -/
def writePayload (i : Fin 16) (frame : Frame) (s : State) : Res Unit :=
  match frame with
  | .data _ bytes =>
    (writeReg (.mb i 2) (pack bytes).1 s).bind fun _ s => writeReg (.mb i 3) (pack bytes).2 s
  | .remote _ => .ok () s

/-- The writes of MBWRITE, in their order: flag clear first, CS word last (42_mailbox_store.md R145, 70_reset_and_hazards.md R278,
R279). -/
def writeFrame (i : Fin 16) (hdr : Header) (frame : Frame) (s : State) : Res Unit :=
  (writeReg .iflag1 (flagMask i) s).bind fun _ s =>
  (writeReg (.mb i 1) (idWord frame.id hdr.prio) s).bind fun _ s =>
  (writePayload i frame s).bind fun _ s =>
  writeReg (.mb i 0) (csWord hdr frame) s

/-- MBWRITE(i, hdr, frame) for an index in range (42_mailbox_store.md R145). -/
def mbwrite (i : Fin 16) (hdr : Header) (frame : Frame) (s : State) : Res Unit :=
  if hdr.code.role ≠ roleOfIndex i ∨ hdr.code.isBusy then raise (.invalidHeaderCode hdr.code) s
  else
    (readReg (.mb i 0) s).bind fun cs s =>
    (decodeOrRaise (codeOf cs) s).bind fun cur s =>
    if writable cur then writeFrame i hdr frame s else raise (.busyMailboxWriteAttempted i) s

/-- MBWRITE: an ill-formed record comes before an index out of range (60_exceptions.md R244). -/
def execMbwrite (idx : BitVec 8) (s : State) : Host.Outcome State Fault Refusal :=
  issue (fun s =>
    match mbwriteOperands s.operands.mbwrite with
    | none => raise .invalidOperand s
    | some (hdr, frame) => returnUnit (withIndex idx (fun i s => mbwrite i hdr frame s) s)) s

/-- MBREAD once its CS word is not busy: the other words, the acknowledge, the mandatory TIMER read (42_mailbox_store.md R146). -/
def readRest (i : Fin 16) (cs : Word) (st : BufferState) (s : State) : Res (Header × Frame) :=
  (readReg (.mb i 1) s).bind fun idw s =>
  (readReg (.mb i 2) s).bind fun w2 s =>
  (readReg (.mb i 3) s).bind fun w3 s =>
  (writeReg .iflag1 (flagMask i) s).bind fun _ s =>
  (unlock s).bind fun _ s =>
  .ok (unpack cs st idw w2 w3) s

/-- MBREAD(i) from the top of its loop, `n` busy re-reads having been made (42_mailbox_store.md R146). On a decode failure and on
Timeout it releases the lock first (D20, 60_exceptions.md R249) and acknowledges no flag. That holds of MBABORT's re-read, too, although
60_exceptions.md R243's table has flag i acknowledged after an error from it: 92_eei_decisions.md D20 settles the decode failure, and
for Timeout the model follows the pseudocode of R146 (DEDUCED, log 24). -/
def readFrom (c : ReadCaller) (i : Fin 16) (n : Nat) (s : State) : Res (Header × Frame) :=
  (readReg (.mb i 0) s).bind fun cs s =>
  match decodeState (codeOf cs) with
  | none => (unlock s).bind fun _ s => raise (.decodeError (codeOf cs)) s
  | some st =>
    if !st.isBusy then readRest i cs st s
    else if spinExpired s.params (n + 1) then (unlock s).bind fun _ s => raise .timeout s
    else .wait (.readBusy c i (n + 1)) s

/-- MBREAD's result (42_mailbox_store.md R146). -/
def returnMessage (r : Res (Header × Frame)) : Res Value := r.bind fun m s => .ok (.message m.1 m.2) s

/-- MBREAD (42_mailbox_store.md R146). -/
def execMbread (idx : BitVec 8) (s : State) : Host.Outcome State Fault Refusal :=
  issue (fun s => returnMessage (withIndex idx (fun i s => readFrom .mbread i 0 s) s)) s

/-- MBPEEK(i): four word reads and the TIMER read, then the decode; no acknowledge and no busy spin (42_mailbox_store.md R147). -/
def mbpeek (i : Fin 16) (s : State) : Res (Header × Frame) :=
  (readReg (.mb i 0) s).bind fun cs s =>
  (readReg (.mb i 1) s).bind fun idw s =>
  (readReg (.mb i 2) s).bind fun w2 s =>
  (readReg (.mb i 3) s).bind fun w3 s =>
  (unlock s).bind fun _ s =>
  (decodeOrRaise (codeOf cs) s).bind fun st s =>
  .ok (unpack cs st idw w2 w3) s

/-- MBPEEK (42_mailbox_store.md R147). -/
def execMbpeek (idx : BitVec 8) (s : State) : Host.Outcome State Fault Refusal :=
  issue (fun s => returnMessage (withIndex idx mbpeek s)) s

/-- The CS word MBINACT writes over `cs`: the Inactive code of the role of the code found there, every other field 0; all of it 0
where the code is undecodable (42_mailbox_store.md R148, 90_conflicts.md C9). -/
def inactiveCs (cs : Word) : Word :=
  match decodeState (codeOf cs) with
  | none => 0
  | some st => (encodeState (inactiveOf st.role)).setWidth 32 <<< 24

/-- MBINACT(i) (42_mailbox_store.md R148). -/
def mbinact (i : Fin 16) (s : State) : Res Unit :=
  (readReg (.mb i 0) s).bind fun cs s => writeReg (.mb i 0) (inactiveCs cs) s

/-- MBINACT (42_mailbox_store.md R148). -/
def execMbinact (idx : BitVec 8) (s : State) : Host.Outcome State Fault Refusal :=
  issue (fun s => returnUnit (withIndex idx mbinact s)) s

/-- MBABORT after its re-read: Abort returns the frame, Inactive nothing, any other code is surfaced as an error
(42_mailbox_store.md R149). -/
def abortOutcome (r : Res (Header × Frame)) : Res (Option Frame) :=
  r.bind fun m s =>
    match m.1.code with
    | .tx .abort => .ok (some m.2) s
    | .tx .inactive => .ok none s
    | other => raise (.unreachableState other) s

/-- MBABORT(i) from the top of its flag spin, `n` re-reads having been made (42_mailbox_store.md R149). -/
def abortFrom (c : AbortCaller) (i : Fin 16) (n : Nat) (s : State) : Res (Option Frame) :=
  (readReg .iflag1 s).bind fun f s =>
  if flagSet f i then abortOutcome (readFrom (.abort c) i 0 s)
  else if spinExpired s.params (n + 1) then raise .timeout s
  else .wait (.abortFlag c i (n + 1)) s

/-- MBABORT(i): only a pending mailbox; flag clear, Abort code over the word read, then the spin (42_mailbox_store.md R149). -/
def mbabort (c : AbortCaller) (i : Fin 16) (s : State) : Res (Option Frame) :=
  (readReg (.mb i 0) s).bind fun cs s =>
  (decodeOrRaise (codeOf cs) s).bind fun st s =>
  if st ≠ .tx .dataRemote then raise (.invalidAbort st) s
  else
    (writeReg .iflag1 (flagMask i) s).bind fun _ s =>
    (writeReg (.mb i 0) (withCode cs 0b1001) s).bind fun _ s =>
    abortFrom c i 0 s

/-- The result of MBABORT and of TX: `Ok(some f)` or `Ok(none)`. -/
def returnMaybeFrame (r : Res (Option Frame)) : Res Value := r.bind fun f s => .ok (.maybeFrame f) s

/-- MBABORT (42_mailbox_store.md R149). -/
def execMbabort (idx : BitVec 8) (s : State) : Host.Outcome State Fault Refusal :=
  issue (fun s => returnMaybeFrame (withIndex idx (mbabort .mbabort) s)) s

end Sys2Proof.Machine
end

