-- ==== Sys2Proof/Machine/Boot.lean ====
section
/-! DEFINITION. INIT, the boot sequence at the block's boundary (70_reset_and_hazards.md R271 to R277). It is no command word; the
caller requests it. Its polls are spins, so the pieces between two polls are definitions of their own, written last first. -/

namespace Sys2Proof.Machine

/-- A read-modify-write of a register: two accesses, between which the peripheral may step (20_memory.md R67). -/
def modifyReg (r : Reg) (f : Word → Word) (s : State) : Res Unit :=
  (readReg r s).bind fun v s => writeReg r (f v) s

/-- The exit condition of a poll on the MCR value read (70_reset_and_hazards.md R272, R273). -/
def pollDone (p : BootPoll) (m : Word) : Bool :=
  match p with
  | .disable1 | .disable2 => lpmAck m
  | .enable1 | .enable2 => !lpmAck m
  | .softReset => !softRst m
  | .enterFreeze => frzAck m
  | .leaveFreeze => !frzAck m

/-- `poll until P` from the top of its loop, `n` re-reads having been made, then `k` (70_reset_and_hazards.md R273). -/
def poll (p : BootPoll) (n : Nat) (bt : Timing) (st : Settings) (k : State → Res Unit) (s : State) : Res Unit :=
  (readReg .mcr s).bind fun m s =>
  if pollDone p m then k s
  else if spinExpired s.params (n + 1) then raise .timeout s
  else .wait (.boot p (n + 1) bt st) s

/-- The MCR write of disable() (70_reset_and_hazards.md R273). -/
def requestDisable (s : State) : Res Unit := modifyReg .mcr (fun m => m ||| bitAt true 31) s
/-- The MCR write of enable() (70_reset_and_hazards.md R273). -/
def requestEnable (s : State) : Res Unit := modifyReg .mcr (fun m => clearBit m 31) s
/-- The MCR write of enter_freeze() (70_reset_and_hazards.md R273). -/
def requestFreeze (s : State) : Res Unit := modifyReg .mcr (fun m => m ||| bitAt true 30 ||| bitAt true 28) s
/-- The MCR write of leave_freeze() (70_reset_and_hazards.md R273). -/
def releaseFreeze (s : State) : Res Unit := modifyReg .mcr (fun m => m &&& ~~~(bitAt true 30 ||| bitAt true 28)) s

/-- CTRL1 with CLKSRC set as the settings say (70_reset_and_hazards.md R271, R274). -/
def ctrl1ClockSource (c : Word) (src : ClockSource) : Word := clearBit c 13 ||| bitAt (clksrc src) 13

/-- CTRL1 with the timing fields and LPB (70_reset_and_hazards.md R271). -/
def ctrl1Configured (c : Word) (bt : Timing) (st : Settings) : Word :=
  (c &&& ~~~0xFFFF1007) ||| ctrl1Timing bt st.loopbackMode

/-- MCR with the settings' fields: WRNEN, SRXDIS, IRMQ, MAXMB = 15 and RFEN = 0 (70_reset_and_hazards.md R271, R274). -/
def mcrConfigured (m : Word) (st : Settings) : Word :=
  (m &&& ~~~0x0023007F &&& ~~~(bitAt true 29)) ||| bitAt st.warningInterrupt 21 ||| bitAt (!st.selfReception) 17 |||
    bitAt st.individualMasking 16 ||| 15

/-- The header of the pre-seed (70_reset_and_hazards.md R275). -/
def seedHdr (code : BufferState) : Header := { esi := false, code := code, timestamp := 0, prio := 0 }

/-- The frame of the pre-seed, `DataFrame(Base(0), [])` (70_reset_and_hazards.md R275). -/
def seedFrame : Frame := .data (.base 0) []

/-- preseed(): every mailbox inactive, then every mailbox its index's role, then the lock released
(70_reset_and_hazards.md R275). -/
def preseed (s : State) : Res Unit :=
  (forEach (txIdx ++ rxIdx) mbinact s).bind fun _ s =>
  (forEach txIdx (fun i s => mbwrite i (seedHdr (.tx .inactive)) seedFrame s) s).bind fun _ s =>
  (forEach rxIdx (fun i s => mbwrite i (seedHdr (.rx .empty false)) seedFrame s) s).bind fun _ s =>
  unlock s

/-- INIT inside the freeze window: the settings, the masks, the pre-seed (70_reset_and_hazards.md R271, R282). -/
def configure (bt : Timing) (st : Settings) (s : State) : Res Unit :=
  (modifyReg .ctrl1 (fun c => ctrl1Configured c bt st) s).bind fun _ s =>
  (modifyReg .mcr (fun m => mcrConfigured m st) s).bind fun _ s =>
  (writeReg .rxmgmask 0x00000000 s).bind fun _ s =>
  (writeReg .iflag1 0x0000FFFF s).bind fun _ s =>
  preseed s

/-- INIT after leave_freeze(): `Ok(())` (70_reset_and_hazards.md R271). -/
def afterLeaveFreeze (s : State) : Res Unit := .ok () s

/-- INIT after enter_freeze(). -/
def afterEnterFreeze (bt : Timing) (st : Settings) (s : State) : Res Unit :=
  (configure bt st s).bind fun _ s =>
  (releaseFreeze s).bind fun _ s => poll .leaveFreeze 0 bt st afterLeaveFreeze s

/-- INIT after its enable(). -/
def afterEnable2 (bt : Timing) (st : Settings) (s : State) : Res Unit :=
  (requestFreeze s).bind fun _ s => poll .enterFreeze 0 bt st (afterEnterFreeze bt st) s

/-- INIT after reset(): the clock source is chosen while disabled, then enable() (70_reset_and_hazards.md R271). -/
def afterDisable2 (bt : Timing) (st : Settings) (s : State) : Res Unit :=
  (modifyReg .ctrl1 (fun c => ctrl1ClockSource c st.clockSource) s).bind fun _ s =>
  (requestEnable s).bind fun _ s => poll .enable2 0 bt st (afterEnable2 bt st) s

/-- reset() after its soft-reset poll: disable again (70_reset_and_hazards.md R272). -/
def afterSoftReset (bt : Timing) (st : Settings) (s : State) : Res Unit :=
  (requestDisable s).bind fun _ s => poll .disable2 0 bt st (afterDisable2 bt st) s

/-- reset() after its enable(): assert soft reset (70_reset_and_hazards.md R272). -/
def afterEnable1 (bt : Timing) (st : Settings) (s : State) : Res Unit :=
  (modifyReg .mcr (fun m => m ||| bitAt true 25) s).bind fun _ s => poll .softReset 0 bt st (afterSoftReset bt st) s

/-- reset() after its first disable(): force the clock source, then enable() (70_reset_and_hazards.md R272). -/
def afterDisable1 (bt : Timing) (st : Settings) (s : State) : Res Unit :=
  (modifyReg .ctrl1 (fun c => c ||| bitAt true 13) s).bind fun _ s =>
  (requestEnable s).bind fun _ s => poll .enable1 0 bt st (afterEnable1 bt st) s

/-- What INIT does once a poll has met its condition. -/
def afterPoll (p : BootPoll) (bt : Timing) (st : Settings) : State → Res Unit :=
  match p with
  | .disable1 => afterDisable1 bt st
  | .enable1 => afterEnable1 bt st
  | .softReset => afterSoftReset bt st
  | .disable2 => afterDisable2 bt st
  | .enable2 => afterEnable2 bt st
  | .enterFreeze => afterEnterFreeze bt st
  | .leaveFreeze => afterLeaveFreeze

/-- INIT(settings, clocks): the timing errors and rx_fifo come before the first access (70_reset_and_hazards.md R271, R277;
assumption log 13 for an ill-formed record). -/
def boot (st : Settings) (clocks : ClockInfo) (s : State) : Res Unit :=
  (ofExcept (checkedTiming { sel := st.clockSource, clocks := clocks, targetHz := st.canFrequency }) s).bind fun bt s =>
  if st.rxFifo then raise .unsupportedSetting s
  else (requestDisable s).bind fun _ s => poll .disable1 0 bt st (afterDisable1 bt st) s

/-- INIT as an operation of the block (70_reset_and_hazards.md R271). -/
def execInit (st : Settings) (clocks : ClockInfo) (s : State) : Host.Outcome State Fault Refusal :=
  issue (fun s => returnUnit (boot st clocks s)) s

end Sys2Proof.Machine
end

