-- ==== Sys2Proof/Machine/Caller.lean ====
section
/-! DEFINITION. The caller: what it can ask for, as lines of the spec's own assembler (30_encoding.md R87, R88), and the requests
each line stands for. -/

namespace Sys2Proof.Machine

/-- An assembler line, as abstract syntax (30_encoding.md R87), and the pseudo-instructions (R88). Its text form is not parsed
(assumption log 18). -/
inductive Asm where
  | btcalc (o : BtcalcOperands)
  | encode (state : BufferState)
  | decode (code : BitVec 4)
  | mbwrite (idx : BitVec 8) (header : RawHeader) (frame : RawFrame)
  | mbread (idx : BitVec 8)
  | mbpeek (idx : BitVec 8)
  | mbinact (idx : BitVec 8)
  | mbabort (idx : BitVec 8)
  | txq (frame : RawFrame)
  | tx (frame : RawFrame)
  | rx
  | mbarmRx (idx : BitVec 8)
  | mbarmTx (idx : BitVec 8)
  | txwait (frame : RawFrame)
  | rxwait
  deriving DecidableEq, Repr

/-- The request for a command that takes no operand record. -/
def plainRequest (i : Instr) : Request := .command (encode i) .reset

/-- The request for MBWRITE with its record. -/
def mbwriteRequest (idx : BitVec 8) (header : RawHeader) (frame : RawFrame) : Request :=
  .command (encode (.mbwrite idx)) { OperandPort.reset with mbwrite := { header := header, frame := frame } }

/-- A frame operand on the operand port. -/
def framePort (frame : RawFrame) : OperandPort := { OperandPort.reset with frame := { frame := frame } }

/-- `mbinact i` then the pre-seed write with the given code (30_encoding.md R88). -/
def armRequests (idx : BitVec 8) (code : BufferState) : List Request :=
  [plainRequest (.mbinact idx), mbwriteRequest idx (seedHdr code).spell seedFrame.spell]

/-- A line's requests: one command word with its operand record (30_encoding.md R87), or the expansion of a
pseudo-instruction (R88). -/
def Asm.requests : Asm → List Request
  | .btcalc o => [.command (Sys2Proof.encode .btcalc) { OperandPort.reset with btcalc := o }]
  | .encode st => [.command (Sys2Proof.encode .encode) { OperandPort.reset with encode := { state := st } }]
  | .decode code => [plainRequest (.decode code)]
  | .mbwrite idx h f => [mbwriteRequest idx h f]
  | .mbread idx => [plainRequest (.mbread idx)]
  | .mbpeek idx => [plainRequest (.mbpeek idx)]
  | .mbinact idx => [plainRequest (.mbinact idx)]
  | .mbabort idx => [plainRequest (.mbabort idx)]
  | .txq f => [.command (Sys2Proof.encode .txquick) (framePort f)]
  | .tx f => [.command (Sys2Proof.encode .tx) (framePort f)]
  | .rx => [plainRequest .rx]
  | .mbarmRx idx => armRequests idx (.rx .empty false)
  | .mbarmTx idx => armRequests idx (.tx .inactive)
  | .txwait f => [.commandUntilFree (Sys2Proof.encode .txquick) (framePort f)]
  | .rxwait => [.commandUntilFree (Sys2Proof.encode .rx) .reset]

/-- The caller's loop: the request is put back when the result was `Err(BufferExhausted)` (30_encoding.md R88). -/
def requeue (req : Request) (o : Host.Outcome State Fault Refusal) : Host.Outcome State Fault Refusal :=
  match o with
  | .next t =>
    if t.result = some (.err .bufferExhausted) then .next { t with requests := req :: t.requests } else .next t
  | .fault f => .fault f
  | .refused r => .refused r

end Sys2Proof.Machine
end

