-- ==== Sys2Proof/Machine/Arbiter.lean ====
section
/-! DEFINITION. The transmit arbiter: TXQUICK and TX (43_transmit_arbiter.md R180 to R187). -/

namespace Sys2Proof.Machine

/-- `TX_HDR` (43_transmit_arbiter.md R180). -/
def txHdr : Header := { esi := false, code := .tx .dataRemote, timestamp := 0, prio := 0 }

/-- `read_code(i)` (43_transmit_arbiter.md R180). -/
def readCode (i : Fin 16) (s : State) : Res BufferState :=
  (readReg (.mb i 0) s).bind fun cs s => decodeOrRaise (codeOf cs) s

/-- TXQUICK's forward pass over a list of mailboxes: the first found Tx(Inactive) is written; a write that fails Busy lets the
pass go on; the pass never restarts (43_transmit_arbiter.md R181). -/
def txquickScan (frame : Frame) (l : List (Fin 16)) (s : State) : Res Unit :=
  match l with
  | [] => raise .bufferExhausted s
  | i :: rest =>
    (readCode i s).bind fun st s =>
    if st = .tx .inactive then
      match mbwrite i txHdr frame s with
      | .err (.busyMailboxWriteAttempted _) s => txquickScan frame rest s
      | r => r
    else txquickScan frame rest s

/-- TXQUICK (43_transmit_arbiter.md R181). -/
def execTxquick (s : State) : Host.Outcome State Fault Refusal :=
  issue (fun s =>
    match frameOperand s.operands.frame with
    | none => raise .invalidOperand s
    | some frame => returnUnit (txquickScan frame txIdx s)) s

/-- TX's snapshot: MBPEEK of each mailbox of a list, in order (43_transmit_arbiter.md R182). -/
def peekAll (l : List (Fin 16)) (s : State) : Res (List (Fin 16 × Header × Frame)) :=
  match l with
  | [] => .ok [] s
  | i :: rest =>
    (mbpeek i s).bind fun m s => (peekAll rest s).bind fun ms s => .ok ((i, m.1, m.2) :: ms) s

/-- The first mailbox of a snapshot found Tx(Inactive) (43_transmit_arbiter.md R182). -/
def firstInactive (snap : List (Fin 16 × Header × Frame)) : Option (Fin 16) :=
  (snap.find? fun m => m.2.1.code == .tx .inactive).map fun m => m.1

/-- One step of the scan for the worst pending mailbox: strictly larger numbers only, so the lowest index wins a tie
(43_transmit_arbiter.md R183). -/
def worsePending (w : Option (Fin 16 × Frame)) (m : Fin 16 × Header × Frame) : Option (Fin 16 × Frame) :=
  if m.2.1.code = .tx .dataRemote then
    match w with
    | none => some (m.1, m.2.2)
    | some (_, f) => if m.2.2.id.num > f.id.num then some (m.1, m.2.2) else w
  else w

/-- `worst_pending(h, f)`, with the frame held there (43_transmit_arbiter.md R183). -/
def worstPending (snap : List (Fin 16 × Header × Frame)) : Option (Fin 16 × Frame) := snap.foldl worsePending none

/-- TX after its MBABORT of mailbox `w`: the new frame is installed there and the evicted one returned
(43_transmit_arbiter.md R182, R185). -/
def installAfterAbort (frame : Frame) (w : Fin 16) (r : Res (Option Frame)) : Res (Option Frame) :=
  r.bind fun ev s => (mbwrite w txHdr frame s).bind fun _ s => .ok ev s

/-- TX's decision on its snapshot (43_transmit_arbiter.md R182, R184). -/
def txDecide (frame : Frame) (snap : List (Fin 16 × Header × Frame)) (s : State) : Res (Option Frame) :=
  match firstInactive snap with
  | some i => (mbwrite i txHdr frame s).bind fun _ s => .ok none s
  | none =>
    match worstPending snap with
    | none => raise .bufferExhausted s
    | some (w, held) =>
      if frame.id.num < held.id.num then installAfterAbort frame w (mbabort (.tx frame) w s)
      else raise .bufferExhausted s

/-- TX(frame) (43_transmit_arbiter.md R182). -/
def transmit (frame : Frame) (s : State) : Res (Option Frame) :=
  (peekAll txIdx s).bind fun snap s => txDecide frame snap s

/-- TX (43_transmit_arbiter.md R182). -/
def execTx (s : State) : Host.Outcome State Fault Refusal :=
  issue (fun s =>
    match frameOperand s.operands.frame with
    | none => raise .invalidOperand s
    | some frame => returnMaybeFrame (transmit frame s)) s

end Sys2Proof.Machine
end

