-- ==== Sys2Proof/Machine/Scanner.lean ====
section
/-! DEFINITION. The receive scanner: RX (44_receive_scanner.md R200). -/

namespace Sys2Proof.Machine

/-- The first receive mailbox whose flag is set in the snapshot `f` (44_receive_scanner.md R200). -/
def firstFlagged (f : Word) : Option (Fin 16) := rxIdx.find? fun i => flagSet f i

/-- RX's result: the frame only; the header is discarded (44_receive_scanner.md R200). -/
def returnFrame (r : Res (Header × Frame)) : Res Value := r.bind fun m s => .ok (.frame m.2) s

/-- RX(): one snapshot of the flags, then MBREAD of the first receive mailbox flagged in it (44_receive_scanner.md R200). -/
def receive (s : State) : Res (Header × Frame) :=
  (readReg .iflag1 s).bind fun f s =>
  match firstFlagged f with
  | some i => readFrom .rx i 0 s
  | none => raise .bufferExhausted s

/-- RX (44_receive_scanner.md R200). -/
def execRx (s : State) : Host.Outcome State Fault Refusal :=
  issue (fun s => returnFrame (receive s)) s

end Sys2Proof.Machine
end

