-- ==== Sys2Proof/Machine/Resume.lean ====
section
/-! DEFINITION. Going on from a spin: one more re-read, then the rest of the operation if its exit condition holds
(60_exceptions.md R249, R250; assumption log 4). -/

namespace Sys2Proof.Machine

/-- MBABORT's caller once the abort has ended: MBABORT itself returns the outcome, TX installs its frame. -/
def continueAbort (c : AbortCaller) (i : Fin 16) (r : Res (Option Frame)) : Res (Option Frame) :=
  match c with
  | .mbabort => r
  | .tx frame => installAfterAbort frame i r

/-- The operation that spins at `p`, from the top of that spin's loop. -/
def resumeFrom (p : SpinPos) (s : State) : Res Value :=
  match p with
  | .readBusy .mbread i n => returnMessage (readFrom .mbread i n s)
  | .readBusy .rx i n => returnFrame (readFrom .rx i n s)
  | .readBusy (.abort c) i n => returnMaybeFrame (continueAbort c i (abortOutcome (readFrom (.abort c) i n s)))
  | .abortFlag c i n => returnMaybeFrame (continueAbort c i (abortFrom c i n s))
  | .boot b n bt st => returnUnit (poll b n bt st (afterPoll b bt st) s)

/-- One more iteration of the spin at `p`. -/
def resume (p : SpinPos) (s : State) : Host.Outcome State Fault Refusal := finish (resumeFrom p s)

end Sys2Proof.Machine
end

