-- ==== Sys2Proof/Machine/Dispatch.lean ====
section
/-! DEFINITION. The meaning of each operation: one arm per constructor of `Instr`. -/

namespace Sys2Proof.Machine

def exec (i : Instr) (s : State) : Host.Outcome State Fault Refusal :=
  match i with
  | .btcalc => Sys2Proof.Machine.execBtcalc s
  | .encode => Sys2Proof.Machine.execEncode s
  | .decode code => Sys2Proof.Machine.execDecode code s
  | .mbwrite idx => Sys2Proof.Machine.execMbwrite idx s
  | .mbread idx => Sys2Proof.Machine.execMbread idx s
  | .mbpeek idx => Sys2Proof.Machine.execMbpeek idx s
  | .mbinact idx => Sys2Proof.Machine.execMbinact idx s
  | .mbabort idx => Sys2Proof.Machine.execMbabort idx s
  | .txquick => Sys2Proof.Machine.execTxquick s
  | .tx => Sys2Proof.Machine.execTx s
  | .rx => Sys2Proof.Machine.execRx s

end Sys2Proof.Machine
end

