-- ==== Sys2Proof/Machine/Run.lean ====
section
/-! DEFINITION. Running the caller's next request: a command word decoded and executed with its operand records, or INIT. -/

namespace Sys2Proof.Machine

/-- The state in which a command is run: its operand records on the port. -/
def State.withOperands (s : State) (ops : OperandPort) : State := { s with operands := ops }

/-- A command word is decoded and run; an illegal word ends with `Err(IllegalCommand)` (30_encoding.md R83). -/
def runWord (w : Word) (s : State) : Host.Outcome State Fault Refusal :=
  match decodeWord w with
  | .ok i => exec i s
  | .error _ => execIllegal w s

/-- The caller's next request is taken (00_scope.md R2): no operation is issued before the last one has ended. -/
def runRequest (req : Request) (s : State) : Host.Outcome State Fault Refusal :=
  match req with
  | .init st clocks => execInit st clocks s
  | .command w ops => runWord w (s.withOperands ops)
  | .commandUntilFree w ops => requeue req (runWord w (s.withOperands ops))

end Sys2Proof.Machine
end

