-- ==== Sys2Proof/Machine/Step.lean ====
section
/-! DEFINITION. One step of the machine: an operation of the block, or one more iteration of a spin, or, when the caller asks for
nothing, a turn of the peripheral (assumption logs 4, 5, 15). -/

namespace Sys2Proof.Machine

/-- One step. -/
def step (s : State) : Host.Outcome State Fault Refusal :=
  match s.block with
  | .spinning p => resume p s
  | .idle =>
    match s.requests with
    | [] => .next (gap s)
    | req :: rest => runRequest req { s with requests := rest }

/-- The machine with the command word `w` as the caller's next request, the operand records being those already on the port:
the very next step runs it (assumption log 16). -/
def State.withFetchWord (s : State) (nbits w : Nat) : State :=
  { s with block := .idle, requests := .command (wordOfBits nbits w) s.operands :: s.requests }

end Sys2Proof.Machine
end

