-- ==== Sys2Proof/Safety.lean ====
section
/-! DEFINITION. What counts as a safe run and the terms the statements use: a block ready for an operation, a peripheral that
takes no step, the launch state, and the invariants of the hidden state and of the mailbox roles. -/

namespace Sys2Proof.Machine

/-- The block can run an operation: none is in progress and its accesses are permitted (60_exceptions.md R251, R252). -/
def State.ready (s : State) : Prop := s.block = .idle ∧ s.params.accessPermitted = true

/-- The peripheral takes no step at any coming point: a legal run, since no step is forced (48_peripheral_agent.md R226). -/
def State.quiet (s : State) : Prop := ∀ es ∈ s.schedule, es = []

/-- Every scheduled peripheral step is a mode step (48_peripheral_agent.md R225). -/
def State.onlyModeSteps (s : State) : Prop := ∀ es ∈ s.schedule, ∀ e ∈ es, e.isMode = true

/-- The steps that finish a reception in progress (48_peripheral_agent.md R216, R217). -/
def Event.finishesReception : Event → Bool
  | .rxWrite _ _ _ _ _ _ | .rxEnd _ => true
  | _ => false

/-- `t` differs from `s` in no register but those listed; reading every other word of the window gives what it gave. -/
def sameRegsBut (changed : List Reg) (s t : State) : Prop := ∀ r, r ∉ changed → peekReg r t = peekReg r s

/-- The four words of mailbox `i`. -/
def mailboxRegs (i : Fin 16) : List Reg := [.mb i 0, .mb i 1, .mb i 2, .mb i 3]

/-- The hidden mailbox state is the same but in mailbox `i`. -/
def sameHiddenBut (i : Fin 16) (s t : State) : Prop :=
  ∀ j, j ≠ i → t.abortReq.get j = s.abortReq.get j ∧ t.lateTx.get j = s.lateTx.get j ∧ t.rxStage.get j = s.rxStage.get j

/-- The caller's and the environment's side of the state, apart from the schedule, the draws and what an operation reports. -/
def sameOutside (s t : State) : Prop :=
  t.requests = s.requests ∧ t.operands = s.operands ∧ t.params = s.params

/-! ### What an operation leaves, as the statements say it -/

/-- Mailbox `m` after a frame is written into it: a data frame writes both data words, a remote frame neither
(42_mailbox_store.md R145). -/
def written (m : Mailbox) (hdr : Header) (f : Frame) : Mailbox where
  cs := csWord hdr f
  idw := idWord f.id hdr.prio
  d0 := match f with | .data _ bytes => (pack bytes).1 | .remote _ => m.d0
  d1 := match f with | .data _ bytes => (pack bytes).2 | .remote _ => m.d1

/-- The accesses that write a frame into mailbox `i`, in their order: flag clear, ID word, data words of a data frame, CS word
(42_mailbox_store.md R145). -/
def writeLog (i : Fin 16) (hdr : Header) (f : Frame) : List Access :=
  [.write .iflag1 (flagMask i), .write (.mb i 1) (idWord f.id hdr.prio)] ++
    (match f with
      | .data _ bytes => [.write (.mb i 2) (pack bytes).1, .write (.mb i 3) (pack bytes).2]
      | .remote _ => []) ++
    [.write (.mb i 0) (csWord hdr f)]

/-- The TIMER read that draws the n-th value. -/
def timerLog (n : Nat) : Access := .read .timer ((Config.freeTimer n).setWidth 32)

/-- The accesses of MBPEEK on a mailbox `i` that holds `m`, when `n` timer values have been drawn before
(42_mailbox_store.md R147). -/
def peekLog (n : Nat) (i : Fin 16) (m : Mailbox) : List Access :=
  [.read (.mb i 0) m.cs, .read (.mb i 1) m.idw, .read (.mb i 2) m.d0, .read (.mb i 3) m.d1, timerLog n]

/-- The accesses of MBREAD on a mailbox `i` that holds `m` and is not busy (42_mailbox_store.md R146). -/
def readLog (n : Nat) (i : Fin 16) (m : Mailbox) : List Access :=
  [.read (.mb i 0) m.cs, .read (.mb i 1) m.idw, .read (.mb i 2) m.d0, .read (.mb i 3) m.d1,
    .write .iflag1 (flagMask i), timerLog n]

/-- The accesses of the eight peeks of TX (43_transmit_arbiter.md R182). -/
def snapshotLog (s : State) : List Access := txIdx.flatMap fun i => peekLog (s.draws + i.val) i (s.mb.get i)

/-- The frame mailbox `i` holds: its words as `unpack` reads them (42_mailbox_store.md R144). -/
def State.heldFrame (s : State) (i : Fin 16) : Frame :=
  (unpack (s.mb.get i).cs (.tx .dataRemote) (s.mb.get i).idw (s.mb.get i).d0 (s.mb.get i).d1).2

/-- The buffer state of mailbox `i`, if its code is decodable (41_codec.md R122). -/
def State.stateAt (s : State) (i : Fin 16) : Option BufferState := decodeState (s.codeAt i)

/-- TX of the frame `f` evicts mailbox `w`: no transmit mailbox is Tx(Inactive) and all are decodable, `w` is the worst pending one
(the largest identifier held, the lowest index on ties), and `f` is numerically smaller (43_transmit_arbiter.md R182 to R184). -/
structure EvictionTarget (s : State) (w : Fin 16) (f : Frame) : Prop where
  transmit : w.val < 8
  none_inactive : ∀ j : Fin 16, j.val < 8 → ∃ st, s.stateAt j = some st ∧ st ≠ .tx .inactive
  pending : s.codeAt w = 0b1100#4
  largest : ∀ j : Fin 16, j.val < 8 → s.codeAt j = 0b1100#4 → (s.heldFrame j).id.num ≤ (s.heldFrame w).id.num
  lowest : ∀ j : Fin 16, j < w → s.codeAt j = 0b1100#4 → (s.heldFrame j).id.num < (s.heldFrame w).id.num
  smaller : f.id.num < (s.heldFrame w).id.num

/-- The abort of mailbox `i` for `c` that spins at `p` finds its exit condition in the flag spin, or has found it and is in the
re-read; `found` is the flag read in the first case, nothing in the second (42_mailbox_store.md R149). -/
def abortEnds (p : SpinPos) (c : AbortCaller) (i : Fin 16) (found : List Access) (s : State) : Prop :=
  (∃ n, p = .abortFlag c i n ∧ flagSet s.iflag i = true ∧ found = [.read .iflag1 s.iflag]) ∨
    ∃ n, p = .readBusy (.abort c) i n ∧ found = []

/-- The counter of a spin (60_exceptions.md R249). -/
def SpinPos.count : SpinPos → Nat
  | .readBusy _ _ n => n
  | .abortFlag _ _ n => n
  | .boot _ n _ _ => n

/-- The same spin with one more re-read counted (60_exceptions.md R249). -/
def SpinPos.again : SpinPos → SpinPos
  | .readBusy c i n => .readBusy c i (n + 1)
  | .abortFlag c i n => .abortFlag c i (n + 1)
  | .boot b n bt st => .boot b (n + 1) bt st

/-- The exit condition of the spin at `p` does not hold: the mailbox is busy, the flag is clear, the acknowledgment is not there
(60_exceptions.md R249, R250). -/
def stuckAt (p : SpinPos) (s : State) : Prop :=
  match p with
  | .readBusy _ i _ => ∃ st, s.stateAt i = some st ∧ st.isBusy = true
  | .abortFlag _ i _ => flagSet s.iflag i = false
  | .boot b _ _ _ => pollDone b s.mcr = false

/-- The re-read of the spin at `p`, with the value it finds. -/
def spinRead (p : SpinPos) (s : State) : Access :=
  match p with
  | .readBusy _ i _ => .read (.mb i 0) (s.mb.get i).cs
  | .abortFlag _ _ _ => .read .iflag1 s.iflag
  | .boot _ _ _ _ => .read .mcr s.mcr

/-- A spin that times out in MBREAD reads TIMER first (42_mailbox_store.md R146, 60_exceptions.md R249). -/
def timeoutLog (p : SpinPos) (s : State) : List Access :=
  match p with
  | .readBusy _ _ _ => [timerLog s.draws]
  | .abortFlag _ _ _ => []
  | .boot _ _ _ _ => []

/-- What an operation of the caller may write: the completion flags and mailbox words, never MCR, CTRL1, RXMGMASK or TIMER. -/
def Access.mailboxOnly : Access → Prop
  | .read _ _ => True
  | .write .iflag1 _ => True
  | .write (.mb _ _) _ => True
  | .write .mcr _ => False
  | .write .ctrl1 _ => False
  | .write .timer _ => False
  | .write .rxmgmask _ => False

/-! ### Invariants -/

/-- A busy receive code that a reception puts into a mailbox (48_peripheral_agent.md R215). -/
def receivingCode (code : BitVec 4) : Prop := code = 0b0101#4 ∨ code = 0b0011#4 ∨ code = 0b0111#4

/-- The hidden state agrees with the mailboxes and with the mode (10_state.md R34, R36; 48_peripheral_agent.md R214, R215, R225,
R227): an unresolved abort request sits on an Abort code, a reception in progress on a busy receive code, at most one reception
is in progress, and none in Disabled or Frozen. With HAVOC_ON_BUS_ERROR a bus error may change any code (R223), so the invariant
is for runs without it. -/
structure HiddenInv (s : State) : Prop where
  no_havoc : s.params.havocOnBusError = false
  abort_code : ∀ i, s.abortReq.get i = true → s.codeAt i = 0b1001#4
  stage_code : ∀ i, (s.rxStage.get i).isSome = true → receivingCode (s.codeAt i)
  one_stage : ∀ i j, (s.rxStage.get i).isSome = true → (s.rxStage.get j).isSome = true → i = j
  stage_mode : ∀ i, (s.rxStage.get i).isSome = true → lpmAck s.mcr = false ∧ frzAck s.mcr = false
  stage_final : ∀ i m, s.rxStage.get i = some m → m.final = .full ∨ m.final = .overrun

/-- A code that mailbox `i` may hold while it keeps its role and holds no remote-answer code: Inactive, Abort or DataRemote in a
transmit mailbox; Inactive, Empty, Full or Overrun, busy or not, in a receive mailbox (10_state.md R27). -/
def roleCode (i : Fin 16) (code : BitVec 4) : Prop :=
  if i.val < 8 then code = 0b1000#4 ∨ code = 0b1001#4 ∨ code = 0b1100#4
  else code.getLsbD 3 = false

/-- The operand records of a command ask for no remote-answer code. -/
def noAnswerHeader (ops : OperandPort) : Prop := answerCode (encodeState ops.mbwrite.header.code) = false

/-- The caller never asks for a remote-answer code. -/
def Request.noAnswer : Request → Prop
  | .init _ _ => True
  | .command _ ops => noAnswerHeader ops
  | .commandUntilFree _ ops => noAnswerHeader ops

/-- The role invariant of 10_state.md R27 for runs without bus errors (48_peripheral_agent.md R223) in which the caller never
writes a remote-answer code (R222): every mailbox keeps its index's role, and receptions are in receive mailboxes. -/
structure RoleInv (s : State) : Prop where
  no_havoc : s.params.havocOnBusError = false
  role_code : ∀ i, roleCode i (s.codeAt i)
  stage_role : ∀ i m, s.rxStage.get i = some m → (m.final = .full ∨ m.final = .overrun) ∧ 8 ≤ i.val
  operands : noAnswerHeader s.operands
  requests : ∀ r ∈ s.requests, r.noAnswer

/-- The launch state of 70_reset_and_hazards.md R276, for INIT's timing and settings. -/
structure Launch (bt : Timing) (st : Settings) (s : State) : Prop where
  tx_mailboxes : ∀ i : Fin 16, i.val < 8 → s.mb.get i = { cs := 0x08400000, idw := 0, d0 := 0, d1 := 0 }
  rx_mailboxes : ∀ i : Fin 16, 8 ≤ i.val → s.mb.get i = { cs := 0x04400000, idw := 0, d0 := 0, d1 := 0 }
  flags : s.iflag.extractLsb' 0 16 = 0
  mcr_named : mdis s.mcr = false ∧ frz s.mcr = false ∧ halt s.mcr = false ∧ softRst s.mcr = false ∧
    frzAck s.mcr = false ∧ lpmAck s.mcr = false ∧ s.mcr.getLsbD 29 = false
  mcr_settings : s.mcr.getLsbD 21 = st.warningInterrupt ∧ s.mcr.getLsbD 17 = !st.selfReception ∧
    s.mcr.getLsbD 16 = st.individualMasking
  mcr_maxmb : s.mcr.extractLsb' 0 7 = 15
  ctrl1_timing : s.ctrl1.extractLsb' 24 8 = bt.presdiv ∧ s.ctrl1.extractLsb' 22 2 = bt.rjw ∧
    s.ctrl1.extractLsb' 19 3 = bt.pseg1 ∧ s.ctrl1.extractLsb' 16 3 = bt.pseg2 ∧ s.ctrl1.extractLsb' 0 3 = bt.propseg
  ctrl1_settings : s.ctrl1.getLsbD 12 = st.loopbackMode ∧ s.ctrl1.getLsbD 13 = clksrc st.clockSource
  mask : s.rxmgmask = 0
  lock : s.lockedMb = none
  hidden : ∀ i, s.abortReq.get i = false ∧ s.lateTx.get i = false ∧ s.rxStage.get i = none
  mode : s.mode = .running

/-- A run of `k` steps of the machine, stopping at a refusal. -/
def runSteps (k : Nat) (s : State) : Host.Outcome State Fault Refusal := Sys2Proof.core.run k s

/-- A run is safe as long as no step of it is refused (60_exceptions.md R251): every admitted run is one. -/
def SafeFor (k : Nat) (s : State) : Prop := ∃ t, runSteps k s = .next t

end Sys2Proof.Machine
end

