-- ==== Sys2Proof/Certificates/Slice0/Obligations.lean ====
section
/-! DEFINITION. The statements for the provers. Each cites the rule of spec/ it formalises. Where an equation gives the next state
as the old one with some fields replaced, every field not named is unchanged: that equation is the operation's frame, too. -/

open Sys2Proof Sys2Proof.Machine

/-! ### Command words -/

/-- 30_encoding.md R81, R82 with the words of 95_test_vectors.md L2: command words written out from the spec decode to the
operations they stand for, reserved ones to none. -/
def Obligations.SampleWordsDecode : Prop :=
  decodeWord 0x00000000 = .ok .btcalc ∧ decodeWord 0x00000001 = .ok .encode ∧ decodeWord 0x0000E002 = .ok (.decode 0b1110) ∧
  decodeWord 0x00000103 = .ok (.mbwrite 16) ∧ decodeWord 0x00000104 = .ok (.mbread 16) ∧
  decodeWord 0x00000035 = .ok (.mbpeek 3) ∧ decodeWord 0x000000F6 = .ok (.mbinact 15) ∧
  decodeWord 0x00000037 = .ok (.mbabort 3) ∧ decodeWord 0x00000008 = .ok .txquick ∧ decodeWord 0x00000009 = .ok .tx ∧
  decodeWord 0x0000000A = .ok .rx ∧ decodeWord 0x0000000B = .error .reservedOp ∧
  decodeWord 0x0001000A = .error .reservedBits ∧ decodeWord 0x00001001 = .error .codeNotZero ∧
  decodeWord 0x0000001A = .error .idxNotZero

/-- 30_encoding.md R81, R82: decoding the encoding of any operation, with every field at every value, gives it back. -/
def Obligations.DecodeInvertsEncode : Prop := ∀ i : Instr, decodeWord (encode i) = .ok i

/-- 30_encoding.md R81, R83: a word that decodes is the encoding of what it decodes to, so each operation has one word. -/
def Obligations.AcceptedWordIsItsEncoding : Prop := ∀ (w : Word) (i : Instr), decodeWord w = .ok i → encode i = w

/-- 30_encoding.md R83: exactly the words the rule lists are illegal, and an illegal word issued by the caller ends at once with
`Err(IllegalCommand)` and no access. -/
def Obligations.IllegalWordsEndAtOnce : Prop :=
  ∀ w : Word,
    let op := (w.extractLsb' 0 4).toNat
    let illegal := 0xB ≤ op ∨ w.extractLsb' 16 16 ≠ 0#16 ∨ (w.extractLsb' 12 4 ≠ 0#4 ∧ op ≠ 0x2) ∨
      (w.extractLsb' 4 8 ≠ 0#8 ∧ ¬ (0x3 ≤ op ∧ op ≤ 0x7));
    ((∃ r, decodeWord w = .error r) ↔ illegal) ∧
    ((∃ i, decodeWord w = .ok i) ↔ ¬ illegal) ∧
    (illegal → ∀ (s : State) (ops : OperandPort) (rest : List Request), s.block = .idle →
      s.requests = .command w ops :: rest →
      step s = .next { s with requests := rest, operands := ops, accesses := [],
                              result := some (.err (.illegalCommand w)) })

/-- spec/opcode_table.json and 30_encoding.md R82: a word matches the mask and match of a row exactly when the decoder reads that
row's operation from it. -/
def Obligations.TableRowsAreWhatTheDecoderAccepts : Prop :=
  ∀ row ∈ opcodeTable, ∀ w : Word, (w &&& row.2.1 = row.2.2 ↔ ∃ i, decodeWord w = .ok i ∧ mnemonic i = row.1)

/-! ### Reset, the register window, one access -/

/-- 10_state.md R39 (what it gives at power-on) and 70_reset_and_hazards.md R270: no lock, no abort request, no late completion, no
reception in progress, no operation and no result; the parameters have the defaults of 00_scope.md R6, and the hidden-state invariant
holds. The rest is the model's choice: R39 leaves the registers open at power-on, so FRZ = HALT = 1 and SOFTRST = 0 are log 1's (the
family's MCR), the empty queue of the caller is log 5's, and the model's own parameter, false as D34 has it, is log 23's. -/
def Obligations.ResetLeavesTheHiddenStateClear : Prop :=
  frz State.reset.mcr = true ∧ halt State.reset.mcr = true ∧ softRst State.reset.mcr = false ∧
  State.reset.lockedMb = none ∧
  (∀ i, State.reset.abortReq.get i = false ∧ State.reset.lateTx.get i = false ∧ State.reset.rxStage.get i = none) ∧
  State.reset.block = .idle ∧ State.reset.result = none ∧ State.reset.requests = [] ∧
  canBase State.reset.params = 0x40024000#32 ∧ State.reset.params.spinBound = none ∧
  State.reset.params.lockBlocksHw = false ∧ State.reset.params.hwTxOrder = .any ∧
  State.reset.params.havocOnBusError = false ∧ State.reset.params.accessPermitted = true ∧
  State.reset.params.rxFinishesUnderRequest = false ∧
  HiddenInv State.reset

/-- 20_memory.md R61: the offsets of the map, and an aligned address selects a register exactly when it is that register's. -/
def Obligations.AddressMapIsOneToOne : Prop :=
  ∀ p : Config.Params,
    regAddr p .mcr = canBase p + 0x000 ∧ regAddr p .ctrl1 = canBase p + 0x004 ∧ regAddr p .timer = canBase p + 0x008 ∧
    regAddr p .rxmgmask = canBase p + 0x010 ∧ regAddr p .iflag1 = canBase p + 0x030 ∧
    (∀ (i : Fin 16) (w : Fin 4), regAddr p (.mb i w) = canBase p + BitVec.ofNat 32 (0x080 + 16 * i.val + 4 * w.val)) ∧
    (∀ (a : Word) (r : Reg), a.extractLsb' 0 2 = 0#2 → (regAt p a = some r ↔ a = regAddr p r))

/-- 20_memory.md R64, 60_exceptions.md R251 and R252: every address the block issues is a multiple of 4; an access that is not an
aligned 32-bit one is refused, and so is every access while ACCESS_PERMITTED is false. That an access outside the map is refused is
the model's choice (log 7): 20_memory.md R61 only puts it outside the model. That CAN_BASE is a multiple of 4 is log 9. -/
def Obligations.MisplacedAccessesAreRefused : Prop :=
  (∀ (p : Config.Params) (r : Reg), (regAddr p r).extractLsb' 0 2 = 0#2) ∧
  ∀ (s : State) (a : Word) (n : Nat) (v : Word),
    (s.params.accessPermitted = false →
      memRead a n s = .refused .accessNotPermitted ∧ memWrite a n v s = .refused .accessNotPermitted) ∧
    (s.params.accessPermitted = true → (n ≠ 4 ∨ a.extractLsb' 0 2 ≠ 0#2) →
      memRead a n s = .refused .notAlignedWord ∧ memWrite a n v s = .refused .notAlignedWord) ∧
    (s.params.accessPermitted = true → n = 4 → a.extractLsb' 0 2 = 0#2 → regAt s.params a = none →
      memRead a n s = .refused .outsideWindow ∧ memWrite a n v s = .refused .outsideWindow)

/-- 20_memory.md R65, for every schedule: a CS read locks its mailbox, a TIMER read draws a value and unlocks, every other read
has no side effect; each returns the current value of its word after the peripheral's turn. -/
def Obligations.ReadSideEffects : Prop :=
  ∀ s : State, s.params.accessPermitted = true →
    (∀ i : Fin 16, readReg (.mb i 0) s =
      .ok ((gap s).mb.get i).cs { gap s with lockedMb := some i,
                                             accesses := s.accesses ++ [.read (.mb i 0) ((gap s).mb.get i).cs] }) ∧
    (readReg .timer s =
      .ok ((Config.freeTimer s.draws).setWidth 32)
        { gap s with timer := Config.freeTimer s.draws, draws := s.draws + 1, lockedMb := none,
                     accesses := s.accesses ++ [timerLog s.draws] }) ∧
    (∀ r : Reg, (r = .iflag1 ∨ r = .mcr ∨ r = .ctrl1 ∨ r = .rxmgmask ∨ ∃ i w, w ≠ 0 ∧ r = .mb i w) →
      readReg r s =
        .ok (peekReg r (gap s)) { gap s with accesses := s.accesses ++ [.read r (peekReg r (gap s))] })

/-- 10_state.md R28 and R30: a write to IFLAG1 clears exactly the flags written 1, a write to MCR leaves FRZACK and LPMACK and
stores every other bit; and, with a peripheral that takes no step, no step of the machine sets a completion flag. That a 0 written to
SOFTRST (bit 25) while a soft reset is pending is stored is the model's choice (log 12). -/
def Obligations.FlagsAreOnlySetByThePeripheral : Prop :=
  (∀ (s : State) (v : Word), s.params.accessPermitted = true → ∃ t,
    writeReg .iflag1 v s = .ok () t ∧ sameRegsBut [.iflag1] (gap s) t ∧
    ∀ k, k < 32 → t.iflag.getLsbD k = ((gap s).iflag.getLsbD k && !v.getLsbD k)) ∧
  (∀ (s : State) (v : Word), s.params.accessPermitted = true → ∃ t,
    writeReg .mcr v s = .ok () t ∧ sameRegsBut [.mcr] (gap s) t ∧
    ∀ k, k < 32 → t.mcr.getLsbD k = if k = 20 ∨ k = 24 then (gap s).mcr.getLsbD k else v.getLsbD k) ∧
  (∀ (s t : State) (k : Nat), s.quiet → step s = .next t → t.iflag.getLsbD k = true → s.iflag.getLsbD k = true)

/-- 48_peripheral_agent.md R227, for every schedule: the hidden effects of a block write to a CS word, and that a write to words 1
to 3 changes only the word written. -/
def Obligations.CsWriteHiddenEffects : Prop :=
  ∀ (s : State) (i : Fin 16) (v : Word), s.params.accessPermitted = true →
    (∃ t, writeReg (.mb i 0) v s = .ok () t ∧
      let g := gap s
      let old := g.codeAt i
      let new := codeOf v
      sameRegsBut [.mb i 0] g t ∧ (t.mb.get i).cs = v ∧ sameHiddenBut i g t ∧ sameOutside g t ∧ t.lockedMb = g.lockedMb ∧
      t.abortReq.get i = (decide (new = 0b1001#4) && (decide (old = 0b1100#4) || g.abortReq.get i)) ∧
      t.lateTx.get i = (g.lateTx.get i || (decide (g.mode = .running) && (decide (old = 0b1100#4) || g.abortReq.get i) &&
        decide (new ≠ 0b1100#4 ∧ new ≠ 0b1001#4))) ∧
      t.rxStage.get i = none ∧
      (new = 0b1100#4 → t.mode = .running → t.params.hwTxOrder = .any → ∀ ts, enabled (.txComplete i ts) t = true)) ∧
    (∀ w : Fin 4, w ≠ 0 → writeReg (.mb i w) v s =
      .ok () { gap s with mb := put (gap s).mb i (((gap s).mb.get i).setWord w v),
                          accesses := s.accesses ++ [.write (.mb i w) v] })

/-! ### The peripheral's steps -/

/-- 48_peripheral_agent.md R210: a bus step happens only while Running; and in Frozen and Disabled no step but SOFTRST_DONE (a mode
step, R225) changes a mailbox word, a flag or the hidden state. Where the model's own parameter is set (log 23; it is false by default),
RX_WRITE and RX_END of a reception in progress may happen in Transitional as well, but in no other mode, and no other bus step may. -/
def Obligations.BusStepsOnlyWhileRunning : Prop :=
  (∀ (s : State) (e : Event), s.mode ≠ .running → e.isMode = false →
    (s.params.rxFinishesUnderRequest = false ∨ e.finishesReception = false) → takeEvent s e = s) ∧
  (∀ (s : State) (e : Event), (s.mode = .frozen ∨ s.mode = .disabled) → e.isMode = false → takeEvent s e = s) ∧
  (∀ (s : State) (e : Event), (s.mode = .frozen ∨ s.mode = .disabled) →
    (∀ m c f r, e ≠ .softRstDone m c f r) →
    (takeEvent s e).mb = s.mb ∧ (takeEvent s e).iflag = s.iflag ∧ (takeEvent s e).lockedMb = s.lockedMb ∧
    (takeEvent s e).abortReq = s.abortReq ∧ (takeEvent s e).lateTx = s.lateTx ∧ (takeEvent s e).rxStage = s.rxStage)

/-- 48_peripheral_agent.md R212 and R213: TX_COMPLETE(i) happens exactly when its guard holds, with the order HW_TX_ORDER asks
for, and sets CODE, TIME_STAMP and the flag of mailbox i and nothing else. -/
def Obligations.TxCompleteStep : Prop :=
  ∀ (s : State) (i : Fin 16) (ts : BitVec 16),
    let t := takeEvent s (.txComplete i ts)
    let arb := fun k : Fin 16 => if (s.mb.get k).cs.getLsbD 21 then ((s.mb.get k).idw.extractLsb' 0 29).toNat
      else ((s.mb.get k).idw.extractLsb' 18 11).toNat * 2 ^ 18
    let guard := s.mode = .running ∧ s.codeAt i = 0b1100#4 ∧
      (s.params.hwTxOrder = .lowestIdFirst →
        ¬ ∃ j, j ≠ i ∧ s.codeAt j = 0b1100#4 ∧ (arb j < arb i ∨ (arb j = arb i ∧ j < i)));
    (¬ guard → t = s) ∧
    (guard →
      t = { s with mb := put s.mb i { s.mb.get i with cs := (t.mb.get i).cs }, iflag := t.iflag } ∧
      (∀ k, k < 32 → (t.mb.get i).cs.getLsbD k =
        if 24 ≤ k ∧ k < 28 then (0b1000#4).getLsbD (k - 24) else if k < 16 then ts.getLsbD k else (s.mb.get i).cs.getLsbD k) ∧
      (∀ k, k < 32 → t.iflag.getLsbD k = (s.iflag.getLsbD k || decide (k = i.val))))

/-- 48_peripheral_agent.md R214: ABORT_RESOLVE(i, sent) happens exactly when its guard holds, with the two outcomes. -/
def Obligations.AbortResolveStep : Prop :=
  ∀ (s : State) (i : Fin 16) (sent : Bool) (ts : BitVec 16),
    let t := takeEvent s (.abortResolve i sent ts)
    let guard := s.mode = .running ∧ s.codeAt i = 0b1001#4 ∧ s.abortReq.get i = true;
    (¬ guard → t = s) ∧
    (guard →
      t = { s with mb := put s.mb i { s.mb.get i with cs := (t.mb.get i).cs }, iflag := t.iflag,
                   abortReq := put s.abortReq i false } ∧
      (sent = false → (t.mb.get i).cs = (s.mb.get i).cs) ∧
      (sent = true → ∀ k, k < 32 → (t.mb.get i).cs.getLsbD k =
        if 24 ≤ k ∧ k < 28 then (0b1000#4).getLsbD (k - 24) else if k < 16 then ts.getLsbD k else (s.mb.get i).cs.getLsbD k) ∧
      (∀ k, k < 32 → t.iflag.getLsbD k = (s.iflag.getLsbD k || decide (k = i.val))))

/-- 48_peripheral_agent.md R215, R216, R217 with 42_mailbox_store.md R144: RX_BEGIN, RX_WRITE and RX_END of a frame, with every
choice the rules leave open, put that very frame into the mailbox: it unpacks to the frame, the capture time and the PRIO bits
written; the code is Full after Empty and Overrun otherwise, the flag is set, and every other mailbox and flag is as before. So it
does where MCR changes on the way: `v` and `w` are MCR's values at the two later steps, Running or, where the model's own parameter
lets a reception finish under a request (log 23), any without an acknowledgment. A request in `w` is not acknowledged before RX_END and
can be after it (48_peripheral_agent.md R225, 70_reset_and_hazards.md R287). -/
def Obligations.ReceptionDeliversTheFrame : Prop :=
  ∀ (s : State) (i : Fin 16) (f : Frame) (ts : BitVec 16) (prio : BitVec 3) (srr : Bool) (dlc : BitVec 4) (p0 p1 v w : Word),
    enabled (.rxBegin i f ts) s = true → lpmAck v = false → frzAck v = false → lpmAck w = false → frzAck w = false →
    (s.params.rxFinishesUnderRequest = true ∨ (modeOf v = .running ∧ modeOf w = .running)) →
    let begun : State := { takeEvent s (.rxBegin i f ts) with mcr := v }
    let stored : State := { takeEvent begun (.rxWrite i prio srr dlc p0 p1) with mcr := w }
    let t := takeEvent stored (.rxEnd i)
    let r := if s.codeAt i = 0b0100#4 then RxState.full else RxState.overrun
    t.stateAt i = some (.rx r false) ∧
    unpack (t.mb.get i).cs (.rx r false) (t.mb.get i).idw (t.mb.get i).d0 (t.mb.get i).d1 =
      ({ esi := false, code := .rx r false, timestamp := ts, prio := prio }, f) ∧
    (f.isRemote = true → (t.mb.get i).d0 = (s.mb.get i).d0 ∧ (t.mb.get i).d1 = (s.mb.get i).d1) ∧
    t = { s with mcr := w, mb := put s.mb i (t.mb.get i), iflag := t.iflag, rxStage := put s.rxStage i none } ∧
    (∀ k, k < 32 → t.iflag.getLsbD k = (s.iflag.getLsbD k || decide (k = i.val))) ∧
    takeEvent stored .lpmEnter = stored ∧ takeEvent stored .frzEnter = stored ∧
    (mdis w = true → (takeEvent t .lpmEnter).mode = .disabled) ∧
    (mdis w = false → frz w = true → halt w = true → (takeEvent t .frzEnter).mode = .frozen)

/-- 48_peripheral_agent.md R219: under LOCK_BLOCKS_HW no reception begins into the locked mailbox; without it the lock has no
effect on any step: two states that differ in the lock alone differ in no more after it. No step but SOFTRST_DONE changes the lock
(that this one does is log 22). -/
def Obligations.LockHoldsOffReceptions : Prop :=
  (∀ (s : State) (i : Fin 16) (f : Frame) (ts : BitVec 16), s.params.lockBlocksHw = true → s.lockedMb = some i →
    takeEvent s (.rxBegin i f ts) = s) ∧
  (∀ (s : State) (l : Option (Fin 16)) (e : Event), s.params.lockBlocksHw = false →
    takeEvent { s with lockedMb := l } e =
      { takeEvent s e with lockedMb := (takeEvent { s with lockedMb := l } e).lockedMb }) ∧
  (∀ (s : State) (e : Event), (∀ m c f r, e ≠ .softRstDone m c f r) → (takeEvent s e).lockedMb = s.lockedMb)

/-- 48_peripheral_agent.md R225: when each mode step is enabled and what it does, bit by bit. SOFTRST_DONE leaves no lock, as
70_reset_and_hazards.md R270 and 10_state.md R39 say (log 22); that it leaves FRZACK any value is R225's text and log 12. -/
def Obligations.ModeStepsAcknowledgeRequests : Prop :=
  ∀ s : State,
    let noStage := ∀ j, s.rxStage.get j = none
    let bit := fun k => s.mcr.getLsbD k
    let sets := fun (e : Event) (k : Nat) (b : Bool) =>
      takeEvent s e = { s with mcr := (takeEvent s e).mcr } ∧
      ∀ j, j < 32 → (takeEvent s e).mcr.getLsbD j = if j = k then b else bit j;
    (if bit 31 = true ∧ bit 20 = false ∧ noStage then sets .lpmEnter 20 true else takeEvent s .lpmEnter = s) ∧
    (if bit 31 = false ∧ bit 20 = true then sets .lpmExit 20 false else takeEvent s .lpmExit = s) ∧
    (if bit 20 = false ∧ bit 31 = false ∧ bit 30 = true ∧ bit 28 = true ∧ bit 24 = false ∧ noStage then sets .frzEnter 24 true
      else takeEvent s .frzEnter = s) ∧
    (if bit 24 = true ∧ (bit 30 = false ∨ bit 28 = false ∨ bit 31 = true) then sets .frzExit 24 false
      else takeEvent s .frzExit = s) ∧
    (∀ m c f r : Word,
      let t := takeEvent s (.softRstDone m c f r)
      if bit 25 = true ∧ bit 20 = false then
        t = { s with mcr := t.mcr, ctrl1 := c, iflag := f, rxmgmask := r, lockedMb := none,
                     abortReq := Vector.replicate 16 false, lateTx := Vector.replicate 16 false,
                     rxStage := Vector.replicate 16 none } ∧
        ∀ j, j < 32 → t.mcr.getLsbD j = if j = 31 ∨ j = 20 then bit j else if j = 30 ∨ j = 28 then true
          else if j = 25 then false else m.getLsbD j
      else t = s)

/-- 48_peripheral_agent.md R222, R223 and R224: ANSWER_HAVOC, BUS_ERROR, LATE_TX and LATE_DROP happen exactly when their guards
hold and change only what the rules name. -/
def Obligations.HavocAndLateSteps : Prop :=
  ∀ (s : State) (i : Fin 16),
    (∀ m : Mailbox,
      let guard := s.mode = .running ∧ (s.codeAt i = 0b1110#4 ∨ s.codeAt i = 0b1010#4 ∨ s.codeAt i = 0b1011#4)
      takeEvent s (.answerHavoc i m) =
        if guard then { s with mb := put s.mb i m, iflag := s.iflag ||| 1#32 <<< i.val } else s) ∧
    (∀ (c : BitVec 4) (b : Bool),
      let t := takeEvent s (.busError i c b)
      let guard := s.mode = .running ∧ s.params.havocOnBusError = true;
      (¬ guard → t = s) ∧
      (guard → t = { s with mb := put s.mb i { s.mb.get i with cs := (t.mb.get i).cs },
                            iflag := if b then s.iflag ||| 1#32 <<< i.val else s.iflag } ∧
        ∀ k, k < 32 → (t.mb.get i).cs.getLsbD k =
          if 24 ≤ k ∧ k < 28 then c.getLsbD (k - 24) else (s.mb.get i).cs.getLsbD k)) ∧
    (takeEvent s (.lateTx i) =
      if s.mode = .running ∧ s.lateTx.get i = true
        then { s with iflag := s.iflag ||| 1#32 <<< i.val, lateTx := put s.lateTx i false } else s) ∧
    (takeEvent s (.lateDrop i) =
      if s.mode = .running ∧ s.lateTx.get i = true then { s with lateTx := put s.lateTx i false } else s)

/-! ### The codec and the bit-timing calculator -/

/-- 41_codec.md R123: the codec laws, for all 14 states and all 16 patterns. -/
def Obligations.CodecLaws : Prop :=
  (∀ st : BufferState, decodeState (encodeState st) = some st) ∧
  (∀ (p : BitVec 4) (st : BufferState), decodeState p = some st → encodeState st = p) ∧
  (∀ p : BitVec 4, decodeState p = none ↔ p = 0b1101#4 ∨ p = 0b1111#4)

/-- 41_codec.md R121 with the table of R120: ENCODE returns the code of the state and changes nothing else. -/
def Obligations.EncodeReturnsTheCode : Prop :=
  ∀ s : State, s.block = .idle →
    let st := s.operands.encode.state
    ∃ c : BitVec 4,
      exec .encode s = .next { s with accesses := [], result := some (.ok (.code c)) } ∧
      (st = .tx .inactive → c = 0b1000#4) ∧ (st = .tx .abort → c = 0b1001#4) ∧ (st = .tx .dataRemote → c = 0b1100#4) ∧
      (st = .tx .tanswer → c = 0b1110#4) ∧
      (∀ b : Bool, let bit := if b then 0b0001#4 else 0b0000#4;
        (st = .rx .inactive b → c = 0b0000#4 ||| bit) ∧ (st = .rx .empty b → c = 0b0100#4 ||| bit) ∧
        (st = .rx .full b → c = 0b0010#4 ||| bit) ∧ (st = .rx .overrun b → c = 0b0110#4 ||| bit) ∧
        (st = .rx .ranswer b → c = 0b1010#4 ||| bit)) ∧
      c ≠ 0b1101#4 ∧ c ≠ 0b1111#4

/-- 41_codec.md R122 with the table of R120: DECODE returns the state of the pattern's row, DecodeError on the two reserved
patterns, and changes nothing else. -/
def Obligations.DecodeReturnsTheState : Prop :=
  ∀ (s : State) (p : BitVec 4), s.block = .idle →
    let row := fun (q : BitVec 4) (st : BufferState) =>
      p = q → exec (.decode p) s = .next { s with accesses := [], result := some (.ok (.state st)) }
    row 0b0000 (.rx .inactive false) ∧ row 0b0001 (.rx .inactive true) ∧ row 0b0010 (.rx .full false) ∧
    row 0b0011 (.rx .full true) ∧ row 0b0100 (.rx .empty false) ∧ row 0b0101 (.rx .empty true) ∧
    row 0b0110 (.rx .overrun false) ∧ row 0b0111 (.rx .overrun true) ∧ row 0b1000 (.tx .inactive) ∧
    row 0b1001 (.tx .abort) ∧ row 0b1010 (.rx .ranswer false) ∧ row 0b1011 (.rx .ranswer true) ∧
    row 0b1100 (.tx .dataRemote) ∧ row 0b1110 (.tx .tanswer) ∧
    (p = 0b1101#4 ∨ p = 0b1111#4 →
      exec (.decode p) s = .next { s with accesses := [], result := some (.err (.decodeError p)) })

/-- 40_bit_timing.md R106 with R107 and R111: for every prescaler, the fields of every tqs in [8, 26), row by row, their quanta
adding up to tqs; and every other tqs raises BitTimingUnsupported. -/
def Obligations.BitTimingTable : Prop :=
  (∀ presdiv : Nat,
    ∀ row ∈ ([(8, 1, 1, 2, 1), (9, 1, 1, 2, 2), (10, 3, 2, 2, 1), (11, 3, 2, 2, 2), (12, 3, 2, 3, 2), (13, 3, 2, 3, 3),
      (14, 3, 2, 4, 3), (15, 6, 2, 3, 2), (16, 6, 2, 3, 3), (17, 6, 2, 4, 3), (18, 6, 2, 4, 4), (19, 6, 2, 5, 4),
      (20, 7, 3, 5, 4), (21, 7, 3, 5, 5), (22, 7, 3, 6, 5), (23, 7, 3, 6, 6), (24, 7, 3, 7, 6), (25, 7, 3, 7, 7)] :
      List (Nat × Nat × Nat × Nat × Nat)),
    timingOf presdiv row.1 =
      .ok { presdiv := BitVec.ofNat 8 presdiv, pseg2 := BitVec.ofNat 3 row.2.1, rjw := BitVec.ofNat 2 row.2.2.1,
            pseg1 := BitVec.ofNat 3 row.2.2.2.1, propseg := BitVec.ofNat 3 row.2.2.2.2, tqs := row.1 } ∧
    1 + (row.2.2.2.2 + 1) + (row.2.2.2.1 + 1) + (row.2.1 + 1) = row.1) ∧
  (∀ presdiv tqs : Nat, tqs < 8 ∨ 26 ≤ tqs → timingOf presdiv tqs = .error (.bitTimingUnsupported tqs))

/-- 40_bit_timing.md R103 to R107, R109, R111: for every source clock that is a multiple of the target with a ratio from 8 to 6399,
BTCALC completes with Ok; presdiv and tqs are those of the formulas, pseg2, rjw and pseg1 those of the ranges, the segments add up to
tqs (R111's quanta law), and nothing else changes. -/
def Obligations.BtcalcCompletes : Prop :=
  ∀ (s : State) (source ratio : Nat), s.block = .idle → s.operands.btcalc.wf = true →
    let o := s.operands.btcalc;
    ((o.sel = .sys ∧ source = o.clocks.coreHz) ∨ (o.sel = .soscdiv2 ∧ o.clocks.soscdiv2Hz = some source)) →
    0 < o.targetHz → source = ratio * o.targetHz → 8 ≤ ratio → ratio ≤ 6399 →
    ∃ bt : Timing,
      exec .btcalc s = .next { s with accesses := [], result := some (.ok (.timing bt)) } ∧
      bt.presdiv.toNat = ratio / 25 ∧ bt.tqs = ratio / (ratio / 25 + 1) ∧ 8 ≤ bt.tqs ∧ bt.tqs ≤ 24 ∧
      1 + (bt.propseg.toNat + 1) + (bt.pseg1.toNat + 1) + (bt.pseg2.toNat + 1) = bt.tqs ∧
      bt.pseg1.toNat = (bt.tqs - (bt.pseg2.toNat + 1)) / 2 - 1 ∧
      (bt.pseg2.toNat, bt.rjw.toNat) =
        (if bt.tqs < 10 then (1, 1) else if bt.tqs < 15 then (3, 2) else if bt.tqs < 20 then (6, 2) else (7, 3))

/-- 40_bit_timing.md R101, R102, R104, R109 in the order of R100: the errors of BTCALC on well-formed operands, with no access and
no change but the result. -/
def Obligations.BtcalcErrors : Prop :=
  ∀ (s : State), s.block = .idle → s.operands.btcalc.wf = true →
    let o := s.operands.btcalc
    let ends := fun e : Err => exec .btcalc s = .next { s with accesses := [], result := some (.err e) };
    (o.sel = .soscdiv2 → o.clocks.soscdiv2Hz = none → ends .clockSourceDisabled) ∧
    ∀ source : Nat,
      ((o.sel = .sys ∧ source = o.clocks.coreHz) ∨ (o.sel = .soscdiv2 ∧ o.clocks.soscdiv2Hz = some source)) →
      (o.targetHz = 0 → ends .settingsError) ∧
      (0 < o.targetHz → ¬ o.targetHz ∣ source → ends .settingsError) ∧
      (∀ ratio : Nat, 0 < o.targetHz → source = ratio * o.targetHz →
        (ratio < 5 → ends .settingsError) ∧
        (ratio = 5 ∨ ratio = 6 ∨ ratio = 7 → ends (.bitTimingUnsupported ratio)) ∧
        (6400 ≤ ratio → ends (.prescalerOverflow (ratio / 25))))

/-! ### Checks before any access -/

/-- 30_encoding.md R86: an operand record with a number too wide, too many payload bytes, a byte of 256 or more, or a clock of 2^32
or more ends its operation at once with `Err(InvalidOperand)`, before any access, whatever IDX is. -/
def Obligations.IllFormedOperandsEndAtOnce : Prop :=
  ∀ s : State, s.block = .idle →
    let badId := fun id : RawIdentifier => (∃ v, id = .base v ∧ 2 ^ 11 ≤ v) ∨ (∃ v, id = .extended v ∧ 2 ^ 29 ≤ v)
    let badFrame := fun f : RawFrame =>
      (∃ id bytes, f = .data id bytes ∧ (badId id ∨ 8 < bytes.length ∨ ∃ b ∈ bytes, 256 ≤ b)) ∨
      (∃ id, f = .remote id ∧ badId id)
    let h := s.operands.mbwrite.header
    let o := s.operands.btcalc
    let ends := fun i : Instr => exec i s = .next { s with accesses := [], result := some (.err .invalidOperand) };
    (badFrame s.operands.frame.frame → ends .txquick ∧ ends .tx) ∧
    ((badFrame s.operands.mbwrite.frame ∨ 8 ≤ h.prio ∨ 2 ^ 16 ≤ h.timestamp) → ∀ idx, ends (.mbwrite idx)) ∧
    ((2 ^ 32 ≤ o.clocks.coreHz ∨ (∃ f, o.clocks.soscdiv2Hz = some f ∧ 2 ^ 32 ≤ f) ∨ 2 ^ 32 ≤ o.targetHz) → ends .btcalc)

/-- 60_exceptions.md R241, R243, R244: an index of 16 or more raises IndexOutOfRange in the five operations that take IDX, and a
header code of the wrong role or busy raises InvalidHeaderCode in MBWRITE, before any access. -/
def Obligations.IndexAndHeaderChecksComeFirst : Prop :=
  ∀ (s : State), s.block = .idle →
    (∀ idx : BitVec 8, 16 ≤ idx.toNat →
      let ends := fun i : Instr => exec i s = .next { s with accesses := [], result := some (.err (.indexOutOfRange idx)) }
      ends (.mbread idx) ∧ ends (.mbpeek idx) ∧ ends (.mbinact idx) ∧ ends (.mbabort idx) ∧
      (s.operands.mbwrite.wf = true → ends (.mbwrite idx))) ∧
    (∀ (i : Fin 16), s.operands.mbwrite.wf = true →
      let code := s.operands.mbwrite.header.code;
      (code.role ≠ (if i.val < 8 then Role.transmit else Role.receive) ∨ (∃ r, code = .rx r true)) →
      exec (.mbwrite (BitVec.ofNat 8 i.val)) s =
        .next { s with accesses := [], result := some (.err (.invalidHeaderCode code)) })

/-! ### The mailbox store -/

/-- 42_mailbox_store.md R145 with R141 to R143 and 48_peripheral_agent.md R227: on a writable mailbox, with a header of the index's
role, MBWRITE completes: the mailbox holds the frame's words, its flag is cleared, and nothing else changes. -/
def Obligations.MbwriteCompletes : Prop :=
  ∀ (s : State) (i : Fin 16) (hdr : Header) (f : Frame) (cur : BufferState), s.ready → s.quiet →
    mbwriteOperands s.operands.mbwrite = some (hdr, f) → hdr.code.role = roleOfIndex i → hdr.code.isBusy = false →
    s.stateAt i = some cur → (cur = .tx .inactive ∨ cur = .tx .abort ∨ cur = .rx .inactive false) →
    exec (.mbwrite (BitVec.ofNat 8 i.val)) s = .next
      { s with
        mb := put s.mb i (written (s.mb.get i) hdr f)
        iflag := s.iflag &&& ~~~(1#32 <<< i.val)
        lockedMb := some i
        abortReq := put s.abortReq i (decide (hdr.code = .tx .abort) && s.abortReq.get i)
        lateTx := if s.mode = .running ∧ s.abortReq.get i = true ∧ hdr.code ≠ .tx .dataRemote ∧ hdr.code ≠ .tx .abort
          then put s.lateTx i true else s.lateTx
        rxStage := put s.rxStage i none
        schedule := s.schedule.drop (1 + (writeLog i hdr f).length)
        accesses := .read (.mb i 0) (s.mb.get i).cs :: writeLog i hdr f
        result := some (.ok .unit) }

/-- 42_mailbox_store.md R151, for every schedule: when the code read is not writable MBWRITE ends with BusyMailboxWriteAttempted
after that one read, and no register is written; a reserved code gives DecodeError the same way. -/
def Obligations.MbwriteRefusalMutatesNothing : Prop :=
  ∀ (s : State) (i : Fin 16) (hdr : Header) (f : Frame), s.ready →
    mbwriteOperands s.operands.mbwrite = some (hdr, f) → hdr.code.role = roleOfIndex i → hdr.code.isBusy = false →
    let g := gap s
    let cs := (g.mb.get i).cs
    let ends := fun e : Err => exec (.mbwrite (BitVec.ofNat 8 i.val)) s =
      .next { g with lockedMb := some i, accesses := [.read (.mb i 0) cs], result := some (.err e) };
    (∀ cur, decodeState (codeOf cs) = some cur →
      ¬ (cur = .tx .inactive ∨ cur = .tx .abort ∨ cur = .rx .inactive false) → ends (.busyMailboxWriteAttempted i)) ∧
    (decodeState (codeOf cs) = none → ends (.decodeError (codeOf cs)))

/-- 42_mailbox_store.md R146: on a mailbox that is not busy MBREAD returns its header and frame, acknowledges its flag and releases
the lock, with exactly six accesses, and nothing else changes. -/
def Obligations.MbreadCompletes : Prop :=
  ∀ (s : State) (i : Fin 16) (st : BufferState), s.ready → s.quiet → s.stateAt i = some st → st.isBusy = false →
    let m := s.mb.get i
    let msg := unpack m.cs st m.idw m.d0 m.d1
    exec (.mbread (BitVec.ofNat 8 i.val)) s = .next
      { s with
        iflag := s.iflag &&& ~~~(1#32 <<< i.val)
        lockedMb := none
        timer := Config.freeTimer s.draws
        draws := s.draws + 1
        schedule := s.schedule.drop 6
        accesses := readLog s.draws i m
        result := some (.ok (.message msg.1 msg.2)) }

/-- 42_mailbox_store.md R146 and 60_exceptions.md R250: on a busy mailbox MBREAD makes one CS read and stays in its spin (unless
SPIN_BOUND is at most 1); once the mailbox is no longer busy the next step completes it. -/
def Obligations.MbreadSpinsWhileBusy : Prop :=
  (∀ (s : State) (i : Fin 16) (st : BufferState), s.ready → s.quiet → s.stateAt i = some st → st.isBusy = true →
    (∀ b, s.params.spinBound = some b → 1 < b) →
    exec (.mbread (BitVec.ofNat 8 i.val)) s = .next
      { s with lockedMb := some i, schedule := s.schedule.drop 1, accesses := [.read (.mb i 0) (s.mb.get i).cs],
               result := none, block := .spinning (.readBusy .mbread i 1) }) ∧
  (∀ (s : State) (i : Fin 16) (n : Nat) (st : BufferState), s.block = .spinning (.readBusy .mbread i n) →
    s.params.accessPermitted = true → s.quiet → s.stateAt i = some st → st.isBusy = false →
    let m := s.mb.get i
    let msg := unpack m.cs st m.idw m.d0 m.d1
    step s = .next
      { s with
        iflag := s.iflag &&& ~~~(1#32 <<< i.val)
        lockedMb := none
        timer := Config.freeTimer s.draws
        draws := s.draws + 1
        schedule := s.schedule.drop 6
        accesses := s.accesses ++ readLog s.draws i m
        result := some (.ok (.message msg.1 msg.2))
        block := .idle })

/-- 42_mailbox_store.md R147: MBPEEK returns a decodable mailbox's header and frame, busy or not, writes no register and leaves no
lock. -/
def Obligations.MbpeekCompletes : Prop :=
  ∀ (s : State) (i : Fin 16) (st : BufferState), s.ready → s.quiet → s.stateAt i = some st →
    let m := s.mb.get i
    let msg := unpack m.cs st m.idw m.d0 m.d1
    exec (.mbpeek (BitVec.ofNat 8 i.val)) s = .next
      { s with
        lockedMb := none
        timer := Config.freeTimer s.draws
        draws := s.draws + 1
        schedule := s.schedule.drop 5
        accesses := peekLog s.draws i m
        result := some (.ok (.message msg.1 msg.2)) }

/-- 42_mailbox_store.md R148 with 48_peripheral_agent.md R227: MBINACT completes on every mailbox; its CS word becomes 0x0800_0000 if
its code was a transmit code and 0 otherwise (a reserved code included), no flag changes, and a frame pending while Running is
marked as possibly late. -/
def Obligations.MbinactCompletes : Prop :=
  ∀ (s : State) (i : Fin 16), s.ready → s.quiet →
    let m := s.mb.get i
    let v : Word := if s.codeAt i = 0b1000#4 ∨ s.codeAt i = 0b1001#4 ∨ s.codeAt i = 0b1100#4 ∨ s.codeAt i = 0b1110#4
      then 0x08000000 else 0x00000000
    exec (.mbinact (BitVec.ofNat 8 i.val)) s = .next
      { s with
        mb := put s.mb i { m with cs := v }
        lockedMb := some i
        abortReq := put s.abortReq i false
        lateTx := if s.mode = .running ∧ (s.codeAt i = 0b1100#4 ∨ s.abortReq.get i = true) then put s.lateTx i true else s.lateTx
        rxStage := put s.rxStage i none
        schedule := s.schedule.drop 2
        accesses := [.read (.mb i 0) m.cs, .write (.mb i 0) v]
        result := some (.ok .unit) }

/-- 42_mailbox_store.md R149 with 48_peripheral_agent.md R214: MBABORT of a pending mailbox, the peripheral answering the request
before the first flag read: it returns the frame held if that was not sent and nothing if it was; the mailbox keeps Abort or becomes
Inactive, its flag is acknowledged, and nothing else changes. And where it has spun, on its flag or in its re-read, and now finds the
exit condition: it returns what the code re-read says, UnreachableState on any code but Abort and Inactive, and writes nothing but the
acknowledge; on a reserved code it raises DecodeError and acknowledges nothing (92_eei_decisions.md D20; log 24). The two errors are
the same for TX's own abort. -/
def Obligations.MbabortCompletes : Prop :=
  (∀ (s : State) (i : Fin 16) (sent : Bool) (ts : BitVec 16) (rest : List (List Event)), s.ready → s.mode = .running →
    s.codeAt i = 0b1100#4 → s.schedule = [] :: [] :: [] :: [.abortResolve i sent ts] :: rest → (∀ es ∈ rest, es = []) →
    let m := s.mb.get i
    let aborted := withCode m.cs 0b1001
    let cs := if sent then withTimestamp (withCode m.cs 0b1000) ts else aborted
    exec (.mbabort (BitVec.ofNat 8 i.val)) s = .next
      { s with
        mb := put s.mb i { m with cs := cs }
        iflag := s.iflag &&& ~~~(1#32 <<< i.val)
        lockedMb := none
        abortReq := put s.abortReq i false
        rxStage := put s.rxStage i none
        timer := Config.freeTimer s.draws
        draws := s.draws + 1
        schedule := rest.drop 6
        accesses := [.read (.mb i 0) m.cs, .write .iflag1 (flagMask i), .write (.mb i 0) aborted,
            .read .iflag1 (s.iflag ||| 1#32 <<< i.val)] ++ readLog s.draws i { m with cs := cs }
        result := some (.ok (.maybeFrame (if sent then none else some (s.heldFrame i)))) }) ∧
  (∀ (s : State) (c : AbortCaller) (i : Fin 16) (p : SpinPos) (found : List Access), s.block = .spinning p →
    abortEnds p c i found s → s.params.accessPermitted = true → s.quiet →
    let ends := fun (iflag : Word) (log : List Access) (r : Result) => step s = .next
      { s with
        iflag := iflag
        lockedMb := none
        timer := Config.freeTimer s.draws
        draws := s.draws + 1
        schedule := s.schedule.drop (found.length + log.length)
        accesses := s.accesses ++ found ++ log
        result := some r
        block := .idle }
    let read := ends (s.iflag &&& ~~~(1#32 <<< i.val)) (readLog s.draws i (s.mb.get i));
    (s.stateAt i = some (.tx .abort) → c = .mbabort → read (.ok (.maybeFrame (some (s.heldFrame i))))) ∧
    (s.stateAt i = some (.tx .inactive) → c = .mbabort → read (.ok (.maybeFrame none))) ∧
    (∀ st, s.stateAt i = some st → st.isBusy = false → st ≠ .tx .abort → st ≠ .tx .inactive →
      read (.err (.unreachableState st))) ∧
    (s.stateAt i = none →
      ends s.iflag [.read (.mb i 0) (s.mb.get i).cs, timerLog s.draws] (.err (.decodeError (s.codeAt i)))))

/-- 42_mailbox_store.md R149, for every schedule: MBABORT of a mailbox that is not pending ends after its one CS read, with
InvalidAbort or, on a reserved code, DecodeError, and writes nothing. So does TX's own abort: where the mailbox to evict was sent
after TX's peeks and before the abort's code read, TX raises InvalidAbort and has written nothing (43_transmit_arbiter.md R182). -/
def Obligations.MbabortChecksTheCode : Prop :=
  (∀ (s : State) (i : Fin 16), s.ready →
    let g := gap s
    let cs := (g.mb.get i).cs
    let ends := fun e : Err => exec (.mbabort (BitVec.ofNat 8 i.val)) s =
      .next { g with lockedMb := some i, accesses := [.read (.mb i 0) cs], result := some (.err e) };
    (∀ st, decodeState (codeOf cs) = some st → st ≠ .tx .dataRemote → ends (.invalidAbort st)) ∧
    (decodeState (codeOf cs) = none → ends (.decodeError (codeOf cs)))) ∧
  (∀ (s : State) (f : Frame) (w : Fin 16) (ts : BitVec 16) (rest : List (List Event)), s.ready → s.mode = .running →
    frameOperand s.operands.frame = some f → EvictionTarget s w f → s.params.hwTxOrder = .any →
    s.schedule = List.replicate 40 [] ++ [.txComplete w ts] :: rest →
    let sent := withTimestamp (withCode (s.mb.get w).cs 0b1000) ts
    exec .tx s = .next
      { s with
        mb := put s.mb w { s.mb.get w with cs := sent }
        iflag := s.iflag ||| 1#32 <<< w.val
        lockedMb := some w
        timer := Config.freeTimer (s.draws + 7)
        draws := s.draws + 8
        schedule := rest
        accesses := snapshotLog s ++ [.read (.mb w 0) sent]
        result := some (.err (.invalidAbort (.tx .inactive))) })

/-- 42_mailbox_store.md R149 (corner cases) and 70_reset_and_hazards.md R284 (b): if the frame is sent between MBABORT's flag clear and
its Abort write, MBABORT returns that frame as if it had not been sent, and the mailbox keeps the Abort code. -/
def Obligations.AbortAfterSendReturnsASentFrame : Prop :=
  ∀ (s : State) (i : Fin 16) (ts : BitVec 16) (rest : List (List Event)), s.ready → s.mode = .running →
    s.params.hwTxOrder = .any → s.codeAt i = 0b1100#4 → s.abortReq.get i = false →
    s.schedule = [] :: [] :: [.txComplete i ts] :: rest → (∀ es ∈ rest, es = []) →
    ∃ t, exec (.mbabort (BitVec.ofNat 8 i.val)) s = .next t ∧
      t.result = some (.ok (.maybeFrame (some (s.heldFrame i)))) ∧ t.codeAt i = 0b1001#4 ∧ t.abortReq.get i = false ∧
      flagSet t.iflag i = false ∧ sameRegsBut (.iflag1 :: .timer :: mailboxRegs i) s t ∧ sameHiddenBut i s t

/-- 41_codec.md R124: with a peripheral that takes no step, every operation that decodes a reserved code raises DecodeError with that
code, writes no register and sets no flag; MBINACT alone completes and zeroes the CS word. -/
def Obligations.ReservedCodesAreErrors : Prop :=
  ∀ (s : State) (i : Fin 16), s.ready → s.quiet → s.stateAt i = none →
    let raises := fun ins : Instr => ∃ t, exec ins s = .next t ∧ t.block = .idle ∧
      t.result = some (.err (.decodeError (s.codeAt i))) ∧ sameRegsBut [.timer] s t ∧ sameHiddenBut i s t ∧
      t.abortReq = s.abortReq ∧ t.lateTx = s.lateTx ∧ t.rxStage = s.rxStage
    raises (.mbread (BitVec.ofNat 8 i.val)) ∧ raises (.mbpeek (BitVec.ofNat 8 i.val)) ∧
    raises (.mbabort (BitVec.ofNat 8 i.val)) ∧
    (∀ hdr f, mbwriteOperands s.operands.mbwrite = some (hdr, f) → hdr.code.role = roleOfIndex i → hdr.code.isBusy = false →
      raises (.mbwrite (BitVec.ofNat 8 i.val))) ∧
    (i.val < 8 → (∀ j, j < i → ∃ st, s.stateAt j = some st ∧ st ≠ .tx .inactive) →
      (∃ f, frameOperand s.operands.frame = some f) → raises .txquick) ∧
    (i.val < 8 → (∀ j, j < i → s.stateAt j ≠ none) → (∃ f, frameOperand s.operands.frame = some f) → raises .tx) ∧
    (8 ≤ i.val → flagSet s.iflag i = true → (∀ j, 8 ≤ j.val → j < i → flagSet s.iflag j = false) → raises .rx) ∧
    (∃ t, exec (.mbinact (BitVec.ofNat 8 i.val)) s = .next t ∧ t.result = some (.ok .unit) ∧
      (t.mb.get i).cs = 0x00000000#32 ∧ sameRegsBut [.mb i 0] s t)

/-! ### The transmit arbiter -/

/-- 43_transmit_arbiter.md R181: TXQUICK writes the frame into the first transmit mailbox that is Tx(Inactive), those before it being
decodable, and changes nothing else. -/
def Obligations.TxquickCompletes : Prop :=
  ∀ (s : State) (f : Frame) (i : Fin 16), s.ready → s.quiet → frameOperand s.operands.frame = some f → i.val < 8 →
    (∀ j, j < i → ∃ st, s.stateAt j = some st ∧ st ≠ .tx .inactive) → s.stateAt i = some (.tx .inactive) →
    exec .txquick s = .next
      { s with
        mb := put s.mb i (written (s.mb.get i) txHdr f)
        iflag := s.iflag &&& ~~~(1#32 <<< i.val)
        lockedMb := some i
        abortReq := put s.abortReq i false
        rxStage := put s.rxStage i none
        schedule := s.schedule.drop (i.val + 2 + (writeLog i txHdr f).length)
        accesses := ((List.finRange 16).take (i.val + 1)).map (fun j => .read (.mb j 0) (s.mb.get j).cs) ++
          .read (.mb i 0) (s.mb.get i).cs :: writeLog i txHdr f
        result := some (.ok .unit) }

/-- 43_transmit_arbiter.md R181: with no transmit mailbox Tx(Inactive) (Tx(Abort) is not free) TXQUICK ends with BufferExhausted
after eight CS reads and writes nothing. -/
def Obligations.TxquickExhausted : Prop :=
  ∀ (s : State) (f : Frame), s.ready → s.quiet → frameOperand s.operands.frame = some f →
    (∀ j : Fin 16, j.val < 8 → ∃ st, s.stateAt j = some st ∧ st ≠ .tx .inactive) →
    exec .txquick s = .next
      { s with
        lockedMb := some 7
        schedule := s.schedule.drop 8
        accesses := txIdx.map (fun j => .read (.mb j 0) (s.mb.get j).cs)
        result := some (.err .bufferExhausted) }

/-- 43_transmit_arbiter.md R186: from eight Tx(Inactive) transmit mailboxes, with a peripheral that takes no step, eight consecutive
TXQUICK commands each return `Ok(())` and call k+1 fills mailbox k; the ninth raises BufferExhausted and fills none. -/
def Obligations.EightTransmissionsThenExhausted : Prop :=
  ∀ (s : State) (fs : List Frame) (ops : Frame → OperandPort) (rest : List Request), s.ready → s.quiet → fs.length = 9 →
    (∀ f ∈ fs, frameOperand (ops f).frame = some f) →
    s.requests = fs.map (fun f => Request.command 0x00000008 (ops f)) ++ rest →
    (∀ j : Fin 16, j.val < 8 → s.codeAt j = 0b1000#4) →
    (∀ k : Fin 16, k.val < 8 → ∃ t f, runSteps (k.val + 1) s = .next t ∧ t.result = some (.ok .unit) ∧
      fs[k.val]? = some f ∧ t.mb.get k = written (s.mb.get k) txHdr f ∧
      ∀ j : Fin 16, k < j → t.mb.get j = s.mb.get j) ∧
    (∃ t u, runSteps 8 s = .next t ∧ runSteps 9 s = .next u ∧ u.result = some (.err .bufferExhausted) ∧ u.mb = t.mb ∧
      u.iflag = t.iflag)

/-- 43_transmit_arbiter.md R182: if a transmit mailbox is Tx(Inactive) in TX's snapshot, TX writes the frame into the first such one
and returns `Ok(none)`. -/
def Obligations.TxPlacesTheFrame : Prop :=
  ∀ (s : State) (f : Frame) (i : Fin 16), s.ready → s.quiet → frameOperand s.operands.frame = some f → i.val < 8 →
    (∀ j : Fin 16, j.val < 8 → s.stateAt j ≠ none) → (∀ j, j < i → s.stateAt j ≠ some (.tx .inactive)) →
    s.stateAt i = some (.tx .inactive) →
    exec .tx s = .next
      { s with
        mb := put s.mb i (written (s.mb.get i) txHdr f)
        iflag := s.iflag &&& ~~~(1#32 <<< i.val)
        lockedMb := some i
        abortReq := put s.abortReq i false
        rxStage := put s.rxStage i none
        timer := Config.freeTimer (s.draws + 7)
        draws := s.draws + 8
        schedule := s.schedule.drop (41 + (writeLog i txHdr f).length)
        accesses := snapshotLog s ++ .read (.mb i 0) (s.mb.get i).cs :: writeLog i txHdr f
        result := some (.ok (.maybeFrame none)) }

/-- 43_transmit_arbiter.md R182 to R185, R187: with no transmit mailbox Tx(Inactive), a frame numerically smaller than the worst
pending one (the largest identifier held, the lowest index on ties) evicts it: TX aborts that mailbox, installs the new frame there
and returns the evicted frame, or nothing if the peripheral had sent it; no other mailbox, flag or hidden state changes. And
where its abort has spun, on the flag or in the re-read, and now finds the exit condition with the mailbox Abort or Inactive, the same
step installs the new frame and returns the evicted one, or nothing. -/
def Obligations.TxEvictsTheWorstPending : Prop :=
  (∀ (s : State) (f : Frame) (w : Fin 16) (sent : Bool) (ts : BitVec 16) (rest : List (List Event)), s.ready →
    s.mode = .running → frameOperand s.operands.frame = some f → EvictionTarget s w f →
    s.schedule = List.replicate 43 [] ++ [.abortResolve w sent ts] :: rest → (∀ es ∈ rest, es = []) →
    ∃ t, exec .tx s = .next t ∧ t.block = .idle ∧
      t.result = some (.ok (.maybeFrame (if sent then none else some (s.heldFrame w)))) ∧
      t.mb = put s.mb w (written (s.mb.get w) txHdr f) ∧ t.iflag = s.iflag &&& ~~~(1#32 <<< w.val) ∧
      t.abortReq = put s.abortReq w false ∧ t.lateTx = s.lateTx ∧ t.rxStage = put s.rxStage w none ∧
      t.lockedMb = some w ∧ t.mcr = s.mcr ∧ t.ctrl1 = s.ctrl1 ∧ t.rxmgmask = s.rxmgmask ∧ t.draws = s.draws + 9 ∧
      sameOutside s t) ∧
  (∀ (s : State) (f : Frame) (w : Fin 16) (p : SpinPos) (found : List Access), s.block = .spinning p →
    abortEnds p (.tx f) w found s → w.val < 8 → s.params.accessPermitted = true → s.quiet →
    s.stateAt w = some (.tx .abort) ∨ s.stateAt w = some (.tx .inactive) →
    step s = .next
      { s with
        mb := put s.mb w (written (s.mb.get w) txHdr f)
        iflag := s.iflag &&& ~~~(1#32 <<< w.val)
        lockedMb := some w
        abortReq := put s.abortReq w false
        rxStage := put s.rxStage w none
        timer := Config.freeTimer s.draws
        draws := s.draws + 1
        schedule := s.schedule.drop (found.length + 7 + (writeLog w txHdr f).length)
        accesses := s.accesses ++ found ++ readLog s.draws w (s.mb.get w) ++
          .read (.mb w 0) (s.mb.get w).cs :: writeLog w txHdr f
        result := some (.ok (.maybeFrame (if s.stateAt w = some (.tx .abort) then some (s.heldFrame w) else none)))
        block := .idle })

/-- 43_transmit_arbiter.md R182, R184, R187: with no transmit mailbox Tx(Inactive), a frame that is not numerically smaller than
the worst pending one (equal included), or no pending mailbox at all, gives BufferExhausted after the eight peeks, and no register is
written. -/
def Obligations.TxRefusesLowerPriority : Prop :=
  ∀ (s : State) (f : Frame), s.ready → s.quiet → frameOperand s.operands.frame = some f →
    (∀ j : Fin 16, j.val < 8 → ∃ st, s.stateAt j = some st ∧ st ≠ .tx .inactive) →
    (∀ j : Fin 16, j.val < 8 → s.codeAt j = 0b1100#4 → (s.heldFrame j).id.num ≤ f.id.num) →
    exec .tx s = .next
      { s with
        lockedMb := none
        timer := Config.freeTimer (s.draws + 7)
        draws := s.draws + 8
        schedule := s.schedule.drop 40
        accesses := snapshotLog s
        result := some (.err .bufferExhausted) }

/-! ### The receive scanner -/

/-- 44_receive_scanner.md R200: RX returns the frame of the first receive mailbox whose flag is set in its snapshot, acknowledges that
flag alone, leaves the mailbox as it is and releases the lock; and so it does where its MBREAD has spun and now finds the mailbox no
longer busy. -/
def Obligations.RxCompletes : Prop :=
  (∀ (s : State) (i : Fin 16) (st : BufferState), s.ready → s.quiet → 8 ≤ i.val → flagSet s.iflag i = true →
    (∀ j : Fin 16, 8 ≤ j.val → j < i → flagSet s.iflag j = false) → s.stateAt i = some st → st.isBusy = false →
    let m := s.mb.get i
    exec .rx s = .next
      { s with
        iflag := s.iflag &&& ~~~(1#32 <<< i.val)
        lockedMb := none
        timer := Config.freeTimer s.draws
        draws := s.draws + 1
        schedule := s.schedule.drop 7
        accesses := .read .iflag1 s.iflag :: readLog s.draws i m
        result := some (.ok (.frame (unpack m.cs st m.idw m.d0 m.d1).2)) }) ∧
  (∀ (s : State) (i : Fin 16) (n : Nat) (st : BufferState), s.block = .spinning (.readBusy .rx i n) →
    s.params.accessPermitted = true → s.quiet → s.stateAt i = some st → st.isBusy = false →
    let m := s.mb.get i
    step s = .next
      { s with
        iflag := s.iflag &&& ~~~(1#32 <<< i.val)
        lockedMb := none
        timer := Config.freeTimer s.draws
        draws := s.draws + 1
        schedule := s.schedule.drop 6
        accesses := s.accesses ++ readLog s.draws i m
        result := some (.ok (.frame (unpack m.cs st m.idw m.d0 m.d1).2))
        block := .idle })

/-- 44_receive_scanner.md R202, for every schedule: if IFLAG1 bits 15:8 are 0 when RX reads IFLAG1, RX raises BufferExhausted after
that one read and has written nothing. -/
def Obligations.RxEmpty : Prop :=
  ∀ s : State, s.ready → (gap s).iflag.extractLsb' 8 8 = 0#8 →
    exec .rx s = .next
      { gap s with accesses := [.read .iflag1 (gap s).iflag], result := some (.err .bufferExhausted) }

/-- 44_receive_scanner.md R201: with flags 10 and 13 set and 8, 9, 11 and 12 clear, neither mailbox busy, two RX commands return the
frame of mailbox 10 first, leaving flag 13 set, and then that of mailbox 13. -/
def Obligations.RxTakesTheFirstFlagFirst : Prop :=
  ∀ (s : State) (ops ops' : OperandPort) (rest : List Request) (st st' : BufferState), s.ready → s.quiet →
    s.requests = .command 0x0000000A ops :: .command 0x0000000A ops' :: rest →
    flagSet s.iflag 10 = true → flagSet s.iflag 13 = true →
    flagSet s.iflag 8 = false → flagSet s.iflag 9 = false → flagSet s.iflag 11 = false → flagSet s.iflag 12 = false →
    s.stateAt 10 = some st → st.isBusy = false → s.stateAt 13 = some st' → st'.isBusy = false →
    ∃ t u, runSteps 1 s = .next t ∧ runSteps 2 s = .next u ∧
      t.result = some (.ok (.frame (s.heldFrame 10))) ∧ u.result = some (.ok (.frame (s.heldFrame 13))) ∧
      (∀ k, k < 32 → t.iflag.getLsbD k = (s.iflag.getLsbD k && !decide (k = 10))) ∧
      (∀ k, k < 32 → u.iflag.getLsbD k = (s.iflag.getLsbD k && !decide (k = 10) && !decide (k = 13))) ∧
      t.mb = s.mb ∧ u.mb = s.mb

/-! ### Laws across operations -/

/-- 42_mailbox_store.md R150, its words alone: what MBWRITE stores unpacks to the frame, the esi and the prio written, whatever the
peripheral has made of CODE and TIME_STAMP since; and, with a peripheral that takes no step, MBWRITE then MBREAD returns them. -/
def Obligations.WriteThenReadReturnsTheFrame : Prop :=
  (∀ (hdr : Header) (f : Frame) (m : Mailbox) (code : BitVec 4) (ts : BitVec 16) (st : BufferState), f.wf = true →
    unpack (withTimestamp (withCode (written m hdr f).cs code) ts) st (written m hdr f).idw (written m hdr f).d0
      (written m hdr f).d1 = ({ esi := hdr.esi, code := st, timestamp := ts, prio := hdr.prio }, f)) ∧
  (∀ (s : State) (i : Fin 16) (hdr : Header) (f : Frame) (cur : BufferState) (w r : Word) (ops ops' : OperandPort)
      (rest : List Request), s.ready → s.quiet →
    decodeWord w = .ok (.mbwrite (BitVec.ofNat 8 i.val)) → decodeWord r = .ok (.mbread (BitVec.ofNat 8 i.val)) →
    s.requests = .command w ops :: .command r ops' :: rest → mbwriteOperands ops.mbwrite = some (hdr, f) →
    hdr.code.role = roleOfIndex i → hdr.code.isBusy = false → s.stateAt i = some cur →
    (cur = .tx .inactive ∨ cur = .tx .abort ∨ cur = .rx .inactive false) →
    ∃ t u, runSteps 1 s = .next t ∧ t.result = some (.ok .unit) ∧ runSteps 2 s = .next u ∧
      u.result = some (.ok (.message { hdr with timestamp := 0 } f)))

/-- 60_exceptions.md R247, R253 and 10_state.md R29: whatever the peripheral does, no operation of the caller writes MCR, CTRL1,
RXMGMASK or TIMER; its writes go to IFLAG1 and mailbox words only. This holds of the step that begins the operation and of every step
in which it goes on from a spin (INIT, which is no operation of 30_encoding.md, spins at `.boot` alone). -/
def Obligations.OperationsWriteOnlyFlagsAndMailboxes : Prop :=
  (∀ (i : Instr) (s t : State), exec i s = .next t →
    (∀ a ∈ t.accesses, a.mailboxOnly) ∧ ∀ b n bt st, t.block ≠ .spinning (.boot b n bt st)) ∧
  (∀ (s t : State) (p : SpinPos), s.block = .spinning p → (∀ b n bt st, p ≠ .boot b n bt st) →
    (∀ a ∈ s.accesses, a.mailboxOnly) → step s = .next t →
    (∀ a ∈ t.accesses, a.mailboxOnly) ∧ ∀ b n bt st, t.block ≠ .spinning (.boot b n bt st))

/-- 70_reset_and_hazards.md R278 and R279 (its MBWRITE part), for every schedule: an MBWRITE that returns Ok made exactly one CS read
of a writable code, then cleared the flag, wrote the ID word, wrote the data words of a data frame, and wrote the CS word last. -/
def Obligations.CodeWordIsWrittenLast : Prop :=
  ∀ (s t : State) (i : Fin 16) (hdr : Header) (f : Frame), mbwriteOperands s.operands.mbwrite = some (hdr, f) →
    exec (.mbwrite (BitVec.ofNat 8 i.val)) s = .next t → t.result = some (.ok .unit) →
    ∃ cs cur, decodeState (codeOf cs) = some cur ∧
      (cur = .tx .inactive ∨ cur = .tx .abort ∨ cur = .rx .inactive false) ∧
      t.accesses = .read (.mb i 0) cs :: writeLog i hdr f

/-- 70_reset_and_hazards.md R280 (its MBREAD and MBPEEK part), for every schedule: however MBREAD or MBPEEK of a mailbox in range
ends, in the step that begins it or after any number of busy re-reads, its last access is a TIMER read and no lock is left. So does an
RX that ends after a busy re-read of its mailbox. -/
def Obligations.ReadsEndByReleasingTheLock : Prop :=
  (∀ (s t : State) (i : Fin 16) (ins : Instr),
    (ins = .mbread (BitVec.ofNat 8 i.val) ∨ ins = .mbpeek (BitVec.ofNat 8 i.val)) →
    exec ins s = .next t → t.block = .idle →
    t.lockedMb = none ∧ ∃ v, t.accesses.getLast? = some (.read .timer v)) ∧
  (∀ (s t : State) (i : Fin 16) (n : Nat) (c : ReadCaller), (c = .mbread ∨ c = .rx) →
    s.block = .spinning (.readBusy c i n) → step s = .next t → t.block = .idle →
    t.lockedMb = none ∧ ∃ v, t.accesses.getLast? = some (.read .timer v))

/-! ### INIT -/

/-- 70_reset_and_hazards.md R276: from any state of the registers and of the mailboxes, INIT that returns Ok, the peripheral having
taken none but mode steps, leaves the launch state for its timing and settings. Runs with bus steps are left out, those in the early
running window of R287 too. -/
def Obligations.InitReachesTheLaunchState : Prop :=
  ∀ (s t : State) (st : Settings) (clocks : ClockInfo) (bt : Timing) (k : Nat), s.ready → s.onlyModeSteps →
    checkedTiming { sel := st.clockSource, clocks := clocks, targetHz := st.canFrequency } = .ok bt → st.rxFifo = false →
    s.requests = [.init st clocks] → runSteps k s = .next t → t.requests = [] → t.block = .idle →
    t.result = some (.ok .unit) → Launch bt st t

/-- 70_reset_and_hazards.md R277: a BTCALC error of INIT's settings, and rx_fifo = true, are raised before INIT's first access. That
settings whose frequencies do not fit 32 bits give InvalidOperand, in the same way, is the model's choice (log 13): R277 names only
BTCALC's own four errors and UnsupportedSetting. -/
def Obligations.InitFailsFast : Prop :=
  ∀ (s : State) (st : Settings) (clocks : ClockInfo) (rest : List Request), s.block = .idle →
    s.requests = .init st clocks :: rest →
    let timing := checkedTiming { sel := st.clockSource, clocks := clocks, targetHz := st.canFrequency }
    let ends := fun e : Err => step s = .next { s with requests := rest, accesses := [], result := some (.err e) };
    (∀ e, timing = .error e → ends e) ∧ (∀ bt, timing = .ok bt → st.rxFifo = true → ends .unsupportedSetting)

/-! ### Steps of the machine -/

/-- 00_scope.md R2, 10_state.md R22, 30_encoding.md R80: an idle block takes the caller's next command, decodes its word and runs the
operation with the command's operand records. The other clauses say how the model cuts a run into steps, its own choices: a spinning
block makes one more re-read a step (log 4), with nothing asked the peripheral has its turn (log 15), and a word placed by
`withFetchWord` is run by the very next step (log 16). -/
def Obligations.StepRunsTheDecodedInstruction : Prop :=
  (∀ (s : State) (w : Word) (ops : OperandPort) (rest : List Request) (i : Instr), s.block = .idle →
    s.requests = .command w ops :: rest → decodeWord w = .ok i →
    step s = exec i { s with requests := rest, operands := ops }) ∧
  (∀ (s : State) (p : SpinPos), s.block = .spinning p → step s = finish (resumeFrom p s)) ∧
  (∀ s : State, s.block = .idle → s.requests = [] → step s = .next (gap s)) ∧
  (∀ (s : State) (i : Instr), decodeWord (encode i) = .ok i →
    step (s.withFetchWord 32 (encode i).toNat) = exec i { s with block := .idle })

/-- 30_encoding.md R88: a `txwait` or `rxwait` request is re-issued while its result is BufferExhausted and is gone after any other
result. -/
def Obligations.CallerLoopsWhileExhausted : Prop :=
  ∀ (s t : State) (w : Word) (ops : OperandPort) (rest : List Request) (i : Instr), s.block = .idle →
    s.requests = .commandUntilFree w ops :: rest → decodeWord w = .ok i →
    exec i { s with requests := rest, operands := ops } = .next t →
    step s = .next (if t.result = some (.err .bufferExhausted)
      then { t with requests := .commandUntilFree w ops :: t.requests } else t) ∧ t.requests = rest

/-- 20_memory.md R73 and 60_exceptions.md R251: an operation issued while one is in progress is refused, whichever it is. -/
def Obligations.OverlappingOperationIsRefused : Prop :=
  ∀ (i : Instr) (s : State) (p : SpinPos), s.block = .spinning p → exec i s = .refused .operationInProgress

/-- 60_exceptions.md R250: with SPIN_BOUND none, a spin never ends while its exit condition does not hold. For every schedule, a
re-read that does not find the condition leaves the block in that spin, with no result, no further operation issued and nothing else
done by the block; and with a peripheral that takes no step the block is still there after any number of steps. -/
def Obligations.HangStaysInItsSpin : Prop :=
  ∀ (s : State) (p : SpinPos), s.block = .spinning p → s.params.accessPermitted = true → s.params.spinBound = none →
    (stuckAt p (gap s) → ∃ t, step s = .next t ∧ t.block = .spinning p.again ∧ t.result = s.result ∧
      t.requests = s.requests ∧ sameRegsBut [] (gap s) t ∧ t.accesses = s.accesses ++ [spinRead p (gap s)]) ∧
    (s.quiet → stuckAt p s → ∀ k, ∃ t q, runSteps k s = .next t ∧ t.block = .spinning q ∧ t.result = s.result ∧
      t.requests = s.requests ∧ sameRegsBut [] s t ∧ t.accesses = s.accesses ++ List.replicate k (spinRead p s))

/-- 60_exceptions.md R249: with SPIN_BOUND = some b, a spin that has now re-read b times without its exit condition raises Timeout,
and not sooner; MBREAD's reads TIMER first and leaves no lock. For every schedule, one re-read at a time; and, with a peripheral that
takes no step, from a spin that has re-read n < b times, after b - n more. And the first re-read, in the step that begins the
operation, counts as one: it raises Timeout at once if b is at most 1 and begins the spin otherwise, in MBREAD, RX, MBABORT, TX and
INIT, the writes before it standing. That INIT's soft-reset poll is bounded like the others is log 14, and that Timeout in MBABORT's
re-read acknowledges no flag is log 24. -/
def Obligations.SpinTimesOutAtTheBound : Prop :=
  (∀ (s : State) (p : SpinPos) (b : Nat), s.block = .spinning p → s.params.accessPermitted = true →
    s.params.spinBound = some b → p.count < b →
    (stuckAt p (gap s) →
      (p.count + 1 < b → ∃ t, step s = .next t ∧ t.block = .spinning p.again ∧ sameRegsBut [] (gap s) t ∧
        t.accesses = s.accesses ++ [spinRead p (gap s)]) ∧
      (p.count + 1 = b → ∃ t, step s = .next t ∧ t.block = .idle ∧ t.result = some (.err .timeout) ∧
        t.accesses = s.accesses ++ [spinRead p (gap s)] ++ timeoutLog p s ∧
        ((∃ c i n, p = .readBusy c i n) → t.lockedMb = none))) ∧
    (s.quiet → stuckAt p s →
      (∀ k, k < b - p.count → ∃ t q, runSteps k s = .next t ∧ t.block = .spinning q) ∧
      (∃ t, runSteps (b - p.count) s = .next t ∧ t.block = .idle ∧ t.result = some (.err .timeout) ∧
        sameRegsBut [.timer] s t ∧
        t.accesses = s.accesses ++ List.replicate (b - p.count) (spinRead p s) ++ timeoutLog p s))) ∧
  (∀ (s : State) (b : Nat), s.ready → s.quiet → s.params.spinBound = some b →
    let first := fun (o : Host.Outcome State Fault Refusal) (p : SpinPos) (changed : List Reg) (log : List Access) =>
      ∃ t, o = .next t ∧ sameRegsBut changed s t ∧
        (if b ≤ 1 then t.block = .idle ∧ t.result = some (.err .timeout) ∧ t.accesses = log ++ timeoutLog p s ∧
            ((∃ c i n, p = .readBusy c i n) → t.lockedMb = none)
          else t.block = .spinning p ∧ t.result = none ∧ t.accesses = log)
    let abortLog := fun (i : Fin 16) =>
      [.read (.mb i 0) (s.mb.get i).cs, .write .iflag1 (flagMask i), .write (.mb i 0) (withCode (s.mb.get i).cs 0b1001),
        .read .iflag1 (s.iflag &&& ~~~(1#32 <<< i.val))];
    (∀ i st, s.stateAt i = some st → st.isBusy = true →
      first (exec (.mbread (BitVec.ofNat 8 i.val)) s) (.readBusy .mbread i 1) [.timer] [.read (.mb i 0) (s.mb.get i).cs]) ∧
    (∀ i st, s.stateAt i = some st → st.isBusy = true → 8 ≤ i.val → flagSet s.iflag i = true →
      (∀ j : Fin 16, 8 ≤ j.val → j < i → flagSet s.iflag j = false) →
      first (exec .rx s) (.readBusy .rx i 1) [.timer] [.read .iflag1 s.iflag, .read (.mb i 0) (s.mb.get i).cs]) ∧
    (∀ i, s.codeAt i = 0b1100#4 →
      first (exec (.mbabort (BitVec.ofNat 8 i.val)) s) (.abortFlag .mbabort i 1) [.iflag1, .mb i 0] (abortLog i)) ∧
    (∀ f w, frameOperand s.operands.frame = some f → EvictionTarget s w f →
      first (exec .tx s) (.abortFlag (.tx f) w 1) [.iflag1, .mb w 0, .timer] (snapshotLog s ++ abortLog w)) ∧
    (∀ st clocks rest bt, s.requests = .init st clocks :: rest →
      checkedTiming { sel := st.clockSource, clocks := clocks, targetHz := st.canFrequency } = .ok bt → st.rxFifo = false →
      lpmAck s.mcr = false →
      first (step s) (.boot .disable1 1 bt st) [.mcr]
        [.read .mcr s.mcr, .write .mcr (s.mcr ||| 0x80000000), .read .mcr (s.mcr ||| 0x80000000)]))

/-! ### Invariants -/

/-- 10_state.md R34, R36; 48_peripheral_agent.md R211 to R227: whatever the caller asks and the peripheral does, every step keeps the
hidden state consistent with the mailbox codes and with the mode. -/
def Obligations.EveryStepKeepsTheHiddenInvariant : Prop :=
  ∀ s t : State, HiddenInv s → step s = .next t → HiddenInv t

/-- 10_state.md R27: every step keeps every mailbox in its index's role, INIT and evictions included, as long as the peripheral raises
no bus error and the caller writes no remote-answer code. -/
def Obligations.EveryStepKeepsTheMailboxRoles : Prop :=
  ∀ s t : State, RoleInv s → step s = .next t → RoleInv t

/-- 70_reset_and_hazards.md R275, R276: the launch state has the mailbox roles of 10_state.md R27. -/
def Obligations.LaunchStateHasTheMailboxRoles : Prop :=
  ∀ (bt : Timing) (st : Settings) (s : State), Launch bt st s → s.params.havocOnBusError = false →
    noAnswerHeader s.operands → (∀ r ∈ s.requests, r.noAnswer) → RoleInv s ∧ HiddenInv s

/-- 00_scope.md R2, R6: no step changes a parameter, and the caller's requests are taken in order, one at a time. -/
def Obligations.ParametersNeverChange : Prop :=
  ∀ s t : State, step s = .next t → t.params = s.params ∧ (t.requests = s.requests ∨ t.requests = s.requests.tail)
end

