-- ==== Sys2Proof/Laws/Bank.lean ====
section
/-! SUPPORT. Banks of 16 entries: reading after writing one entry, and mailboxes word by word. -/

namespace Sys2Proof.Machine

/-- Reading a bank after writing entry `i`. -/
theorem get_put {α : Type} (v : Vector α 16) (i j : Fin 16) (x : α) :
    (put v i x).get j = if i = j then x else v.get j := by
  simp only [put, Vector.get_eq_getElem, Vector.getElem_set, Fin.ext_iff]

@[simp] theorem get_put_self {α : Type} (v : Vector α 16) (i : Fin 16) (x : α) : (put v i x).get i = x := by
  simp [get_put]

@[simp] theorem get_put_ne {α : Type} (v : Vector α 16) {i j : Fin 16} (x : α) (h : i ≠ j) :
    (put v i x).get j = v.get j := by
  simp [get_put, h]

/-- Writing twice into one entry is writing once. -/
@[simp] theorem put_put {α : Type} (v : Vector α 16) (i : Fin 16) (x y : α) : put (put v i x) i y = put v i y := by
  simp [put, Vector.set_set]

/-- Writing back what an entry holds changes nothing. -/
@[simp] theorem put_get {α : Type} (v : Vector α 16) (i : Fin 16) : put v i (v.get i) = v := by
  simp [put, Vector.get_eq_getElem]

@[simp] theorem get_replicate {α : Type} (x : α) (i : Fin 16) : (Vector.replicate 16 x).get i = x := by
  simp [Vector.get_eq_getElem]

/-- Two banks with the same entries are the same bank. -/
theorem bank_ext {α : Type} {v w : Vector α 16} (h : ∀ i : Fin 16, v.get i = w.get i) : v = w := by
  apply Vector.ext
  intro i hi
  simpa [Vector.get_eq_getElem] using h ⟨i, hi⟩

@[simp] theorem Mailbox.word_zero (m : Mailbox) : m.word 0 = m.cs := rfl
@[simp] theorem Mailbox.word_one (m : Mailbox) : m.word 1 = m.idw := rfl
@[simp] theorem Mailbox.word_two (m : Mailbox) : m.word 2 = m.d0 := rfl
@[simp] theorem Mailbox.word_three (m : Mailbox) : m.word 3 = m.d1 := rfl

@[simp] theorem Mailbox.setWord_zero (m : Mailbox) (v : Word) : m.setWord 0 v = { m with cs := v } := rfl
@[simp] theorem Mailbox.setWord_one (m : Mailbox) (v : Word) : m.setWord 1 v = { m with idw := v } := rfl
@[simp] theorem Mailbox.setWord_two (m : Mailbox) (v : Word) : m.setWord 2 v = { m with d0 := v } := rfl
@[simp] theorem Mailbox.setWord_three (m : Mailbox) (v : Word) : m.setWord 3 v = { m with d1 := v } := rfl

/-- Reading a word of a mailbox after writing one. -/
theorem Mailbox.word_setWord (m : Mailbox) (w w' : Fin 4) (v : Word) :
    (m.setWord w v).word w' = if w = w' then v else m.word w' := by
  match w, w' with
  | 0, 0 | 0, 1 | 0, 2 | 0, 3 | 1, 0 | 1, 1 | 1, 2 | 1, 3 | 2, 0 | 2, 1 | 2, 2 | 2, 3 | 3, 0 | 3, 1 | 3, 2 | 3, 3 => rfl

/-- A mailbox is its four words. -/
theorem Mailbox.ext_words {m m' : Mailbox} (h : ∀ w, m.word w = m'.word w) : m = m' := by
  have h0 : m.cs = m'.cs := h 0
  have h1 : m.idw = m'.idw := h 1
  have h2 : m.d0 = m'.d0 := h 2
  have h3 : m.d1 = m'.d1 := h 3
  cases m; cases m'
  simp_all

end Sys2Proof.Machine
end

