-- ==== Sys2Proof/Laws/Fields.lean ====
section
/-! SUPPORT. The word layouts bit by bit: what each composed word holds at each bit, and what its fields read back as. -/

namespace Sys2Proof.Machine

/-- `b << i` bit by bit. -/
theorem getLsbD_bitAt (b : Bool) (i k : Nat) (hi : i < 32) : (bitAt b i).getLsbD k = (b && decide (k = i)) := by
  cases b with
  | false => simp [bitAt]
  | true =>
    simp only [bitAt, if_true, BitVec.getLsbD_shiftLeft, BitVec.getLsbD_one, Bool.true_and]
    by_cases h : k = i
    · subst h; simp [hi]
    · by_cases h' : k < i
      · simp [h, h']
      · have : k - i ≠ 0 := by omega
        simp [h, this]

/-- A field placed at bit `n`, bit by bit. -/
theorem getLsbD_place {w : Nat} (v : BitVec w) (n k : Nat) (hw : w + n ≤ 32) :
    ((v.setWidth 32 <<< n) : Word).getLsbD k = (decide (n ≤ k) && v.getLsbD (k - n)) := by
  rw [BitVec.getLsbD_shiftLeft, BitVec.getLsbD_setWidth]
  by_cases h1 : k < 32
  · by_cases h2 : k < n
    · simp [h1, h2, Nat.not_le.mpr h2]
    · have : n ≤ k := by omega
      have h3 : k - n < 32 := by omega
      simp [h1, h2, this, h3]
  · have : w ≤ k - n := by omega
    simp [h1, BitVec.getLsbD_of_ge _ _ this]

/-- CODE is replaced, every other bit is kept (42_mailbox_store.md R140). -/
theorem getLsbD_withCode (cs : Word) (p : BitVec 4) (k : Nat) :
    (withCode cs p).getLsbD k = if 24 ≤ k ∧ k < 28 then p.getLsbD (k - 24) else cs.getLsbD k := by
  rw [withCode, BitVec.getLsbD_or, BitVec.getLsbD_and, getLsbD_place p 24 k (by omega)]
  by_cases hk : k < 32
  · interval_cases k <;> simp
  · have h4 : 4 ≤ k - 24 := by omega
    simp [BitVec.getLsbD_of_ge _ _ h4, BitVec.getLsbD_of_ge _ _ (Nat.le_of_not_lt hk)]

/-- TIME_STAMP is replaced, every other bit is kept (10_state.md R24). -/
theorem getLsbD_withTimestamp (cs : Word) (t : BitVec 16) (k : Nat) :
    (withTimestamp cs t).getLsbD k = if k < 16 then t.getLsbD k else cs.getLsbD k := by
  rw [withTimestamp, BitVec.getLsbD_or, BitVec.getLsbD_and, BitVec.getLsbD_setWidth]
  by_cases hk : k < 32
  · interval_cases k <;> simp
  · have h16 : ¬ k < 16 := by omega
    simp [hk, h16, BitVec.getLsbD_of_ge _ _ (Nat.le_of_not_lt hk)]

/-- The CS word the block writes, bit by bit (42_mailbox_store.md R142). -/
theorem getLsbD_csWord (h : Header) (f : Frame) (k : Nat) :
    (csWord h f).getLsbD k =
      ((h.esi && decide (k = 29)) || (decide (24 ≤ k) && (encodeState h.code).getLsbD (k - 24)) || decide (k = 22) ||
        (f.id.isExtended && decide (k = 21)) || (f.isRemote && decide (k = 20)) ||
        (decide (16 ≤ k) && f.dlc.getLsbD (k - 16))) := by
  simp only [csWord, BitVec.getLsbD_or, getLsbD_place (encodeState h.code) 24 k (by omega),
    getLsbD_place f.dlc 16 k (by omega), getLsbD_bitAt _ 29 k (by omega), getLsbD_bitAt _ 22 k (by omega),
    getLsbD_bitAt _ 21 k (by omega), getLsbD_bitAt _ 20 k (by omega), Bool.true_and]

/-- CODE of a CS word bit by bit. -/
theorem getLsbD_codeOf (cs : Word) (k : Nat) : (codeOf cs).getLsbD k = (decide (k < 4) && cs.getLsbD (24 + k)) := by
  simp [codeOf, BitVec.getLsbD_extractLsb']

@[simp] theorem codeOf_withCode (cs : Word) (p : BitVec 4) : codeOf (withCode cs p) = p := by
  apply BitVec.eq_of_getLsbD_eq
  intro k hk
  rw [getLsbD_codeOf, getLsbD_withCode, if_pos ⟨by omega, by omega⟩]
  simp [hk]

@[simp] theorem codeOf_withTimestamp (cs : Word) (t : BitVec 16) : codeOf (withTimestamp cs t) = codeOf cs := by
  apply BitVec.eq_of_getLsbD_eq
  intro k hk
  rw [getLsbD_codeOf, getLsbD_codeOf, getLsbD_withTimestamp]
  simp [show ¬ 24 + k < 16 by omega]

@[simp] theorem codeOf_csWord (h : Header) (f : Frame) : codeOf (csWord h f) = encodeState h.code := by
  apply BitVec.eq_of_getLsbD_eq
  intro k hk
  rw [getLsbD_codeOf, getLsbD_csWord]
  have h1 : 4 ≤ 24 + k - 16 := by omega
  rw [BitVec.getLsbD_of_ge f.dlc _ h1]
  interval_cases k <;> simp

/-- CODE of a word that holds nothing but a code. -/
@[simp] theorem codeOf_place (p : BitVec 4) : codeOf (p.setWidth 32 <<< 24) = p := by
  apply BitVec.eq_of_getLsbD_eq
  intro k hk
  rw [getLsbD_codeOf, getLsbD_place p 24 _ (by omega)]
  simp [hk]

/-- CODE survives RX_WRITE (48_peripheral_agent.md R216). -/
@[simp] theorem codeOf_receivedCs (cs : Word) (f : Frame) (ts : BitVec 16) (srr : Bool) (dlc : BitVec 4) :
    codeOf (receivedCs cs f ts srr dlc) = codeOf cs := by
  apply BitVec.eq_of_getLsbD_eq
  intro k hk
  simp only [getLsbD_codeOf, receivedCs, BitVec.getLsbD_or, BitVec.getLsbD_and, BitVec.getLsbD_setWidth,
    getLsbD_place (receivedDlc f dlc) 16 _ (show 4 + 16 ≤ 32 by omega), getLsbD_bitAt _ 22 _ (show 22 < 32 by omega),
    getLsbD_bitAt _ 21 _ (show 21 < 32 by omega), getLsbD_bitAt _ 20 _ (show 20 < 32 by omega)]
  have h1 : 4 ≤ 24 + k - 16 := by omega
  rw [BitVec.getLsbD_of_ge (receivedDlc f dlc) _ h1]
  interval_cases k <;> simp

/-- The code of what MBINACT writes (42_mailbox_store.md R148). -/
theorem codeOf_inactiveCs (cs : Word) :
    codeOf (inactiveCs cs) =
      match decodeState (codeOf cs) with | some (.tx _) => 0b1000#4 | _ => 0b0000#4 := by
  unfold inactiveCs
  cases h : decodeState (codeOf cs) with
  | none => rfl
  | some st => cases st <;> exact codeOf_place _

/-! ### IFLAG1 and MCR -/

theorem getLsbD_flagMask (i : Fin 16) (k : Nat) : (flagMask i).getLsbD k = decide (k = i.val) := by
  have := getLsbD_bitAt true i.val k (by omega)
  simpa [flagMask, bitAt] using this

/-- The flag of mailbox `i` after the peripheral raised that of `j`. -/
theorem flagSet_raiseFlag (f : Word) (i j : Fin 16) : flagSet (raiseFlag f j) i = (flagSet f i || decide (i = j)) := by
  simp [flagSet, raiseFlag, getLsbD_flagMask, Fin.ext_iff]

/-- The flag of mailbox `i` after a write of the flag bit of `j`: write-1-to-clear (10_state.md R28). -/
theorem flagSet_iflagWrite (f : Word) (i j : Fin 16) :
    flagSet (iflagWrite f (flagMask j)) i = (flagSet f i && !decide (i = j)) := by
  have h32 : i.val < 32 := by omega
  simp only [flagSet, iflagWrite, BitVec.getLsbD_and, BitVec.getLsbD_not, getLsbD_flagMask, Fin.ext_iff, h32,
    decide_true, Bool.true_and]

/-- The read-only bits of MCR keep their values, every other bit is the one written (10_state.md R30). -/
theorem getLsbD_mcrWrite (old v : Word) (k : Nat) :
    (mcrWrite old v).getLsbD k = if k = 20 ∨ k = 24 then old.getLsbD k else v.getLsbD k := by
  rw [mcrWrite, BitVec.getLsbD_or, BitVec.getLsbD_and, BitVec.getLsbD_and]
  by_cases hk : k < 32
  · interval_cases k <;> simp
  · have : ¬ (k = 20 ∨ k = 24) := by omega
    simp [this, BitVec.getLsbD_of_ge _ _ (Nat.le_of_not_lt hk)]

@[simp] theorem lpmAck_mcrWrite (old v : Word) : lpmAck (mcrWrite old v) = lpmAck old := by
  rw [lpmAck, getLsbD_mcrWrite]; rfl
@[simp] theorem frzAck_mcrWrite (old v : Word) : frzAck (mcrWrite old v) = frzAck old := by
  rw [frzAck, getLsbD_mcrWrite]; rfl

theorem getLsbD_clearBit (w : Word) (i k : Nat) (hi : i < 32) :
    (clearBit w i).getLsbD k = (w.getLsbD k && !decide (k = i)) := by
  have hb := getLsbD_bitAt true i k hi
  simp only [bitAt, if_true, Bool.true_and] at hb
  rw [clearBit, BitVec.getLsbD_and, BitVec.getLsbD_not, hb]
  by_cases hk : k < 32
  · simp [hk]
  · simp [BitVec.getLsbD_of_ge w _ (Nat.le_of_not_lt hk)]

/-! ### The ID word -/

/-- The ID word bit by bit (42_mailbox_store.md R141). -/
theorem getLsbD_idWord_base (v : BitVec 11) (p : BitVec 3) (k : Nat) :
    (idWord (.base v) p).getLsbD k =
      ((decide (29 ≤ k) && p.getLsbD (k - 29)) || (decide (18 ≤ k) && v.getLsbD (k - 18))) := by
  rw [idWord, BitVec.getLsbD_or, getLsbD_place p 29 k (by omega), idBits, getLsbD_place v 18 k (by omega)]

theorem getLsbD_idWord_extended (v : BitVec 29) (p : BitVec 3) (k : Nat) :
    (idWord (.extended v) p).getLsbD k = ((decide (29 ≤ k) && p.getLsbD (k - 29)) || v.getLsbD k) := by
  have hv : (v.setWidth 32 : Word).getLsbD k = v.getLsbD k := by
    rw [BitVec.getLsbD_setWidth]
    by_cases hk : k < 32
    · simp [hk]
    · simp [hk, BitVec.getLsbD_of_ge v k (by omega)]
  rw [idWord, BitVec.getLsbD_or, getLsbD_place p 29 k (by omega), idBits, hv]

end Sys2Proof.Machine
end

