-- ==== Sys2Proof/Laws/State.lean ====
section
/-! SUPPORT. One lemma per field per named update of the state, so that no later proof unfolds a record update. -/

namespace Sys2Proof.Machine

/-! ### `State.logged` -/

@[simp] theorem State.logged_mb (s : State) (a : Access) : (s.logged a).mb = s.mb := rfl
@[simp] theorem State.logged_iflag (s : State) (a : Access) : (s.logged a).iflag = s.iflag := rfl
@[simp] theorem State.logged_timer (s : State) (a : Access) : (s.logged a).timer = s.timer := rfl
@[simp] theorem State.logged_mcr (s : State) (a : Access) : (s.logged a).mcr = s.mcr := rfl
@[simp] theorem State.logged_ctrl1 (s : State) (a : Access) : (s.logged a).ctrl1 = s.ctrl1 := rfl
@[simp] theorem State.logged_rxmgmask (s : State) (a : Access) : (s.logged a).rxmgmask = s.rxmgmask := rfl
@[simp] theorem State.logged_lockedMb (s : State) (a : Access) : (s.logged a).lockedMb = s.lockedMb := rfl
@[simp] theorem State.logged_abortReq (s : State) (a : Access) : (s.logged a).abortReq = s.abortReq := rfl
@[simp] theorem State.logged_lateTx (s : State) (a : Access) : (s.logged a).lateTx = s.lateTx := rfl
@[simp] theorem State.logged_rxStage (s : State) (a : Access) : (s.logged a).rxStage = s.rxStage := rfl
@[simp] theorem State.logged_block (s : State) (a : Access) : (s.logged a).block = s.block := rfl
@[simp] theorem State.logged_operands (s : State) (a : Access) : (s.logged a).operands = s.operands := rfl
@[simp] theorem State.logged_result (s : State) (a : Access) : (s.logged a).result = s.result := rfl
@[simp] theorem State.logged_params (s : State) (a : Access) : (s.logged a).params = s.params := rfl
@[simp] theorem State.logged_requests (s : State) (a : Access) : (s.logged a).requests = s.requests := rfl
@[simp] theorem State.logged_schedule (s : State) (a : Access) : (s.logged a).schedule = s.schedule := rfl
@[simp] theorem State.logged_draws (s : State) (a : Access) : (s.logged a).draws = s.draws := rfl
@[simp] theorem State.logged_accesses (s : State) (a : Access) : (s.logged a).accesses = s.accesses ++ [a] := rfl

/-! ### `State.started` -/

@[simp] theorem State.started_mb (s : State) : s.started.mb = s.mb := rfl
@[simp] theorem State.started_iflag (s : State) : s.started.iflag = s.iflag := rfl
@[simp] theorem State.started_timer (s : State) : s.started.timer = s.timer := rfl
@[simp] theorem State.started_mcr (s : State) : s.started.mcr = s.mcr := rfl
@[simp] theorem State.started_ctrl1 (s : State) : s.started.ctrl1 = s.ctrl1 := rfl
@[simp] theorem State.started_rxmgmask (s : State) : s.started.rxmgmask = s.rxmgmask := rfl
@[simp] theorem State.started_lockedMb (s : State) : s.started.lockedMb = s.lockedMb := rfl
@[simp] theorem State.started_abortReq (s : State) : s.started.abortReq = s.abortReq := rfl
@[simp] theorem State.started_lateTx (s : State) : s.started.lateTx = s.lateTx := rfl
@[simp] theorem State.started_rxStage (s : State) : s.started.rxStage = s.rxStage := rfl
@[simp] theorem State.started_block (s : State) : s.started.block = s.block := rfl
@[simp] theorem State.started_operands (s : State) : s.started.operands = s.operands := rfl
@[simp] theorem State.started_result (s : State) : s.started.result = none := rfl
@[simp] theorem State.started_params (s : State) : s.started.params = s.params := rfl
@[simp] theorem State.started_requests (s : State) : s.started.requests = s.requests := rfl
@[simp] theorem State.started_schedule (s : State) : s.started.schedule = s.schedule := rfl
@[simp] theorem State.started_draws (s : State) : s.started.draws = s.draws := rfl
@[simp] theorem State.started_accesses (s : State) : s.started.accesses = [] := rfl

/-! ### `State.finished` -/

@[simp] theorem State.finished_mb (s : State) (r : Result) : (s.finished r).mb = s.mb := rfl
@[simp] theorem State.finished_iflag (s : State) (r : Result) : (s.finished r).iflag = s.iflag := rfl
@[simp] theorem State.finished_timer (s : State) (r : Result) : (s.finished r).timer = s.timer := rfl
@[simp] theorem State.finished_mcr (s : State) (r : Result) : (s.finished r).mcr = s.mcr := rfl
@[simp] theorem State.finished_ctrl1 (s : State) (r : Result) : (s.finished r).ctrl1 = s.ctrl1 := rfl
@[simp] theorem State.finished_rxmgmask (s : State) (r : Result) : (s.finished r).rxmgmask = s.rxmgmask := rfl
@[simp] theorem State.finished_lockedMb (s : State) (r : Result) : (s.finished r).lockedMb = s.lockedMb := rfl
@[simp] theorem State.finished_abortReq (s : State) (r : Result) : (s.finished r).abortReq = s.abortReq := rfl
@[simp] theorem State.finished_lateTx (s : State) (r : Result) : (s.finished r).lateTx = s.lateTx := rfl
@[simp] theorem State.finished_rxStage (s : State) (r : Result) : (s.finished r).rxStage = s.rxStage := rfl
@[simp] theorem State.finished_block (s : State) (r : Result) : (s.finished r).block = .idle := rfl
@[simp] theorem State.finished_operands (s : State) (r : Result) : (s.finished r).operands = s.operands := rfl
@[simp] theorem State.finished_result (s : State) (r : Result) : (s.finished r).result = some r := rfl
@[simp] theorem State.finished_params (s : State) (r : Result) : (s.finished r).params = s.params := rfl
@[simp] theorem State.finished_requests (s : State) (r : Result) : (s.finished r).requests = s.requests := rfl
@[simp] theorem State.finished_schedule (s : State) (r : Result) : (s.finished r).schedule = s.schedule := rfl
@[simp] theorem State.finished_draws (s : State) (r : Result) : (s.finished r).draws = s.draws := rfl
@[simp] theorem State.finished_accesses (s : State) (r : Result) : (s.finished r).accesses = s.accesses := rfl

/-! ### `State.suspended` -/

@[simp] theorem State.suspended_mb (s : State) (p : SpinPos) : (s.suspended p).mb = s.mb := rfl
@[simp] theorem State.suspended_iflag (s : State) (p : SpinPos) : (s.suspended p).iflag = s.iflag := rfl
@[simp] theorem State.suspended_timer (s : State) (p : SpinPos) : (s.suspended p).timer = s.timer := rfl
@[simp] theorem State.suspended_mcr (s : State) (p : SpinPos) : (s.suspended p).mcr = s.mcr := rfl
@[simp] theorem State.suspended_ctrl1 (s : State) (p : SpinPos) : (s.suspended p).ctrl1 = s.ctrl1 := rfl
@[simp] theorem State.suspended_rxmgmask (s : State) (p : SpinPos) : (s.suspended p).rxmgmask = s.rxmgmask := rfl
@[simp] theorem State.suspended_lockedMb (s : State) (p : SpinPos) : (s.suspended p).lockedMb = s.lockedMb := rfl
@[simp] theorem State.suspended_abortReq (s : State) (p : SpinPos) : (s.suspended p).abortReq = s.abortReq := rfl
@[simp] theorem State.suspended_lateTx (s : State) (p : SpinPos) : (s.suspended p).lateTx = s.lateTx := rfl
@[simp] theorem State.suspended_rxStage (s : State) (p : SpinPos) : (s.suspended p).rxStage = s.rxStage := rfl
@[simp] theorem State.suspended_block (s : State) (p : SpinPos) : (s.suspended p).block = .spinning p := rfl
@[simp] theorem State.suspended_operands (s : State) (p : SpinPos) : (s.suspended p).operands = s.operands := rfl
@[simp] theorem State.suspended_result (s : State) (p : SpinPos) : (s.suspended p).result = s.result := rfl
@[simp] theorem State.suspended_params (s : State) (p : SpinPos) : (s.suspended p).params = s.params := rfl
@[simp] theorem State.suspended_requests (s : State) (p : SpinPos) : (s.suspended p).requests = s.requests := rfl
@[simp] theorem State.suspended_schedule (s : State) (p : SpinPos) : (s.suspended p).schedule = s.schedule := rfl
@[simp] theorem State.suspended_draws (s : State) (p : SpinPos) : (s.suspended p).draws = s.draws := rfl
@[simp] theorem State.suspended_accesses (s : State) (p : SpinPos) : (s.suspended p).accesses = s.accesses := rfl

/-! ### `State.drawTimer` -/

@[simp] theorem State.drawTimer_mb (s : State) : s.drawTimer.mb = s.mb := rfl
@[simp] theorem State.drawTimer_iflag (s : State) : s.drawTimer.iflag = s.iflag := rfl
@[simp] theorem State.drawTimer_timer (s : State) : s.drawTimer.timer = Config.freeTimer s.draws := rfl
@[simp] theorem State.drawTimer_mcr (s : State) : s.drawTimer.mcr = s.mcr := rfl
@[simp] theorem State.drawTimer_ctrl1 (s : State) : s.drawTimer.ctrl1 = s.ctrl1 := rfl
@[simp] theorem State.drawTimer_rxmgmask (s : State) : s.drawTimer.rxmgmask = s.rxmgmask := rfl
@[simp] theorem State.drawTimer_lockedMb (s : State) : s.drawTimer.lockedMb = none := rfl
@[simp] theorem State.drawTimer_abortReq (s : State) : s.drawTimer.abortReq = s.abortReq := rfl
@[simp] theorem State.drawTimer_lateTx (s : State) : s.drawTimer.lateTx = s.lateTx := rfl
@[simp] theorem State.drawTimer_rxStage (s : State) : s.drawTimer.rxStage = s.rxStage := rfl
@[simp] theorem State.drawTimer_block (s : State) : s.drawTimer.block = s.block := rfl
@[simp] theorem State.drawTimer_operands (s : State) : s.drawTimer.operands = s.operands := rfl
@[simp] theorem State.drawTimer_result (s : State) : s.drawTimer.result = s.result := rfl
@[simp] theorem State.drawTimer_params (s : State) : s.drawTimer.params = s.params := rfl
@[simp] theorem State.drawTimer_requests (s : State) : s.drawTimer.requests = s.requests := rfl
@[simp] theorem State.drawTimer_schedule (s : State) : s.drawTimer.schedule = s.schedule := rfl
@[simp] theorem State.drawTimer_draws (s : State) : s.drawTimer.draws = s.draws + 1 := rfl
@[simp] theorem State.drawTimer_accesses (s : State) : s.drawTimer.accesses = s.accesses := rfl

/-! ### `State.setMailbox` -/

@[simp] theorem State.setMailbox_mb (s : State) (i : Fin 16) (m : Mailbox) : (s.setMailbox i m).mb = put s.mb i m := rfl
@[simp] theorem State.setMailbox_iflag (s : State) (i : Fin 16) (m : Mailbox) : (s.setMailbox i m).iflag = s.iflag := rfl
@[simp] theorem State.setMailbox_timer (s : State) (i : Fin 16) (m : Mailbox) : (s.setMailbox i m).timer = s.timer := rfl
@[simp] theorem State.setMailbox_mcr (s : State) (i : Fin 16) (m : Mailbox) : (s.setMailbox i m).mcr = s.mcr := rfl
@[simp] theorem State.setMailbox_ctrl1 (s : State) (i : Fin 16) (m : Mailbox) : (s.setMailbox i m).ctrl1 = s.ctrl1 := rfl
@[simp] theorem State.setMailbox_rxmgmask (s : State) (i : Fin 16) (m : Mailbox) : (s.setMailbox i m).rxmgmask = s.rxmgmask := rfl
@[simp] theorem State.setMailbox_lockedMb (s : State) (i : Fin 16) (m : Mailbox) : (s.setMailbox i m).lockedMb = s.lockedMb := rfl
@[simp] theorem State.setMailbox_abortReq (s : State) (i : Fin 16) (m : Mailbox) : (s.setMailbox i m).abortReq = s.abortReq := rfl
@[simp] theorem State.setMailbox_lateTx (s : State) (i : Fin 16) (m : Mailbox) : (s.setMailbox i m).lateTx = s.lateTx := rfl
@[simp] theorem State.setMailbox_rxStage (s : State) (i : Fin 16) (m : Mailbox) : (s.setMailbox i m).rxStage = s.rxStage := rfl
@[simp] theorem State.setMailbox_block (s : State) (i : Fin 16) (m : Mailbox) : (s.setMailbox i m).block = s.block := rfl
@[simp] theorem State.setMailbox_operands (s : State) (i : Fin 16) (m : Mailbox) : (s.setMailbox i m).operands = s.operands := rfl
@[simp] theorem State.setMailbox_result (s : State) (i : Fin 16) (m : Mailbox) : (s.setMailbox i m).result = s.result := rfl
@[simp] theorem State.setMailbox_params (s : State) (i : Fin 16) (m : Mailbox) : (s.setMailbox i m).params = s.params := rfl
@[simp] theorem State.setMailbox_requests (s : State) (i : Fin 16) (m : Mailbox) : (s.setMailbox i m).requests = s.requests := rfl
@[simp] theorem State.setMailbox_schedule (s : State) (i : Fin 16) (m : Mailbox) : (s.setMailbox i m).schedule = s.schedule := rfl
@[simp] theorem State.setMailbox_draws (s : State) (i : Fin 16) (m : Mailbox) : (s.setMailbox i m).draws = s.draws := rfl
@[simp] theorem State.setMailbox_accesses (s : State) (i : Fin 16) (m : Mailbox) : (s.setMailbox i m).accesses = s.accesses := rfl

/-! ### `State.setCs` -/

@[simp] theorem State.setCs_mb (s : State) (i : Fin 16) (v : Word) : (s.setCs i v).mb = put s.mb i { s.mb.get i with cs := v } := rfl
@[simp] theorem State.setCs_iflag (s : State) (i : Fin 16) (v : Word) : (s.setCs i v).iflag = s.iflag := rfl
@[simp] theorem State.setCs_timer (s : State) (i : Fin 16) (v : Word) : (s.setCs i v).timer = s.timer := rfl
@[simp] theorem State.setCs_mcr (s : State) (i : Fin 16) (v : Word) : (s.setCs i v).mcr = s.mcr := rfl
@[simp] theorem State.setCs_ctrl1 (s : State) (i : Fin 16) (v : Word) : (s.setCs i v).ctrl1 = s.ctrl1 := rfl
@[simp] theorem State.setCs_rxmgmask (s : State) (i : Fin 16) (v : Word) : (s.setCs i v).rxmgmask = s.rxmgmask := rfl
@[simp] theorem State.setCs_lockedMb (s : State) (i : Fin 16) (v : Word) : (s.setCs i v).lockedMb = s.lockedMb := rfl
@[simp] theorem State.setCs_abortReq (s : State) (i : Fin 16) (v : Word) : (s.setCs i v).abortReq = s.abortReq := rfl
@[simp] theorem State.setCs_lateTx (s : State) (i : Fin 16) (v : Word) : (s.setCs i v).lateTx = s.lateTx := rfl
@[simp] theorem State.setCs_rxStage (s : State) (i : Fin 16) (v : Word) : (s.setCs i v).rxStage = s.rxStage := rfl
@[simp] theorem State.setCs_block (s : State) (i : Fin 16) (v : Word) : (s.setCs i v).block = s.block := rfl
@[simp] theorem State.setCs_operands (s : State) (i : Fin 16) (v : Word) : (s.setCs i v).operands = s.operands := rfl
@[simp] theorem State.setCs_result (s : State) (i : Fin 16) (v : Word) : (s.setCs i v).result = s.result := rfl
@[simp] theorem State.setCs_params (s : State) (i : Fin 16) (v : Word) : (s.setCs i v).params = s.params := rfl
@[simp] theorem State.setCs_requests (s : State) (i : Fin 16) (v : Word) : (s.setCs i v).requests = s.requests := rfl
@[simp] theorem State.setCs_schedule (s : State) (i : Fin 16) (v : Word) : (s.setCs i v).schedule = s.schedule := rfl
@[simp] theorem State.setCs_draws (s : State) (i : Fin 16) (v : Word) : (s.setCs i v).draws = s.draws := rfl
@[simp] theorem State.setCs_accesses (s : State) (i : Fin 16) (v : Word) : (s.setCs i v).accesses = s.accesses := rfl

/-! ### `State.flagRaised` -/

@[simp] theorem State.flagRaised_mb (s : State) (i : Fin 16) : (s.flagRaised i).mb = s.mb := rfl
@[simp] theorem State.flagRaised_iflag (s : State) (i : Fin 16) : (s.flagRaised i).iflag = raiseFlag s.iflag i := rfl
@[simp] theorem State.flagRaised_timer (s : State) (i : Fin 16) : (s.flagRaised i).timer = s.timer := rfl
@[simp] theorem State.flagRaised_mcr (s : State) (i : Fin 16) : (s.flagRaised i).mcr = s.mcr := rfl
@[simp] theorem State.flagRaised_ctrl1 (s : State) (i : Fin 16) : (s.flagRaised i).ctrl1 = s.ctrl1 := rfl
@[simp] theorem State.flagRaised_rxmgmask (s : State) (i : Fin 16) : (s.flagRaised i).rxmgmask = s.rxmgmask := rfl
@[simp] theorem State.flagRaised_lockedMb (s : State) (i : Fin 16) : (s.flagRaised i).lockedMb = s.lockedMb := rfl
@[simp] theorem State.flagRaised_abortReq (s : State) (i : Fin 16) : (s.flagRaised i).abortReq = s.abortReq := rfl
@[simp] theorem State.flagRaised_lateTx (s : State) (i : Fin 16) : (s.flagRaised i).lateTx = s.lateTx := rfl
@[simp] theorem State.flagRaised_rxStage (s : State) (i : Fin 16) : (s.flagRaised i).rxStage = s.rxStage := rfl
@[simp] theorem State.flagRaised_block (s : State) (i : Fin 16) : (s.flagRaised i).block = s.block := rfl
@[simp] theorem State.flagRaised_operands (s : State) (i : Fin 16) : (s.flagRaised i).operands = s.operands := rfl
@[simp] theorem State.flagRaised_result (s : State) (i : Fin 16) : (s.flagRaised i).result = s.result := rfl
@[simp] theorem State.flagRaised_params (s : State) (i : Fin 16) : (s.flagRaised i).params = s.params := rfl
@[simp] theorem State.flagRaised_requests (s : State) (i : Fin 16) : (s.flagRaised i).requests = s.requests := rfl
@[simp] theorem State.flagRaised_schedule (s : State) (i : Fin 16) : (s.flagRaised i).schedule = s.schedule := rfl
@[simp] theorem State.flagRaised_draws (s : State) (i : Fin 16) : (s.flagRaised i).draws = s.draws := rfl
@[simp] theorem State.flagRaised_accesses (s : State) (i : Fin 16) : (s.flagRaised i).accesses = s.accesses := rfl

/-! ### `State.withOperands` -/

@[simp] theorem State.withOperands_mb (s : State) (o : OperandPort) : (s.withOperands o).mb = s.mb := rfl
@[simp] theorem State.withOperands_iflag (s : State) (o : OperandPort) : (s.withOperands o).iflag = s.iflag := rfl
@[simp] theorem State.withOperands_timer (s : State) (o : OperandPort) : (s.withOperands o).timer = s.timer := rfl
@[simp] theorem State.withOperands_mcr (s : State) (o : OperandPort) : (s.withOperands o).mcr = s.mcr := rfl
@[simp] theorem State.withOperands_ctrl1 (s : State) (o : OperandPort) : (s.withOperands o).ctrl1 = s.ctrl1 := rfl
@[simp] theorem State.withOperands_rxmgmask (s : State) (o : OperandPort) : (s.withOperands o).rxmgmask = s.rxmgmask := rfl
@[simp] theorem State.withOperands_lockedMb (s : State) (o : OperandPort) : (s.withOperands o).lockedMb = s.lockedMb := rfl
@[simp] theorem State.withOperands_abortReq (s : State) (o : OperandPort) : (s.withOperands o).abortReq = s.abortReq := rfl
@[simp] theorem State.withOperands_lateTx (s : State) (o : OperandPort) : (s.withOperands o).lateTx = s.lateTx := rfl
@[simp] theorem State.withOperands_rxStage (s : State) (o : OperandPort) : (s.withOperands o).rxStage = s.rxStage := rfl
@[simp] theorem State.withOperands_block (s : State) (o : OperandPort) : (s.withOperands o).block = s.block := rfl
@[simp] theorem State.withOperands_operands (s : State) (o : OperandPort) : (s.withOperands o).operands = o := rfl
@[simp] theorem State.withOperands_result (s : State) (o : OperandPort) : (s.withOperands o).result = s.result := rfl
@[simp] theorem State.withOperands_params (s : State) (o : OperandPort) : (s.withOperands o).params = s.params := rfl
@[simp] theorem State.withOperands_requests (s : State) (o : OperandPort) : (s.withOperands o).requests = s.requests := rfl
@[simp] theorem State.withOperands_schedule (s : State) (o : OperandPort) : (s.withOperands o).schedule = s.schedule := rfl
@[simp] theorem State.withOperands_draws (s : State) (o : OperandPort) : (s.withOperands o).draws = s.draws := rfl
@[simp] theorem State.withOperands_accesses (s : State) (o : OperandPort) : (s.withOperands o).accesses = s.accesses := rfl

end Sys2Proof.Machine
end

