-- ==== Sys2Proof/Laws/Ops.lean ====
section
/-! SUPPORT. One lemma for each shared operation that says once what it does: sequencing, the address map, an access, the
peripheral's turn, and the beginning and end of an operation. -/

namespace Sys2Proof.Machine

/-! ### Sequencing -/

@[simp] theorem Res.bind_ok {α β : Type} (a : α) (s : State) (f : α → State → Res β) : (Res.ok a s).bind f = f a s := rfl
@[simp] theorem Res.bind_err {α β : Type} (e : Err) (s : State) (f : α → State → Res β) :
    (Res.err e s : Res α).bind f = .err e s := rfl
@[simp] theorem Res.bind_wait {α β : Type} (p : SpinPos) (s : State) (f : α → State → Res β) :
    (Res.wait p s : Res α).bind f = .wait p s := rfl
@[simp] theorem Res.bind_refused {α β : Type} (r : Refusal) (f : α → State → Res β) :
    (Res.refused r : Res α).bind f = .refused r := rfl
@[simp] theorem raise_eq {α : Type} (e : Err) (s : State) : (raise e s : Res α) = .err e s := rfl

/-- Sequencing is associative. -/
theorem Res.bind_assoc {α β γ : Type} (r : Res α) (f : α → State → Res β) (g : β → State → Res γ) :
    (r.bind f).bind g = r.bind fun a s => (f a s).bind g := by
  cases r <;> rfl

/-! ### The peripheral's turn -/

/-- A scheduled step either does not happen or is enabled and takes its effect. -/
theorem takeEvent_cases (s : State) (e : Event) :
    takeEvent s e = s ∨ (enabled e s = true ∧ takeEvent s e = effect e s) := by
  unfold takeEvent
  by_cases h : enabled e s = true
  · exact .inr ⟨h, if_pos h⟩
  · exact .inl (if_neg h)

/-- What holds before a point of the peripheral and is kept by each of its steps and by the schedule moving on holds after it. -/
theorem gap_keeps (P : State → Prop) (hs : ∀ s sch, P s → P { s with schedule := sch })
    (he : ∀ s e, enabled e s = true → P s → P (effect e s)) {s : State} (h : P s) : P (gap s) := by
  have key : ∀ (es : List Event) (s : State), P s → P (es.foldl takeEvent s) := by
    intro es
    induction es with
    | nil => exact fun s h => h
    | cons e es ih =>
      intro s h
      apply ih
      rcases takeEvent_cases s e with h' | ⟨hen, h'⟩ <;> rw [h']
      · exact h
      · exact he s e hen h
  unfold gap
  split
  · exact h
  · exact key _ _ (hs _ _ h)

/-- A quiet peripheral takes no step: only the schedule moves on. -/
theorem gap_quiet {s : State} (h : s.quiet) : gap s = { s with schedule := s.schedule.tail } := by
  unfold gap
  split
  · next h' => cases s; simp_all
  · next es rest h' =>
    have : es = [] := h es (by simp [h'])
    simp [this, h']

/-- A state stays quiet as its schedule moves on. -/
theorem quiet_tail {s : State} (h : s.quiet) : State.quiet { s with schedule := s.schedule.tail } :=
  fun es he => h es (List.mem_of_mem_tail he)

/-- The fields of the state that no peripheral step touches: the block's, the caller's and the model's own. -/
structure SameBlockSide (s t : State) : Prop where
  timer : t.timer = s.timer
  block : t.block = s.block
  operands : t.operands = s.operands
  result : t.result = s.result
  params : t.params = s.params
  requests : t.requests = s.requests
  draws : t.draws = s.draws
  accesses : t.accesses = s.accesses

theorem SameBlockSide.refl (s : State) : SameBlockSide s s := ⟨rfl, rfl, rfl, rfl, rfl, rfl, rfl, rfl⟩

theorem SameBlockSide.trans {s t u : State} (h : SameBlockSide s t) (k : SameBlockSide t u) : SameBlockSide s u :=
  ⟨k.timer.trans h.timer, k.block.trans h.block, k.operands.trans h.operands,
    k.result.trans h.result, k.params.trans h.params, k.requests.trans h.requests, k.draws.trans h.draws,
    k.accesses.trans h.accesses⟩

/-- A peripheral step's effect touches the peripheral's side of the state only, and not the schedule. -/
theorem effect_blockSide (e : Event) (s : State) : SameBlockSide s (effect e s) ∧ (effect e s).schedule = s.schedule := by
  cases e with
  | abortResolve i sent ts => cases sent <;> exact ⟨⟨rfl, rfl, rfl, rfl, rfl, rfl, rfl, rfl⟩, rfl⟩
  | busError i code f => cases f <;> exact ⟨⟨rfl, rfl, rfl, rfl, rfl, rfl, rfl, rfl⟩, rfl⟩
  | rxWrite i prio srr dlc p0 p1 =>
    simp only [effect, rxWriteEffect]
    split <;> exact ⟨⟨rfl, rfl, rfl, rfl, rfl, rfl, rfl, rfl⟩, rfl⟩
  | rxEnd i =>
    simp only [effect, rxEndEffect]
    split <;> exact ⟨⟨rfl, rfl, rfl, rfl, rfl, rfl, rfl, rfl⟩, rfl⟩
  | _ => exact ⟨⟨rfl, rfl, rfl, rfl, rfl, rfl, rfl, rfl⟩, rfl⟩

/-- The peripheral's turn touches the peripheral's side of the state only. -/
theorem gap_blockSide (s : State) : SameBlockSide s (gap s) := by
  refine gap_keeps (fun t => SameBlockSide s t) (fun t sch h => ?_) (fun t e _ h => ?_) (SameBlockSide.refl s)
  · exact ⟨h.timer, h.block, h.operands, h.result, h.params, h.requests, h.draws, h.accesses⟩
  · exact h.trans (effect_blockSide e t).1

@[simp] theorem gap_params (s : State) : (gap s).params = s.params := (gap_blockSide s).params
@[simp] theorem gap_block (s : State) : (gap s).block = s.block := (gap_blockSide s).block
@[simp] theorem gap_accesses (s : State) : (gap s).accesses = s.accesses := (gap_blockSide s).accesses
@[simp] theorem gap_operands (s : State) : (gap s).operands = s.operands := (gap_blockSide s).operands
@[simp] theorem gap_result (s : State) : (gap s).result = s.result := (gap_blockSide s).result
@[simp] theorem gap_requests (s : State) : (gap s).requests = s.requests := (gap_blockSide s).requests
@[simp] theorem gap_draws (s : State) : (gap s).draws = s.draws := (gap_blockSide s).draws
@[simp] theorem gap_timer (s : State) : (gap s).timer = s.timer := (gap_blockSide s).timer

/-- A peripheral step leaves the mailbox lock, or releases it: SOFTRST_DONE alone does (log 22). -/
theorem effect_lockedMb (e : Event) (s : State) : (effect e s).lockedMb = s.lockedMb ∨ (effect e s).lockedMb = none := by
  cases e with
  | abortResolve i sent ts => cases sent <;> exact .inl rfl
  | busError i code f => cases f <;> exact .inl rfl
  | rxWrite i prio srr dlc p0 p1 =>
    simp only [effect, rxWriteEffect]
    split <;> exact .inl rfl
  | rxEnd i =>
    simp only [effect, rxEndEffect]
    split <;> exact .inl rfl
  | softRstDone m c f r => exact .inr rfl
  | _ => exact .inl rfl

/-- The peripheral's turn never sets a mailbox lock. -/
theorem gap_lockedMb (s : State) : (gap s).lockedMb = s.lockedMb ∨ (gap s).lockedMb = none := by
  refine gap_keeps (fun t => t.lockedMb = s.lockedMb ∨ t.lockedMb = none) (fun t sch h => h) (fun t e _ h => ?_) (.inl rfl)
  rcases effect_lockedMb e t with k | k
  · rw [k]; exact h
  · exact .inr k

/-- A peripheral step does not see the record of the current operation. -/
theorem takeEvent_started (e : Event) (s : State) : takeEvent s.started e = (takeEvent s e).started := by
  have he : enabled e s.started = enabled e s := by cases e <;> rfl
  unfold takeEvent
  rw [he]
  split
  · cases e with
    | abortResolve i sent ts => cases sent <;> rfl
    | busError i code f => cases f <;> rfl
    | rxWrite i prio srr dlc p0 p1 =>
      simp only [effect, rxWriteEffect, State.started_rxStage]
      split <;> rfl
    | rxEnd i =>
      simp only [effect, rxEndEffect, State.started_rxStage]
      split <;> rfl
    | _ => rfl
  · rfl

/-- The peripheral's turn does not see the record of the current operation. -/
theorem gap_started (s : State) : gap s.started = (gap s).started := by
  have key : ∀ (es : List Event) (t : State), es.foldl takeEvent t.started = (es.foldl takeEvent t).started := by
    intro es
    induction es with
    | nil => exact fun t => rfl
    | cons e es ih => intro t; rw [List.foldl_cons, List.foldl_cons, takeEvent_started, ih]
  unfold gap
  rw [State.started_schedule]
  split
  · rfl
  · exact key _ { s with schedule := _ }

/-! ### The address map -/

theorem regAtOffset_regOffset (r : Reg) : regAtOffset (regOffset r).toNat = some r := by
  cases r with
  | mb i w =>
    revert i w
    decide
  | _ => decide

/-- The address of a register selects it, wherever CAN_BASE is. -/
@[simp] theorem regAt_regAddr (p : Config.Params) (r : Reg) : regAt p (regAddr p r) = some r := by
  have : regAddr p r - canBase p = regOffset r := by
    rw [regAddr, BitVec.add_comm, BitVec.add_sub_cancel]
  rw [regAt, this, regAtOffset_regOffset]

/-- The address of a register is a multiple of 4. -/
@[simp] theorem regAddr_aligned (p : Config.Params) (r : Reg) : (regAddr p r).extractLsb' 0 2 = 0#2 := by
  have h1 : (canBase p).toNat % 4 = 0 := by
    rw [canBase, BitVec.toNat_append]
    have h0 : (0 : BitVec 2).toNat = 0 := rfl
    rw [h0, Nat.or_zero, Nat.shiftLeft_eq]
    omega
  have h2 : (regOffset r).toNat % 4 = 0 := by
    cases r with
    | mb i w => revert i w; decide
    | _ => decide
  apply BitVec.eq_of_toNat_eq
  simp only [regAddr, BitVec.extractLsb'_toNat, BitVec.toNat_add]
  simp only [Nat.shiftRight_zero, BitVec.toNat_ofNat]
  omega

/-! ### An access -/

/-- A read of a register: the peripheral's turn, then the side effect and the value. -/
theorem readReg_eq (r : Reg) {s : State} (h : s.params.accessPermitted = true) : readReg r s = doRead r (gap s) := by
  simp [readReg, memRead, access, h]

/-- A write of a register: the peripheral's turn, then the effect. -/
theorem writeReg_eq (r : Reg) (v : Word) {s : State} (h : s.params.accessPermitted = true) :
    writeReg r v s = doWrite r v (gap s) := by
  simp [writeReg, memWrite, access, h]

/-- Without permission an access is refused. -/
theorem readReg_forbidden (r : Reg) {s : State} (h : s.params.accessPermitted = false) :
    readReg r s = .refused .accessNotPermitted := by
  simp [readReg, memRead, access, h]

theorem writeReg_forbidden (r : Reg) (v : Word) {s : State} (h : s.params.accessPermitted = false) :
    writeReg r v s = .refused .accessNotPermitted := by
  simp [writeReg, memWrite, access, h]

/-- A read whose register has no read effect. -/
@[simp] theorem doRead_iflag1 (s : State) : doRead .iflag1 s = .ok s.iflag (s.logged (.read .iflag1 s.iflag)) := rfl
@[simp] theorem doRead_mcr (s : State) : doRead .mcr s = .ok s.mcr (s.logged (.read .mcr s.mcr)) := rfl
@[simp] theorem doRead_ctrl1 (s : State) : doRead .ctrl1 s = .ok s.ctrl1 (s.logged (.read .ctrl1 s.ctrl1)) := rfl
@[simp] theorem doRead_timer (s : State) :
    doRead .timer s = .ok ((Config.freeTimer s.draws).setWidth 32)
      (s.drawTimer.logged (.read .timer ((Config.freeTimer s.draws).setWidth 32))) := rfl
@[simp] theorem doRead_cs (i : Fin 16) (s : State) :
    doRead (.mb i 0) s = .ok (s.mb.get i).cs
      (State.logged { s with lockedMb := some i } (.read (.mb i 0) (s.mb.get i).cs)) := rfl
@[simp] theorem doRead_idw (i : Fin 16) (s : State) :
    doRead (.mb i 1) s = .ok (s.mb.get i).idw (s.logged (.read (.mb i 1) (s.mb.get i).idw)) := rfl
@[simp] theorem doRead_d0 (i : Fin 16) (s : State) :
    doRead (.mb i 2) s = .ok (s.mb.get i).d0 (s.logged (.read (.mb i 2) (s.mb.get i).d0)) := rfl
@[simp] theorem doRead_d1 (i : Fin 16) (s : State) :
    doRead (.mb i 3) s = .ok (s.mb.get i).d1 (s.logged (.read (.mb i 3) (s.mb.get i).d1)) := rfl

@[simp] theorem doWrite_iflag1 (v : Word) (s : State) :
    doWrite .iflag1 v s = .ok () (State.logged { s with iflag := iflagWrite s.iflag v } (.write .iflag1 v)) := rfl
@[simp] theorem doWrite_mcr (v : Word) (s : State) :
    doWrite .mcr v s = .ok () (State.logged { s with mcr := mcrWrite s.mcr v } (.write .mcr v)) := rfl
@[simp] theorem doWrite_ctrl1 (v : Word) (s : State) :
    doWrite .ctrl1 v s = .ok () (State.logged { s with ctrl1 := v } (.write .ctrl1 v)) := rfl
@[simp] theorem doWrite_rxmgmask (v : Word) (s : State) :
    doWrite .rxmgmask v s = .ok () (State.logged { s with rxmgmask := v } (.write .rxmgmask v)) := rfl
@[simp] theorem doWrite_cs (i : Fin 16) (v : Word) (s : State) :
    doWrite (.mb i 0) v s = .ok () (((csWriteHidden i v s).setCs i v).logged (.write (.mb i 0) v)) := rfl
@[simp] theorem doWrite_idw (i : Fin 16) (v : Word) (s : State) :
    doWrite (.mb i 1) v s = .ok () ((s.setMailbox i { s.mb.get i with idw := v }).logged (.write (.mb i 1) v)) := rfl
@[simp] theorem doWrite_d0 (i : Fin 16) (v : Word) (s : State) :
    doWrite (.mb i 2) v s = .ok () ((s.setMailbox i { s.mb.get i with d0 := v }).logged (.write (.mb i 2) v)) := rfl
@[simp] theorem doWrite_d1 (i : Fin 16) (v : Word) (s : State) :
    doWrite (.mb i 3) v s = .ok () ((s.setMailbox i { s.mb.get i with d1 := v }).logged (.write (.mb i 3) v)) := rfl

@[simp] theorem csWriteHidden_mb (i : Fin 16) (v : Word) (s : State) : (csWriteHidden i v s).mb = s.mb := rfl
@[simp] theorem csWriteHidden_iflag (i : Fin 16) (v : Word) (s : State) : (csWriteHidden i v s).iflag = s.iflag := rfl
@[simp] theorem csWriteHidden_mcr (i : Fin 16) (v : Word) (s : State) : (csWriteHidden i v s).mcr = s.mcr := rfl
@[simp] theorem csWriteHidden_params (i : Fin 16) (v : Word) (s : State) : (csWriteHidden i v s).params = s.params := rfl
@[simp] theorem csWriteHidden_schedule (i : Fin 16) (v : Word) (s : State) :
    (csWriteHidden i v s).schedule = s.schedule := rfl
@[simp] theorem csWriteHidden_accesses (i : Fin 16) (v : Word) (s : State) :
    (csWriteHidden i v s).accesses = s.accesses := rfl

/-! ### What every piece of pseudocode keeps -/

/-- `P` holds of the state a piece of pseudocode comes to, however it ends. -/
def Res.All {α : Type} (P : State → Prop) (r : Res α) : Prop :=
  match r with
  | .ok _ s => P s
  | .err _ s => P s
  | .wait _ s => P s
  | .refused _ => True

@[simp] theorem Res.all_ok {α : Type} (P : State → Prop) (a : α) (s : State) : (Res.ok a s).All P ↔ P s := Iff.rfl
@[simp] theorem Res.all_err {α : Type} (P : State → Prop) (e : Err) (s : State) : (Res.err e s : Res α).All P ↔ P s := Iff.rfl
@[simp] theorem Res.all_wait {α : Type} (P : State → Prop) (p : SpinPos) (s : State) :
    (Res.wait p s : Res α).All P ↔ P s := Iff.rfl
@[simp] theorem Res.all_refused {α : Type} (P : State → Prop) (r : Refusal) : (Res.refused r : Res α).All P := trivial

/-- A property that the first piece keeps and the second keeps from wherever it starts is kept by the two in sequence. -/
theorem Res.All.bind {α β : Type} {P : State → Prop} {r : Res α} {f : α → State → Res β} (h : r.All P)
    (hf : ∀ a s, P s → (f a s).All P) : (r.bind f).All P := by
  cases r with
  | ok a s => exact hf a s h
  | err e s => exact h
  | wait p s => exact h
  | refused r => exact trivial

/-- A property kept by the peripheral's turn and by one read is kept by a read access. -/
theorem readReg_all {P : State → Prop} {r : Reg} {s : State}
    (h : P ((readEffect r (gap s)).logged (.read r (peekReg r (readEffect r (gap s)))))) : (readReg r s).All P := by
  cases hp : s.params.accessPermitted with
  | true => rw [readReg_eq r hp]; exact h
  | false => rw [readReg_forbidden r hp]; trivial

/-- A property kept by the peripheral's turn and by one write is kept by a write access. -/
theorem writeReg_all {P : State → Prop} {r : Reg} {v : Word} {s : State}
    (h : P ((writeEffect r v (gap s)).logged (.write r v))) : (writeReg r v s).All P := by
  cases hp : s.params.accessPermitted with
  | true =>
    rw [writeReg_eq r v hp]
    cases r <;> first | exact h | trivial
  | false => rw [writeReg_forbidden r v hp]; trivial

/-- A property of every iteration is a property of the loop over a list of mailboxes. -/
theorem forEach_all {P : State → Prop} {f : Fin 16 → State → Res Unit} (hf : ∀ i s, P s → (f i s).All P) (l : List (Fin 16))
    {s : State} (h : P s) : (forEach l f s).All P := by
  induction l generalizing s with
  | nil => exact h
  | cons i rest ih => exact (hf i s h).bind fun _ _ h' => ih h'

/-! ### The beginning and the end of an operation -/

@[simp] theorem finish_ok (v : Value) (s : State) : finish (.ok v s) = .next (s.finished (.ok v)) := rfl
@[simp] theorem finish_err (e : Err) (s : State) : finish (.err e s) = .next (s.finished (.err e)) := rfl
@[simp] theorem finish_wait (p : SpinPos) (s : State) : finish (.wait p s) = .next (s.suspended p) := rfl
@[simp] theorem finish_refused (r : Refusal) : finish (.refused r) = .refused r := rfl

/-- An operation issued to an idle block runs its pseudocode. -/
theorem issue_idle (body : State → Res Value) {s : State} (h : s.block = .idle) : issue body s = finish (body s.started) := by
  simp [issue, h]

/-- An operation issued while another is in progress is refused. -/
theorem issue_spinning (body : State → Res Value) {s : State} {p : SpinPos} (h : s.block = .spinning p) :
    issue body s = .refused .operationInProgress := by
  simp [issue, h]

/-- However an operation ends, the next state is one its pseudocode came to, with its result or its spin recorded. -/
theorem finish_next {P : State → Prop} {r : Res Value} {t : State} (h : r.All P) (ht : finish r = .next t) :
    ∃ u, P u ∧ ((∃ res, t = u.finished res) ∨ ∃ p, t = u.suspended p) := by
  cases r with
  | ok v s => exact ⟨s, h, .inl ⟨.ok v, by simpa using ht.symm⟩⟩
  | err e s => exact ⟨s, h, .inl ⟨.err e, by simpa using ht.symm⟩⟩
  | wait p s => exact ⟨s, h, .inr ⟨p, by simpa using ht.symm⟩⟩
  | refused r => simp at ht

end Sys2Proof.Machine
end

