-- ==== Sys2Proof/Laws/Keeps.lean ====
section
/-! SUPPORT. What every operation keeps: a property of the state that every read access and every write access of the kind the
operation makes keeps is kept by the whole operation, however it ends. One lemma per piece of pseudocode. -/

namespace Sys2Proof.Machine

/-- The registers the operations of the caller write: the flags and the mailbox words (60_exceptions.md R253). -/
def mailboxReg : Reg → Bool
  | .iflag1 | .mb _ _ => true
  | .mcr | .ctrl1 | .timer | .rxmgmask => false

/-- `P` is kept by every read access and by every write access to a register that `W` allows. -/
structure Keeps (W : Reg → Bool) (P : State → Prop) : Prop where
  read : ∀ r s, P s → (readReg r s).All P
  write : ∀ r v s, W r = true → P s → (writeReg r v s).All P

/-- Enough for `Keeps`: the peripheral's turn, one read and one write keep `P`. -/
theorem Keeps.of {W : Reg → Bool} {P : State → Prop} (hg : ∀ s, P s → P (gap s))
    (hr : ∀ r s, P s → P ((readEffect r s).logged (.read r (peekReg r (readEffect r s)))))
    (hw : ∀ r v s, W r = true → P s → P ((writeEffect r v s).logged (.write r v))) : Keeps W P where
  read r s h := readReg_all (hr r _ (hg s h))
  write r v s h1 h := writeReg_all (hw r v _ h1 (hg s h))

section
variable {W : Reg → Bool} {P : State → Prop}

theorem unlock_all (hk : Keeps W P) {s : State} (h : P s) : (unlock s).All P :=
  (hk.read _ _ h).bind fun _ _ h => h

theorem decodeOrRaise_all (c : BitVec 4) {s : State} (h : P s) : (decodeOrRaise c s).All P := by
  unfold decodeOrRaise
  split <;> exact h

theorem withIndex_all {α : Type} {idx : BitVec 8} {f : Fin 16 → State → Res α} (hf : ∀ i s, P s → (f i s).All P) {s : State}
    (h : P s) : (withIndex idx f s).All P := by
  unfold withIndex
  split
  · exact hf _ _ h
  · exact h

theorem writePayload_all (hk : Keeps W P) (hW : ∀ i w, W (.mb i w) = true) (i : Fin 16) (f : Frame) {s : State} (h : P s) :
    (writePayload i f s).All P := by
  cases f with
  | data id bytes => exact (hk.write _ _ _ (hW _ _) h).bind fun _ _ h => hk.write _ _ _ (hW _ _) h
  | remote id => exact h

theorem writeFrame_all (hk : Keeps W P) (hW : ∀ r, mailboxReg r = true → W r = true) (i : Fin 16) (hdr : Header) (f : Frame)
    {s : State} (h : P s) : (writeFrame i hdr f s).All P :=
  (hk.write _ _ _ (hW _ rfl) h).bind fun _ _ h =>
  (hk.write _ _ _ (hW _ rfl) h).bind fun _ _ h =>
  (writePayload_all hk (fun _ _ => hW _ rfl) i f h).bind fun _ _ h => hk.write _ _ _ (hW _ rfl) h

theorem mbwrite_all (hk : Keeps W P) (hW : ∀ r, mailboxReg r = true → W r = true) (i : Fin 16) (hdr : Header) (f : Frame)
    {s : State} (h : P s) : (mbwrite i hdr f s).All P := by
  unfold mbwrite
  split
  · exact h
  · refine (hk.read _ _ h).bind fun _ _ h => (decodeOrRaise_all _ h).bind fun _ _ h => ?_
    split
    · exact writeFrame_all hk hW _ _ _ h
    · exact h

theorem readRest_all (hk : Keeps W P) (hW : ∀ r, mailboxReg r = true → W r = true) (i : Fin 16) (cs : Word)
    (st : BufferState) {s : State} (h : P s) : (readRest i cs st s).All P :=
  (hk.read _ _ h).bind fun _ _ h =>
  (hk.read _ _ h).bind fun _ _ h =>
  (hk.read _ _ h).bind fun _ _ h =>
  (hk.write _ _ _ (hW _ rfl) h).bind fun _ _ h =>
  (unlock_all hk h).bind fun _ _ h => h

theorem readFrom_all (hk : Keeps W P) (hW : ∀ r, mailboxReg r = true → W r = true) (c : ReadCaller) (i : Fin 16) (n : Nat)
    {s : State} (h : P s) : (readFrom c i n s).All P := by
  refine (hk.read _ _ h).bind fun cs s h => ?_
  split
  · exact (unlock_all hk h).bind fun _ _ h => h
  · split
    · exact readRest_all hk hW _ _ _ h
    · split
      · exact (unlock_all hk h).bind fun _ _ h => h
      · exact h

theorem mbpeek_all (hk : Keeps W P) (i : Fin 16) {s : State} (h : P s) : (mbpeek i s).All P :=
  (hk.read _ _ h).bind fun _ _ h =>
  (hk.read _ _ h).bind fun _ _ h =>
  (hk.read _ _ h).bind fun _ _ h =>
  (hk.read _ _ h).bind fun _ _ h =>
  (unlock_all hk h).bind fun _ _ h =>
  (decodeOrRaise_all _ h).bind fun _ _ h => h

theorem mbinact_all (hk : Keeps W P) (hW : ∀ i w, W (.mb i w) = true) (i : Fin 16) {s : State} (h : P s) :
    (mbinact i s).All P :=
  (hk.read _ _ h).bind fun _ _ h => hk.write _ _ _ (hW _ _) h

theorem abortOutcome_all {r : Res (Header × Frame)} (h : r.All P) : (abortOutcome r).All P :=
  h.bind fun m s h => by
    split <;> exact h

theorem abortFrom_all (hk : Keeps W P) (hW : ∀ r, mailboxReg r = true → W r = true) (c : AbortCaller) (i : Fin 16) (n : Nat)
    {s : State} (h : P s) : (abortFrom c i n s).All P := by
  refine (hk.read _ _ h).bind fun f s h => ?_
  split
  · exact abortOutcome_all (readFrom_all hk hW _ _ _ h)
  · split <;> exact h

theorem mbabort_all (hk : Keeps W P) (hW : ∀ r, mailboxReg r = true → W r = true) (c : AbortCaller) (i : Fin 16) {s : State}
    (h : P s) : (mbabort c i s).All P := by
  refine (hk.read _ _ h).bind fun cs s h => (decodeOrRaise_all _ h).bind fun st s h => ?_
  split
  · exact h
  · exact (hk.write _ _ _ (hW _ rfl) h).bind fun _ _ h =>
      (hk.write _ _ _ (hW _ rfl) h).bind fun _ _ h => abortFrom_all hk hW _ _ _ h

theorem txquickScan_all (hk : Keeps W P) (hW : ∀ r, mailboxReg r = true → W r = true) (f : Frame) (l : List (Fin 16))
    {s : State} (h : P s) : (txquickScan f l s).All P := by
  induction l generalizing s with
  | nil => exact h
  | cons i rest ih =>
    refine ((hk.read _ _ h).bind fun _ _ h => decodeOrRaise_all _ h).bind fun st s h => ?_
    split
    · have hm := mbwrite_all hk hW i txHdr f h
      split
      · next heq => rw [heq] at hm; exact ih hm
      · exact hm
    · exact ih h

theorem peekAll_all (hk : Keeps W P) (l : List (Fin 16)) {s : State} (h : P s) : (peekAll l s).All P := by
  induction l generalizing s with
  | nil => exact h
  | cons i rest ih => exact (mbpeek_all hk i h).bind fun _ _ h => (ih h).bind fun _ _ h => h

theorem installAfterAbort_all (hk : Keeps W P) (hW : ∀ r, mailboxReg r = true → W r = true) (f : Frame) (w : Fin 16)
    {r : Res (Option Frame)} (h : r.All P) : (installAfterAbort f w r).All P :=
  h.bind fun _ _ h => (mbwrite_all hk hW _ _ _ h).bind fun _ _ h => h

theorem transmit_all (hk : Keeps W P) (hW : ∀ r, mailboxReg r = true → W r = true) (f : Frame) {s : State} (h : P s) :
    (transmit f s).All P := by
  refine (peekAll_all hk _ h).bind fun snap s h => ?_
  unfold txDecide
  split
  · exact (mbwrite_all hk hW _ _ _ h).bind fun _ _ h => h
  · split
    · exact h
    · split
      · exact installAfterAbort_all hk hW _ _ (mbabort_all hk hW _ _ h)
      · exact h

theorem receive_all (hk : Keeps W P) (hW : ∀ r, mailboxReg r = true → W r = true) {s : State} (h : P s) :
    (receive s).All P := by
  refine (hk.read _ _ h).bind fun f s h => ?_
  split
  · exact readFrom_all hk hW _ _ _ h
  · exact h

theorem continueAbort_all (hk : Keeps W P) (hW : ∀ r, mailboxReg r = true → W r = true) (c : AbortCaller) (i : Fin 16)
    {r : Res (Option Frame)} (h : r.All P) : (continueAbort c i r).All P := by
  cases c with
  | mbabort => exact h
  | tx f => exact installAfterAbort_all hk hW _ _ h

/-! ### INIT -/

theorem modifyReg_all (hk : Keeps (fun _ => true) P) (r : Reg) (f : Word → Word) {s : State} (h : P s) :
    (modifyReg r f s).All P :=
  (hk.read _ _ h).bind fun _ _ h => hk.write _ _ _ rfl h

theorem preseed_all (hk : Keeps (fun _ => true) P) {s : State} (h : P s) : (preseed s).All P :=
  (forEach_all (fun i _ h => mbinact_all hk (fun _ _ => rfl) i h) _ h).bind fun _ _ h =>
  (forEach_all (fun i _ h => mbwrite_all hk (fun _ _ => rfl) i _ _ h) _ h).bind fun _ _ h =>
  (forEach_all (fun i _ h => mbwrite_all hk (fun _ _ => rfl) i _ _ h) _ h).bind fun _ _ h => unlock_all hk h

theorem configure_all (hk : Keeps (fun _ => true) P) (bt : Timing) (st : Settings) {s : State} (h : P s) :
    (configure bt st s).All P :=
  (modifyReg_all hk _ _ h).bind fun _ _ h =>
  (modifyReg_all hk _ _ h).bind fun _ _ h =>
  (hk.write _ _ _ rfl h).bind fun _ _ h =>
  (hk.write _ _ _ rfl h).bind fun _ _ h => preseed_all hk h

theorem poll_all (hk : Keeps (fun _ => true) P) (p : BootPoll) (n : Nat) (bt : Timing) (st : Settings)
    {k : State → Res Unit} (hkk : ∀ s, P s → (k s).All P) {s : State} (h : P s) : (poll p n bt st k s).All P := by
  refine (hk.read _ _ h).bind fun m s h => ?_
  split
  · exact hkk _ h
  · split <;> exact h

theorem afterEnterFreeze_all (hk : Keeps (fun _ => true) P) (bt : Timing) (st : Settings) {s : State} (h : P s) :
    (afterEnterFreeze bt st s).All P :=
  (configure_all hk bt st h).bind fun _ _ h =>
  (modifyReg_all hk _ _ h).bind fun _ _ h => poll_all hk (k := afterLeaveFreeze) _ _ _ _ (fun _ h => h) h

theorem afterEnable2_all (hk : Keeps (fun _ => true) P) (bt : Timing) (st : Settings) {s : State} (h : P s) :
    (afterEnable2 bt st s).All P :=
  (modifyReg_all hk _ _ h).bind fun _ _ h => poll_all hk _ _ _ _ (fun _ h => afterEnterFreeze_all hk bt st h) h

theorem afterDisable2_all (hk : Keeps (fun _ => true) P) (bt : Timing) (st : Settings) {s : State} (h : P s) :
    (afterDisable2 bt st s).All P :=
  (modifyReg_all hk _ _ h).bind fun _ _ h =>
  (modifyReg_all hk _ _ h).bind fun _ _ h => poll_all hk _ _ _ _ (fun _ h => afterEnable2_all hk bt st h) h

theorem afterSoftReset_all (hk : Keeps (fun _ => true) P) (bt : Timing) (st : Settings) {s : State} (h : P s) :
    (afterSoftReset bt st s).All P :=
  (modifyReg_all hk _ _ h).bind fun _ _ h => poll_all hk _ _ _ _ (fun _ h => afterDisable2_all hk bt st h) h

theorem afterEnable1_all (hk : Keeps (fun _ => true) P) (bt : Timing) (st : Settings) {s : State} (h : P s) :
    (afterEnable1 bt st s).All P :=
  (modifyReg_all hk _ _ h).bind fun _ _ h => poll_all hk _ _ _ _ (fun _ h => afterSoftReset_all hk bt st h) h

theorem afterDisable1_all (hk : Keeps (fun _ => true) P) (bt : Timing) (st : Settings) {s : State} (h : P s) :
    (afterDisable1 bt st s).All P :=
  (modifyReg_all hk _ _ h).bind fun _ _ h =>
  (modifyReg_all hk _ _ h).bind fun _ _ h => poll_all hk _ _ _ _ (fun _ h => afterEnable1_all hk bt st h) h

theorem afterPoll_all (hk : Keeps (fun _ => true) P) (p : BootPoll) (bt : Timing) (st : Settings) {s : State} (h : P s) :
    (afterPoll p bt st s).All P := by
  cases p
  · exact afterDisable1_all hk bt st h
  · exact afterEnable1_all hk bt st h
  · exact afterSoftReset_all hk bt st h
  · exact afterDisable2_all hk bt st h
  · exact afterEnable2_all hk bt st h
  · exact afterEnterFreeze_all hk bt st h
  · exact h

theorem boot_all (hk : Keeps (fun _ => true) P) (st : Settings) (clocks : ClockInfo) {s : State} (h : P s) :
    (boot st clocks s).All P := by
  unfold boot ofExcept
  split
  · dsimp only [Res.bind]
    split
    · exact h
    · exact (modifyReg_all hk _ _ h).bind fun _ _ h => poll_all hk _ _ _ _ (fun _ h => afterDisable1_all hk _ st h) h
  · exact h

/-! ### Whole operations -/

/-- Where an operation stops for this step: its result or its spin recorded in a state `u`. -/
def endsAs (u t : State) : Prop := (∃ r, t = u.finished r) ∨ ∃ p, t = u.suspended p

/-- A property kept by every access of the kinds the caller's operations make is kept by each of them up to the record of its
end. -/
theorem exec_all (hk : Keeps W P) (hW : ∀ r, mailboxReg r = true → W r = true) {i : Instr} {s t : State} (h : P s.started)
    (ht : exec i s = .next t) : ∃ u, P u ∧ endsAs u t := by
  have key : ∀ body : State → Res Value, (body s.started).All P → issue body s = .next t → ∃ u, P u ∧ endsAs u t := by
    intro body hb hi
    unfold issue at hi
    split at hi
    · exact finish_next hb hi
    · simp at hi
  cases i with
  | btcalc =>
    simp only [exec, execBtcalc] at ht
    refine key _ ?_ ht
    unfold ofExcept
    split <;> exact h
  | encode =>
    simp only [exec, execEncode] at ht
    exact key _ (by exact h) ht
  | decode c =>
    simp only [exec, execDecode] at ht
    exact key _ ((decodeOrRaise_all _ h).bind fun _ _ h => by exact h) ht
  | mbwrite idx =>
    simp only [exec, execMbwrite] at ht
    refine key _ ?_ ht
    split
    · exact h
    · exact (withIndex_all (fun i _ h => mbwrite_all hk hW i _ _ h) h).bind fun _ _ h => h
  | mbread idx =>
    simp only [exec, execMbread] at ht
    exact key _ ((withIndex_all (fun i _ h => readFrom_all hk hW _ i _ h) h).bind fun _ _ h => by exact h) ht
  | mbpeek idx =>
    simp only [exec, execMbpeek] at ht
    exact key _ ((withIndex_all (fun i _ h => mbpeek_all hk i h) h).bind fun _ _ h => by exact h) ht
  | mbinact idx =>
    simp only [exec, execMbinact] at ht
    exact key _ ((withIndex_all (fun i _ h => mbinact_all hk (fun _ _ => hW _ rfl) i h) h).bind fun _ _ h => by exact h) ht
  | mbabort idx =>
    simp only [exec, execMbabort] at ht
    exact key _ ((withIndex_all (fun i _ h => mbabort_all hk hW _ i h) h).bind fun _ _ h => by exact h) ht
  | txquick =>
    simp only [exec, execTxquick] at ht
    refine key _ ?_ ht
    split
    · exact h
    · exact (txquickScan_all hk hW _ _ h).bind fun _ _ h => h
  | tx =>
    simp only [exec, execTx] at ht
    refine key _ ?_ ht
    split
    · exact h
    · exact (transmit_all hk hW _ h).bind fun _ _ h => h
  | rx =>
    simp only [exec, execRx] at ht
    exact key _ ((receive_all hk hW h).bind fun _ _ h => by exact h) ht

/-- The same for an operation of the caller that goes on from a spin. -/
theorem resume_operation_all (hk : Keeps W P) (hW : ∀ r, mailboxReg r = true → W r = true) {p : SpinPos}
    (hp : ∀ b n bt st, p ≠ .boot b n bt st) {s t : State} (h : P s) (ht : resume p s = .next t) : ∃ u, P u ∧ endsAs u t := by
  refine finish_next ?_ ht
  cases p with
  | readBusy c i n =>
    cases c with
    | mbread => exact (readFrom_all hk hW _ _ _ h).bind fun _ _ h => h
    | rx => exact (readFrom_all hk hW _ _ _ h).bind fun _ _ h => h
    | abort c =>
      exact (continueAbort_all hk hW _ _ (abortOutcome_all (readFrom_all hk hW _ _ _ h))).bind fun _ _ h => h
  | abortFlag c i n => exact (continueAbort_all hk hW _ _ (abortFrom_all hk hW _ _ _ h)).bind fun _ _ h => h
  | boot b n bt st => exact absurd rfl (hp b n bt st)

/-- The same for an operation that goes on from a spin, INIT's included. -/
theorem resume_all (hk : Keeps (fun _ => true) P) {p : SpinPos} {s t : State} (h : P s) (ht : resume p s = .next t) :
    ∃ u, P u ∧ endsAs u t := by
  cases p with
  | readBusy c i n => exact resume_operation_all hk (fun _ _ => rfl) (fun _ _ _ _ e => by cases e) h ht
  | abortFlag c i n => exact resume_operation_all hk (fun _ _ => rfl) (fun _ _ _ _ e => by cases e) h ht
  | boot b n bt st =>
    refine finish_next ?_ ht
    exact (poll_all hk _ _ _ _ (fun _ h => afterPoll_all hk b bt st h) h).bind fun _ _ h => h

/-- The same for INIT. -/
theorem execInit_all (hk : Keeps (fun _ => true) P) {st : Settings} {clocks : ClockInfo} {s t : State} (h : P s.started)
    (ht : execInit st clocks s = .next t) : ∃ u, P u ∧ endsAs u t := by
  unfold execInit issue at ht
  split at ht
  · exact finish_next ((boot_all hk st clocks h).bind fun _ _ h => by exact h) ht
  · simp at ht

end

/-- A property of the state that the beginning and the end of an operation, the caller's side and every access keep is kept by
every step of the machine. -/
theorem step_all {P : State → Prop} (hk : Keeps (fun _ => true) P) (hg : ∀ s, P s → P (gap s)) (hs : ∀ s, P s → P s.started)
    (he : ∀ u t, P u → endsAs u t → P t)
    (hreq : ∀ s req rest, s.requests = req :: rest → P s → P { s with requests := rest })
    (hops : ∀ s w ops rest, (s.requests = .command w ops :: rest ∨ s.requests = .commandUntilFree w ops :: rest) → P s →
      P { s with requests := rest, operands := ops })
    (hback : ∀ s t w ops rest, s.requests = .commandUntilFree w ops :: rest → P s → P t →
      P { t with requests := .commandUntilFree w ops :: t.requests })
    {s t : State} (h : P s) (ht : step s = .next t) : P t := by
  have hrun : ∀ (w : Word) (u t : State), P u → runWord w u = .next t → P t := by
    intro w u t hu hr
    unfold runWord at hr
    split at hr
    · obtain ⟨v, hv, hvt⟩ := exec_all hk (fun _ _ => rfl) (hs _ hu) hr
      exact he _ _ hv hvt
    · unfold execIllegal issue at hr
      split at hr
      · obtain ⟨v, hv, hvt⟩ := finish_next (P := P) (r := raise (.illegalCommand w) u.started) (hs _ hu) hr
        exact he _ _ hv hvt
      · simp at hr
  unfold step at ht
  split at ht
  · obtain ⟨v, hv, hvt⟩ := resume_all hk h ht
    exact he _ _ hv hvt
  · split at ht
    · simp only [Host.Outcome.next.injEq] at ht
      exact ht ▸ hg _ h
    · next req rest hreqs =>
      cases req with
      | init st clocks =>
        obtain ⟨v, hv, hvt⟩ := execInit_all hk (hs _ (hreq _ _ _ hreqs h)) ht
        exact he _ _ hv hvt
      | command w ops => exact hrun w _ _ (hops _ _ _ _ (.inl hreqs) h) ht
      | commandUntilFree w ops =>
        dsimp only [runRequest] at ht
        cases hr : runWord w (State.withOperands { s with requests := rest } ops) with
        | next u =>
          have hu : P u := hrun w _ _ (hops _ _ _ _ (.inr hreqs) h) hr
          rw [hr] at ht
          dsimp only [requeue] at ht
          split at ht
          · simp only [Host.Outcome.next.injEq] at ht
            exact ht ▸ hback _ _ _ _ _ hreqs h hu
          · simp only [Host.Outcome.next.injEq] at ht
            exact ht ▸ hu
        | fault f => cases f
        | refused r => rw [hr] at ht; simp [requeue] at ht

end Sys2Proof.Machine
end

