-- ==== Sys2Proof/Laws/PerInstr.lean ====
section
/-! SUPPORT. Statements for all instructions, one lemma per constructor. Family `Encoding`: the fields of the word of each operation
(30_encoding.md R81, R82, R83). -/

namespace Sys2Proof.Laws.Encoding

/-- The IDX field an operation's word carries: 0 where the operation does not use IDX (30_encoding.md R82, R83). -/
def idxOf : Instr → BitVec 8
  | .mbwrite idx | .mbread idx | .mbpeek idx | .mbinact idx | .mbabort idx => idx
  | .btcalc | .encode | .decode _ | .txquick | .tx | .rx => 0#8

/-- The CODE field an operation's word carries: 0 for every operation but DECODE (30_encoding.md R82, R83). -/
def codeOf : Instr → BitVec 4
  | .decode code => code
  | .btcalc | .encode | .mbwrite _ | .mbread _ | .mbpeek _ | .mbinact _ | .mbabort _ | .txquick | .tx | .rx => 0#4

/-- The OP field of an operation (30_encoding.md R82). -/
def opOf : Instr → BitVec 4
  | .btcalc => 0x0#4
  | .encode => 0x1#4
  | .decode _ => 0x2#4
  | .mbwrite _ => 0x3#4
  | .mbread _ => 0x4#4
  | .mbpeek _ => 0x5#4
  | .mbinact _ => 0x6#4
  | .mbabort _ => 0x7#4
  | .txquick => 0x8#4
  | .tx => 0x9#4
  | .rx => 0xA#4

/-- The four fields of a composed command word are the ones it was composed of. -/
theorem fields_commandWord (op : BitVec 4) (idx : BitVec 8) (code : BitVec 4) :
    opField (commandWord op idx code) = op ∧ idxField (commandWord op idx code) = idx ∧
      codeField (commandWord op idx code) = code ∧ rsvField (commandWord op idx code) = 0#16 := by
  refine ⟨?_, ?_, ?_, ?_⟩ <;>
    (apply BitVec.eq_of_getLsbD_eq
     intro k hk
     simp only [opField, idxField, codeField, rsvField, commandWord, BitVec.getLsbD_extractLsb', BitVec.getLsbD_append, hk,
       decide_true, Bool.true_and])
  · simp [show k < 4 from hk]
  · rw [if_neg (by omega), if_pos (by omega)]
    congr 1; omega
  · rw [if_neg (by omega), if_neg (by omega), if_pos (by omega)]
    congr 1; omega
  · rw [if_neg (by omega), if_neg (by omega), if_neg (by omega)]
    simp

/-- The word of an operation holds its OP, IDX and CODE fields, and its reserved bits are 0. -/
def Statement (i : Instr) : Prop :=
  opField (encode i) = opOf i ∧ idxField (encode i) = idxOf i ∧ codeField (encode i) = codeOf i ∧ rsvField (encode i) = 0#16

theorem btcalc : Statement .btcalc := fields_commandWord _ _ _
theorem encode : Statement .encode := fields_commandWord _ _ _
theorem decode (code : BitVec 4) : Statement (.decode code) := fields_commandWord _ _ _
theorem mbwrite (idx : BitVec 8) : Statement (.mbwrite idx) := fields_commandWord _ _ _
theorem mbread (idx : BitVec 8) : Statement (.mbread idx) := fields_commandWord _ _ _
theorem mbpeek (idx : BitVec 8) : Statement (.mbpeek idx) := fields_commandWord _ _ _
theorem mbinact (idx : BitVec 8) : Statement (.mbinact idx) := fields_commandWord _ _ _
theorem mbabort (idx : BitVec 8) : Statement (.mbabort idx) := fields_commandWord _ _ _
theorem txquick : Statement .txquick := fields_commandWord _ _ _
theorem tx : Statement .tx := fields_commandWord _ _ _
theorem rx : Statement .rx := fields_commandWord _ _ _

end Sys2Proof.Laws.Encoding
end

