-- ==== Sys2Proof/Laws/Quiet.lean ====
section
/-! SUPPORT. What each shared piece of pseudocode comes to when the peripheral takes no step at the points of its accesses: one
lemma per piece, with the state it leaves. A schedule is written as `List.replicate n []`, which every quiet schedule is. -/

namespace Sys2Proof.Machine

/-- A quiet schedule is a number of empty turns. -/
theorem quiet_iff (s : State) : s.quiet ↔ s.schedule = List.replicate s.schedule.length [] := by
  rw [List.eq_replicate_iff]
  simp [State.quiet]

/-- An empty turn only moves the schedule on. -/
theorem gap_empty {s : State} {rest : List (List Event)} (h : s.schedule = [] :: rest) :
    gap s = { s with schedule := rest } := by
  simp [gap, h]

/-- The peripheral's turn in a quiet schedule. -/
theorem gap_nil {s : State} {n : Nat} (h : s.schedule = List.replicate n []) :
    gap s = { s with schedule := List.replicate (n - 1) [] } := by
  have hq : s.quiet := by rw [quiet_iff, h]; simp
  rw [gap_quiet hq, h]; simp

/-- MBPEEK of a decodable mailbox (42_mailbox_store.md R147). -/
theorem mbpeek_quiet (i : Fin 16) (st : BufferState) {s : State} {n : Nat} (hp : s.params.accessPermitted = true)
    (hn : s.schedule = List.replicate n []) (hst : s.stateAt i = some st) :
    mbpeek i s = .ok (unpack (s.mb.get i).cs st (s.mb.get i).idw (s.mb.get i).d0 (s.mb.get i).d1)
      { s with lockedMb := none, timer := Config.freeTimer s.draws, draws := s.draws + 1,
               schedule := List.replicate (n - 5) [], accesses := s.accesses ++ peekLog s.draws i (s.mb.get i) } := by
  have hst' : decodeState (codeOf (s.mb.get i).cs) = some st := hst
  simp [mbpeek, unlock, readReg_eq, gap_nil, hp, hn, State.logged, State.drawTimer, decodeOrRaise, hst', peekLog, timerLog]
  omega

/-- MBREAD of a decodable mailbox that is not busy (42_mailbox_store.md R146). -/
theorem readFrom_quiet (c : ReadCaller) (i : Fin 16) (k : Nat) (st : BufferState) {s : State} {n : Nat}
    (hp : s.params.accessPermitted = true) (hn : s.schedule = List.replicate n []) (hst : s.stateAt i = some st)
    (hb : st.isBusy = false) :
    readFrom c i k s = .ok (unpack (s.mb.get i).cs st (s.mb.get i).idw (s.mb.get i).d0 (s.mb.get i).d1)
      { s with iflag := iflagWrite s.iflag (flagMask i), lockedMb := none, timer := Config.freeTimer s.draws,
               draws := s.draws + 1, schedule := List.replicate (n - 6) [],
               accesses := s.accesses ++ readLog s.draws i (s.mb.get i) } := by
  have hst' : decodeState (codeOf (s.mb.get i).cs) = some st := hst
  simp [readFrom, readRest, unlock, readReg_eq, writeReg_eq, gap_nil, hp, hn, State.logged, State.drawTimer, hst', hb, readLog,
    timerLog]
  omega

/-- MBREAD of an undecodable mailbox releases the lock and raises DecodeError (42_mailbox_store.md R146, D20). -/
theorem readFrom_reserved (c : ReadCaller) (i : Fin 16) (k : Nat) {s : State} {n : Nat}
    (hp : s.params.accessPermitted = true) (hn : s.schedule = List.replicate n []) (hst : s.stateAt i = none) :
    readFrom c i k s = .err (.decodeError (s.codeAt i))
      { s with lockedMb := none, timer := Config.freeTimer s.draws, draws := s.draws + 1,
               schedule := List.replicate (n - 2) [],
               accesses := s.accesses ++ [.read (.mb i 0) (s.mb.get i).cs, timerLog s.draws] } := by
  have hst' : decodeState (codeOf (s.mb.get i).cs) = none := hst
  simp [readFrom, unlock, readReg_eq, gap_nil, hp, hn, State.logged, State.drawTimer, hst', timerLog, State.codeAt]
  omega

/-- One busy re-read of MBREAD (42_mailbox_store.md R146, 60_exceptions.md R249). -/
theorem readFrom_busy (c : ReadCaller) (i : Fin 16) (k : Nat) (st : BufferState) {s : State} {n : Nat}
    (hp : s.params.accessPermitted = true) (hn : s.schedule = List.replicate n []) (hst : s.stateAt i = some st)
    (hb : st.isBusy = true) (hx : spinExpired s.params (k + 1) = false) :
    readFrom c i k s = .wait (.readBusy c i (k + 1))
      { s with lockedMb := some i, schedule := List.replicate (n - 1) [],
               accesses := s.accesses ++ [.read (.mb i 0) (s.mb.get i).cs] } := by
  have hst' : decodeState (codeOf (s.mb.get i).cs) = some st := hst
  simp [readFrom, readReg_eq, gap_nil, hp, hn, State.logged, hst', hb, hx]

/-- MBREAD's Timeout releases the lock first (60_exceptions.md R249). -/
theorem readFrom_timeout (c : ReadCaller) (i : Fin 16) (k : Nat) (st : BufferState) {s : State} {n : Nat}
    (hp : s.params.accessPermitted = true) (hn : s.schedule = List.replicate n []) (hst : s.stateAt i = some st)
    (hb : st.isBusy = true) (hx : spinExpired s.params (k + 1) = true) :
    readFrom c i k s = .err .timeout
      { s with lockedMb := none, timer := Config.freeTimer s.draws, draws := s.draws + 1,
               schedule := List.replicate (n - 2) [],
               accesses := s.accesses ++ [.read (.mb i 0) (s.mb.get i).cs, timerLog s.draws] } := by
  have hst' : decodeState (codeOf (s.mb.get i).cs) = some st := hst
  simp [readFrom, unlock, readReg_eq, gap_nil, hp, hn, State.logged, State.drawTimer, hst', hb, hx, timerLog]
  omega

/-- The writes of a frame into mailbox `i` (42_mailbox_store.md R145, 48_peripheral_agent.md R227). -/
theorem writeFrame_quiet (i : Fin 16) (hdr : Header) (f : Frame) {s : State} {n : Nat}
    (hp : s.params.accessPermitted = true) (hn : s.schedule = List.replicate n []) :
    writeFrame i hdr f s = .ok ()
      { s with
        mb := put s.mb i (written (s.mb.get i) hdr f)
        iflag := iflagWrite s.iflag (flagMask i)
        abortReq := (csWriteHidden i (csWord hdr f) s).abortReq
        lateTx := (csWriteHidden i (csWord hdr f) s).lateTx
        rxStage := put s.rxStage i none
        schedule := List.replicate (n - (writeLog i hdr f).length) []
        accesses := s.accesses ++ writeLog i hdr f } := by
  cases f with
  | data id bytes =>
    simp [writeFrame, writePayload, writeReg_eq, gap_nil, hp, hn, State.logged, State.setCs, State.setMailbox, writeLog, written,
      csWriteHidden, State.codeAt, State.running, State.mode]
    omega
  | remote id =>
    simp [writeFrame, writePayload, writeReg_eq, gap_nil, hp, hn, State.logged, State.setCs, State.setMailbox, writeLog, written,
      csWriteHidden, State.codeAt, State.running, State.mode]
    omega

/-- MBWRITE on a writable mailbox (42_mailbox_store.md R145). -/
theorem mbwrite_quiet (i : Fin 16) (hdr : Header) (f : Frame) (cur : BufferState) {s : State} {n : Nat}
    (hp : s.params.accessPermitted = true) (hn : s.schedule = List.replicate n []) (hr : hdr.code.role = roleOfIndex i)
    (hb : hdr.code.isBusy = false) (hst : s.stateAt i = some cur) (hw : writable cur = true) :
    mbwrite i hdr f s = .ok ()
      { s with
        mb := put s.mb i (written (s.mb.get i) hdr f)
        iflag := iflagWrite s.iflag (flagMask i)
        lockedMb := some i
        abortReq := (csWriteHidden i (csWord hdr f) s).abortReq
        lateTx := (csWriteHidden i (csWord hdr f) s).lateTx
        rxStage := put s.rxStage i none
        schedule := List.replicate (n - (1 + (writeLog i hdr f).length)) []
        accesses := s.accesses ++ .read (.mb i 0) (s.mb.get i).cs :: writeLog i hdr f } := by
  have hst' : decodeState (codeOf (s.mb.get i).cs) = some cur := hst
  simp only [mbwrite, hr, hb]
  rw [if_neg (by simp)]
  simp [readReg_eq, gap_nil, hp, hn, State.logged, decodeOrRaise, hst', hw]
  rw [writeFrame_quiet (n := n - 1) _ _ _ (by exact hp) (by rfl)]
  simp [csWriteHidden, State.codeAt, State.running, State.mode]
  omega

/-- MBINACT (42_mailbox_store.md R148). -/
theorem mbinact_quiet (i : Fin 16) {s : State} {n : Nat} (hp : s.params.accessPermitted = true)
    (hn : s.schedule = List.replicate n []) :
    mbinact i s = .ok ()
      { s with
        mb := put s.mb i { s.mb.get i with cs := inactiveCs (s.mb.get i).cs }
        lockedMb := some i
        abortReq := (csWriteHidden i (inactiveCs (s.mb.get i).cs) s).abortReq
        lateTx := (csWriteHidden i (inactiveCs (s.mb.get i).cs) s).lateTx
        rxStage := put s.rxStage i none
        schedule := List.replicate (n - 2) []
        accesses := s.accesses ++
          [.read (.mb i 0) (s.mb.get i).cs, .write (.mb i 0) (inactiveCs (s.mb.get i).cs)] } := by
  simp [mbinact, readReg_eq, writeReg_eq, gap_nil, hp, hn, State.logged, State.setCs, State.setMailbox, csWriteHidden,
    State.codeAt, State.running, State.mode]
  rfl

/-- The snapshot of a list of mailboxes, as TX takes it. -/
def snapshotOf (s : State) (l : List (Fin 16)) : List (Fin 16 × Header × Frame) :=
  l.map fun i =>
    (i, unpack (s.mb.get i).cs ((s.stateAt i).getD (.tx .inactive)) (s.mb.get i).idw (s.mb.get i).d0 (s.mb.get i).d1)

/-- The accesses of that snapshot, the first drawing timer value `n`. -/
def snapshotAccesses (s : State) (n : Nat) : List (Fin 16) → List Access
  | [] => []
  | i :: rest => peekLog n i (s.mb.get i) ++ snapshotAccesses s (n + 1) rest

/-- The timer after a number of draws. -/
def timerAfter (s : State) (k : Nat) : BitVec 16 := if k = 0 then s.timer else Config.freeTimer (s.draws + k - 1)

/-- TX's snapshot of decodable mailboxes (43_transmit_arbiter.md R182). -/
theorem peekAll_quiet (l : List (Fin 16)) {s : State} {n : Nat} (hp : s.params.accessPermitted = true)
    (hn : s.schedule = List.replicate n []) (hst : ∀ i ∈ l, s.stateAt i ≠ none) :
    peekAll l s = .ok (snapshotOf s l)
      { s with
        lockedMb := if l = [] then s.lockedMb else none
        timer := timerAfter s l.length
        draws := s.draws + l.length
        schedule := List.replicate (n - 5 * l.length) []
        accesses := s.accesses ++ snapshotAccesses s s.draws l } := by
  induction l generalizing s n with
  | nil => cases s; simp_all [peekAll, snapshotOf, snapshotAccesses, timerAfter]
  | cons i rest ih =>
    obtain ⟨st, hi⟩ := Option.ne_none_iff_exists'.mp (hst i (by simp))
    have hlog : ∀ (t : State) (n : Nat) (l : List (Fin 16)), t.mb = s.mb → snapshotAccesses t n l = snapshotAccesses s n l := by
      intro t n l ht
      induction l generalizing n with
      | nil => rfl
      | cons j l ih => simp [snapshotAccesses, ht, ih]
    rw [peekAll, mbpeek_quiet i st hp hn hi, Res.bind_ok, ih (n := n - 5) (by exact hp) (by rfl), Res.bind_ok]
    · have hi' : decodeState (codeOf (s.mb.get i).cs) = some st := hi
      have h1 : n - 5 - 5 * rest.length = n - 5 * (rest.length + 1) := by omega
      have h2 : s.draws + 1 + rest.length = s.draws + (rest.length + 1) := by omega
      rw [hlog _ _ _ (by rfl)]
      by_cases h0 : rest = []
      · simp [snapshotOf, snapshotAccesses, timerAfter, State.stateAt, State.codeAt, hi', h0]
      · have h3 : rest.length ≠ 0 := by simpa using h0
        simp [snapshotOf, snapshotAccesses, timerAfter, State.stateAt, State.codeAt, hi', h0, h1, h2]
    · intro j hj
      exact hst j (by simp [hj])

end Sys2Proof.Machine
end

