-- ==== Sys2Proof/Laws/Waits.lean ====
section
/-! SUPPORT. Where each piece of pseudocode may spin: an operation of the caller spins in MBREAD's busy spin or in MBABORT's flag
spin, never in one of INIT's polls. -/

namespace Sys2Proof.Machine

/-- If a piece of pseudocode spins, then at a place that `Q` allows. -/
def Res.Waits {α : Type} (Q : SpinPos → Prop) (r : Res α) : Prop :=
  match r with
  | .wait p _ => Q p
  | .ok _ _ => True
  | .err _ _ => True
  | .refused _ => True

/-- Two pieces in sequence spin where one of them does. -/
theorem Res.Waits.bind {α β : Type} {Q : SpinPos → Prop} {r : Res α} {f : α → State → Res β} (h : r.Waits Q)
    (hf : ∀ a s, (f a s).Waits Q) : (r.bind f).Waits Q := by
  cases r with
  | ok a s => exact hf a s
  | err e s => trivial
  | wait p s => exact h
  | refused r => trivial

/-- The spins of the operations of the caller (42_mailbox_store.md R146, R149). -/
def SpinPos.ofOperation (p : SpinPos) : Prop := ∀ b n bt st, p ≠ .boot b n bt st

theorem readReg_waits {Q : SpinPos → Prop} (r : Reg) (s : State) : (readReg r s).Waits Q := by
  cases hp : s.params.accessPermitted with
  | true => rw [readReg_eq r hp]; trivial
  | false => rw [readReg_forbidden r hp]; trivial

theorem writeReg_waits {Q : SpinPos → Prop} (r : Reg) (v : Word) (s : State) : (writeReg r v s).Waits Q := by
  cases hp : s.params.accessPermitted with
  | true => rw [writeReg_eq r v hp]; cases r <;> trivial
  | false => rw [writeReg_forbidden r v hp]; trivial

theorem unlock_waits {Q : SpinPos → Prop} (s : State) : (unlock s).Waits Q := (readReg_waits _ _).bind fun _ _ => trivial

theorem decodeOrRaise_waits {Q : SpinPos → Prop} (c : BitVec 4) (s : State) : (decodeOrRaise c s).Waits Q := by
  unfold decodeOrRaise
  split <;> trivial

theorem withIndex_waits {Q : SpinPos → Prop} {α : Type} {f : Fin 16 → State → Res α} (hf : ∀ i s, (f i s).Waits Q)
    (idx : BitVec 8) (s : State) : (withIndex idx f s).Waits Q := by
  unfold withIndex
  split
  · exact hf _ _
  · trivial

theorem mbwrite_waits {Q : SpinPos → Prop} (i : Fin 16) (hdr : Header) (f : Frame) (s : State) : (mbwrite i hdr f s).Waits Q := by
  unfold mbwrite
  split
  · trivial
  · refine (readReg_waits _ _).bind fun _ _ => (decodeOrRaise_waits _ _).bind fun _ _ => ?_
    split
    · refine (writeReg_waits _ _ _).bind fun _ _ => (writeReg_waits _ _ _).bind fun _ _ => Res.Waits.bind ?_ fun _ _ =>
        writeReg_waits _ _ _
      cases f with
      | data id bytes => exact (writeReg_waits _ _ _).bind fun _ _ => writeReg_waits _ _ _
      | remote id => trivial
    · trivial

theorem readFrom_waits {Q : SpinPos → Prop} (c : ReadCaller) (i : Fin 16) (hQ : ∀ n, Q (.readBusy c i n)) (n : Nat) (s : State) :
    (readFrom c i n s).Waits Q := by
  refine (readReg_waits _ _).bind fun cs s => ?_
  split
  · exact (unlock_waits _).bind fun _ _ => trivial
  · split
    · exact (readReg_waits _ _).bind fun _ _ => (readReg_waits _ _).bind fun _ _ => (readReg_waits _ _).bind fun _ _ =>
        (writeReg_waits _ _ _).bind fun _ _ => (unlock_waits _).bind fun _ _ => trivial
    · split
      · exact (unlock_waits _).bind fun _ _ => trivial
      · exact hQ _

theorem mbpeek_waits {Q : SpinPos → Prop} (i : Fin 16) (s : State) : (mbpeek i s).Waits Q :=
  (readReg_waits _ _).bind fun _ _ => (readReg_waits _ _).bind fun _ _ => (readReg_waits _ _).bind fun _ _ =>
    (readReg_waits _ _).bind fun _ _ => (unlock_waits _).bind fun _ _ => (decodeOrRaise_waits _ _).bind fun _ _ => trivial

theorem abortOutcome_waits {Q : SpinPos → Prop} {r : Res (Header × Frame)} (h : r.Waits Q) : (abortOutcome r).Waits Q :=
  h.bind fun m s => by split <;> trivial

theorem abortFrom_waits (c : AbortCaller) (i : Fin 16) (n : Nat) (s : State) : (abortFrom c i n s).Waits SpinPos.ofOperation := by
  refine (readReg_waits _ _).bind fun f s => ?_
  split
  · exact abortOutcome_waits (readFrom_waits _ _ (fun _ => nofun) _ _)
  · split
    · trivial
    · exact nofun

theorem mbabort_waits (c : AbortCaller) (i : Fin 16) (s : State) : (mbabort c i s).Waits SpinPos.ofOperation := by
  refine (readReg_waits _ _).bind fun cs s => (decodeOrRaise_waits _ _).bind fun st s => ?_
  split
  · trivial
  · exact (writeReg_waits _ _ _).bind fun _ _ => (writeReg_waits _ _ _).bind fun _ _ => abortFrom_waits _ _ _ _

theorem txquickScan_waits {Q : SpinPos → Prop} (f : Frame) (l : List (Fin 16)) (s : State) : (txquickScan f l s).Waits Q := by
  induction l generalizing s with
  | nil => trivial
  | cons i rest ih =>
    refine ((readReg_waits _ _).bind fun _ _ => decodeOrRaise_waits _ _).bind fun st s => ?_
    split
    · split
      · exact ih _
      · exact mbwrite_waits _ _ _ _
    · exact ih _

theorem peekAll_waits {Q : SpinPos → Prop} (l : List (Fin 16)) (s : State) : (peekAll l s).Waits Q := by
  induction l generalizing s with
  | nil => trivial
  | cons i rest ih => exact (mbpeek_waits i _).bind fun _ _ => (ih _).bind fun _ _ => trivial

theorem installAfterAbort_waits {Q : SpinPos → Prop} (f : Frame) (w : Fin 16) {r : Res (Option Frame)} (h : r.Waits Q) :
    (installAfterAbort f w r).Waits Q :=
  h.bind fun _ _ => (mbwrite_waits _ _ _ _).bind fun _ _ => trivial

theorem transmit_waits (f : Frame) (s : State) : (transmit f s).Waits SpinPos.ofOperation := by
  refine (peekAll_waits _ _).bind fun snap s => ?_
  unfold txDecide
  split
  · exact (mbwrite_waits _ _ _ _).bind fun _ _ => trivial
  · split
    · trivial
    · split
      · exact installAfterAbort_waits _ _ (mbabort_waits _ _ _)
      · trivial

theorem receive_waits (s : State) : (receive s).Waits SpinPos.ofOperation := by
  refine (readReg_waits _ _).bind fun f s => ?_
  split
  · exact readFrom_waits _ _ (fun _ => nofun) _ _
  · trivial

/-- A step that ends as its pseudocode does spins where that does, or not at all. -/
theorem finish_waits {Q : SpinPos → Prop} {r : Res Value} {t : State} {p : SpinPos} (h : r.Waits Q) (ht : finish r = .next t)
    (hp : t.block = .spinning p) : Q p := by
  cases r with
  | ok v s => rw [finish_ok] at ht; cases ht; cases hp
  | err e s => rw [finish_err] at ht; cases ht; cases hp
  | wait q s => rw [finish_wait] at ht; cases ht; cases hp; exact h
  | refused r => simp at ht

/-- An operation of the caller that spins after its first step is in one of its own spins. -/
theorem exec_waits {i : Instr} {s t : State} {p : SpinPos} (ht : exec i s = .next t) (hp : t.block = .spinning p) :
    p.ofOperation := by
  have key : ∀ body : State → Res Value, (body s.started).Waits SpinPos.ofOperation → issue body s = .next t →
      p.ofOperation := by
    intro body hb hi
    unfold issue at hi
    split at hi
    · exact finish_waits hb hi hp
    · simp at hi
  cases i with
  | btcalc =>
    simp only [exec, execBtcalc] at ht
    refine key _ ?_ ht
    unfold ofExcept
    split <;> trivial
  | encode =>
    simp only [exec, execEncode] at ht
    refine key _ ?_ ht
    exact trivial
  | decode c =>
    simp only [exec, execDecode] at ht
    refine key _ ?_ ht
    exact ((decodeOrRaise_waits _ _).bind fun _ _ => trivial)
  | mbwrite idx =>
    simp only [exec, execMbwrite] at ht
    refine key _ ?_ ht
    split
    · trivial
    · exact (withIndex_waits (fun i s => mbwrite_waits i _ _ s) _ _).bind fun _ _ => trivial
  | mbread idx =>
    simp only [exec, execMbread] at ht
    refine key _ ?_ ht
    exact ((withIndex_waits (fun i s => readFrom_waits _ i (fun _ => nofun) _ s) _ _).bind fun _ _ => trivial)
  | mbpeek idx =>
    simp only [exec, execMbpeek] at ht
    refine key _ ?_ ht
    exact ((withIndex_waits (fun i s => mbpeek_waits i s) _ _).bind fun _ _ => trivial)
  | mbinact idx =>
    simp only [exec, execMbinact] at ht
    refine key _ ?_ ht
    exact ((withIndex_waits (fun i s => (readReg_waits _ _).bind fun _ _ => writeReg_waits _ _ _) _ _).bind fun _ _ => trivial)
  | mbabort idx =>
    simp only [exec, execMbabort] at ht
    refine key _ ?_ ht
    exact ((withIndex_waits (fun i s => mbabort_waits _ i s) _ _).bind fun _ _ => trivial)
  | txquick =>
    simp only [exec, execTxquick] at ht
    refine key _ ?_ ht
    split
    · trivial
    · exact (txquickScan_waits _ _ _).bind fun _ _ => trivial
  | tx =>
    simp only [exec, execTx] at ht
    refine key _ ?_ ht
    split
    · trivial
    · exact (transmit_waits _ _).bind fun _ _ => trivial
  | rx =>
    simp only [exec, execRx] at ht
    refine key _ ?_ ht
    exact ((receive_waits _).bind fun _ _ => trivial)

/-- The same for an operation that goes on from one of its spins. -/
theorem resume_waits {p q : SpinPos} {s t : State} (h : p.ofOperation) (ht : resume p s = .next t)
    (hq : t.block = .spinning q) : q.ofOperation := by
  refine finish_waits ?_ ht hq
  have hc : ∀ (c : AbortCaller) (i : Fin 16) {r : Res (Option Frame)}, r.Waits SpinPos.ofOperation →
      (continueAbort c i r).Waits SpinPos.ofOperation := by
    intro c i r hr
    cases c with
    | mbabort => exact hr
    | tx f => exact installAfterAbort_waits _ _ hr
  cases p with
  | readBusy c i n =>
    cases c with
    | mbread => exact (readFrom_waits _ _ (fun _ => nofun) _ _).bind fun _ _ => trivial
    | rx => exact (readFrom_waits _ _ (fun _ => nofun) _ _).bind fun _ _ => trivial
    | abort c =>
      exact (hc c i (abortOutcome_waits (readFrom_waits _ _ (fun _ => nofun) _ _))).bind fun _ _ => trivial
  | abortFlag c i n => exact (hc c i (abortFrom_waits _ _ _ _)).bind fun _ _ => trivial
  | boot b n bt st => exact absurd rfl (h b n bt st)

end Sys2Proof.Machine
end

