-- ==== Sys2Proof/Tests/Slice0.lean ====
section
/-! SUPPORT. The model's own tests. Expected values are those of spec/95_test_vectors.md (its row is named in each docstring) or are
worked out by hand from the rule named; and, at the end, for each statement with hypotheses a named theorem that meets them. -/

namespace Sys2Proof.Tests
open Sys2Proof.Machine

/-! ### Helpers -/

/-- The state after a step that answers `next`; reset otherwise. -/
def after (o : Host.Outcome State Fault Refusal) : State :=
  match o with
  | .next t => t
  | .fault _ => State.reset
  | .refused _ => State.reset

/-- Does a step answer `next`? -/
def goesOn (o : Host.Outcome State Fault Refusal) : Bool :=
  match o with
  | .next _ => true
  | .fault _ => false
  | .refused _ => false

theorem next_of_goesOn {o : Host.Outcome State Fault Refusal} (h : goesOn o = true) : o = .next (after o) := by
  cases o <;> first | rfl | simp [goesOn] at h

/-- The launch state of R276 with P5's settings (70_reset_and_hazards.md R276, 95 P5). -/
def launch : State :=
  { State.reset with
    mb := Vector.ofFn fun i =>
      if i.val < 8 then { cs := 0x08400000, idw := 0, d0 := 0, d1 := 0 } else { cs := 0x04400000, idw := 0, d0 := 0, d1 := 0 }
    mcr := 0x0002000F
    ctrl1 := 0x009E0003 }

/-- The launch state with mailbox `i` replaced. -/
def withMb (i : Fin 16) (m : Mailbox) : State := launch.setMailbox i m

/-- A pending mailbox that holds `data(std:v, [b])`. -/
def pendingMb (v : BitVec 11) (b : BitVec 8) : Mailbox :=
  { cs := 0x0C410000, idw := v.setWidth 32 <<< 18, d0 := b.setWidth 32 <<< 24, d1 := 0 }

/-- The start of T2: the identifiers of P2 after its step 8 (95 T2). -/
def fullTx : State :=
  ((((((((launch.setMailbox 0 (pendingMb 0x010 1)).setMailbox 1 (pendingMb 0x020 2)).setMailbox 2 (pendingMb 0x030 3)).setMailbox 3
    (pendingMb 0x500 0x55)).setMailbox 4 (pendingMb 0x040 4)).setMailbox 5 (pendingMb 0x050 5)).setMailbox 6
    (pendingMb 0x060 6)).setMailbox 7 (pendingMb 0x070 7))

/-- The mailbox of RD1. -/
def rd1 : Mailbox := { cs := 0x02420000, idw := 0x048C0000, d0 := 0x11220000, d1 := 0 }

/-- The operand port with a frame operand. -/
def framePort' (f : RawFrame) : OperandPort := framePort f

/-- The operand port with an MBWRITE record. -/
def writePort (code : BufferState) (f : RawFrame) : OperandPort :=
  { OperandPort.reset with mbwrite := { header := { esi := false, code := code, timestamp := 0, prio := 0 }, frame := f } }

/-! ### Ill-formed operand records are refused (30_encoding.md R86), one test for each of its checks; 95 W16 -/

theorem test_wf_base_identifier_too_wide : (RawIdentifier.base 0x800).wf = false ∧ (RawIdentifier.base 0x7FF).wf = true := by decide
theorem test_wf_extended_identifier_too_wide :
    (RawIdentifier.extended 0x20000000).wf = false ∧ (RawIdentifier.extended 0x1FFFFFFF).wf = true := by decide
theorem test_wf_nine_payload_bytes :
    (RawFrame.data (.base 1) [1, 2, 3, 4, 5, 6, 7, 8, 9]).wf = false ∧ (RawFrame.data (.base 1) [1, 2, 3, 4, 5, 6, 7, 8]).wf = true := by
  decide
theorem test_wf_payload_byte_too_large :
    (RawFrame.data (.base 1) [256]).wf = false ∧ (RawFrame.data (.base 1) [255]).wf = true := by decide
theorem test_wf_frame_checks_its_identifier :
    (RawFrame.remote (.base 0x800)).wf = false ∧ (RawFrame.data (.extended 0x20000000) []).wf = false := by decide
theorem test_wf_prio_too_large :
    RawHeader.wf { esi := false, code := .tx .inactive, timestamp := 0, prio := 8 } = false ∧
    RawHeader.wf { esi := false, code := .tx .inactive, timestamp := 0, prio := 7 } = true := by decide
theorem test_wf_timestamp_too_large :
    RawHeader.wf { esi := false, code := .tx .inactive, timestamp := 65536, prio := 0 } = false ∧
    RawHeader.wf { esi := false, code := .tx .inactive, timestamp := 65535, prio := 0 } = true := by decide
theorem test_wf_clock_too_large :
    BtcalcOperands.wf { sel := .sys, clocks := { coreHz := 2 ^ 32, soscdiv2Hz := none }, targetHz := 1 } = false ∧
    BtcalcOperands.wf { sel := .sys, clocks := { coreHz := 1, soscdiv2Hz := some (2 ^ 32) }, targetHz := 1 } = false ∧
    BtcalcOperands.wf { sel := .sys, clocks := { coreHz := 1, soscdiv2Hz := none }, targetHz := 2 ^ 32 } = false ∧
    BtcalcOperands.wf { sel := .sys, clocks := { coreHz := 2 ^ 32 - 1, soscdiv2Hz := none }, targetHz := 1 } = true := by decide
theorem test_wf_mbwrite_and_frame_records :
    MbwriteOperands.wf { header := { esi := false, code := .tx .inactive, timestamp := 0, prio := 8 }, frame := .remote (.base 0) } = false ∧
    MbwriteOperands.wf { header := { esi := false, code := .tx .inactive, timestamp := 0, prio := 0 }, frame := .remote (.base 0x800) } = false ∧
    FrameOperand.wf { frame := .data (.base 0x800) [] } = false := by decide

/-! ### Command words written out field by field: RSV, CODE, IDX, OP (30_encoding.md R81, R82) -/

theorem test_decode_btcalc : decodeWord 0b0000000000000000_0000_00000000_0000 = .ok .btcalc := by decide
theorem test_decode_encode : decodeWord 0b0000000000000000_0000_00000000_0001 = .ok .encode := by decide
theorem test_decode_decode : decodeWord 0b0000000000000000_1001_00000000_0010 = .ok (.decode 9) := by decide
theorem test_decode_mbwrite : decodeWord 0b0000000000000000_0000_00001010_0011 = .ok (.mbwrite 10) := by decide
theorem test_decode_mbread : decodeWord 0b0000000000000000_0000_00010000_0100 = .ok (.mbread 16) := by decide
theorem test_decode_mbpeek : decodeWord 0b0000000000000000_0000_00000011_0101 = .ok (.mbpeek 3) := by decide
theorem test_decode_mbinact : decodeWord 0b0000000000000000_0000_11111111_0110 = .ok (.mbinact 255) := by decide
theorem test_decode_mbabort : decodeWord 0b0000000000000000_0000_00000011_0111 = .ok (.mbabort 3) := by decide
theorem test_decode_txquick : decodeWord 0b0000000000000000_0000_00000000_1000 = .ok .txquick := by decide
theorem test_decode_tx : decodeWord 0b0000000000000000_0000_00000000_1001 = .ok .tx := by decide
theorem test_decode_rx : decodeWord 0b0000000000000000_0000_00000000_1010 = .ok .rx := by decide
/-- 95 D5, P4 steps 6 and 7. -/
theorem test_illegal_words : decodeWord 0x00001001 = .error .codeNotZero ∧ decodeWord 0x0000000B = .error .reservedOp ∧
    decodeWord 0x0001000A = .error .reservedBits ∧ decodeWord 0x00000018 = .error .idxNotZero ∧
    decodeWord 0x00001003 = .error .codeNotZero ∧ decodeWord 0x0000D012 = .error .idxNotZero := by decide
theorem test_decodeTableWord : decodeTableWord 32 0x00000103 = some (.mbwrite 16) ∧ decodeTableWord 32 0x0000000F = none := by decide
/-- A line of the spec's assembler stands for one command word (30_encoding.md R87, 95 P2 step 11). -/
theorem test_asm_mbpeek : (Asm.mbpeek 3).requests = [.command 0x00000035 .reset] := by decide
/-- `mbarm_rx 8` is `mbinact 8` and the pre-seed write (30_encoding.md R88, 95 P5 steps 3 and 4). -/
theorem test_asm_mbarm_rx : (Asm.mbarmRx 8).requests =
    [.command 0x00000086 .reset, .command 0x00000083 (writePort (.rx .empty false) (.data (.base 0) []))] := by decide

/-! ### The operations -/

/-- 95 B5 and its CTRL1 bits. -/
theorem test_btcalc_b5 :
    (after (exec .btcalc { launch with operands := { OperandPort.reset with btcalc :=
      { sel := .sys, clocks := { coreHz := 80000000, soscdiv2Hz := none }, targetHz := 500000 } } })).result =
    some (.ok (.timing { presdiv := 6, propseg := 5, pseg1 := 6, pseg2 := 7, rjw := 3, tqs := 22 })) ∧
    ctrl1Timing { presdiv := 6, propseg := 5, pseg1 := 6, pseg2 := 7, rjw := 3, tqs := 22 } false = 0x06F70005 := by decide
/-- 95 B36: the source is checked before the target. -/
theorem test_btcalc_b36 :
    (after (exec .btcalc { launch with operands := { OperandPort.reset with btcalc :=
      { sel := .soscdiv2, clocks := { coreHz := 0, soscdiv2Hz := none }, targetHz := 0 } } })).result =
    some (.err .clockSourceDisabled) := by decide
/-- 95 E8. -/
theorem test_encode_e8 :
    (after (exec .encode { launch with operands := { OperandPort.reset with encode := { state := .rx .overrun true } } })).result =
    some (.ok (.code 0b0111)) := by decide
/-- 95 D4. -/
theorem test_decode_d4 : (after (exec (.decode 0b1001) launch)).result = some (.ok (.state (.tx .abort))) := by decide
/-- 95 D2. -/
theorem test_decode_d2 : (after (exec (.decode 0b1101) launch)).result = some (.err (.decodeError 0b1101)) := by decide
/-- 95 W1: the accesses in order. -/
theorem test_mbwrite_w1 :
    (after (exec (.mbwrite 0) { launch with operands := writePort (.tx .dataRemote) (.data (.base 0x123) [0x11, 0x22]) })).accesses =
    [.read (.mb 0 0) 0x08400000, .write .iflag1 0x00000001, .write (.mb 0 1) 0x048C0000, .write (.mb 0 2) 0x11220000,
      .write (.mb 0 3) 0x00000000, .write (.mb 0 0) 0x0C420000] := by decide
/-- 95 W5: ESI, PRIO, an extended identifier; the timestamp is written 0. -/
theorem test_mbwrite_w5 :
    (after (exec (.mbwrite 4) { launch with operands := { OperandPort.reset with mbwrite :=
      { header := { esi := true, code := .tx .dataRemote, timestamp := 0x1234, prio := 5 },
        frame := .data (.extended 0x12345) [0x0A, 0x0B, 0x0C] } } })).mb.get 4 =
    { cs := 0x2C630000, idw := 0xA0012345, d0 := 0x0A0B0C00, d1 := 0 } := by decide
/-- 95 RD1. -/
theorem test_mbread_rd1 :
    (after (exec (.mbread 10) (withMb 10 rd1))).result =
      some (.ok (.message { esi := false, code := .rx .full false, timestamp := 0, prio := 0 } (.data (.base 0x123) [0x11, 0x22]))) ∧
    (after (exec (.mbread 10) (withMb 10 rd1))).lockedMb = none := by decide
/-- 95 RD4: DLC 12 reads as 8 bytes. -/
theorem test_mbread_rd4 :
    (after (exec (.mbread 9) (withMb 9 { cs := 0x022C0000, idw := 0x00000ABC, d0 := 0x01020304, d1 := 0x05060708 }))).result =
    some (.ok (.message { esi := false, code := .rx .full false, timestamp := 0, prio := 0 }
      (.data (.extended 0xABC) [1, 2, 3, 4, 5, 6, 7, 8]))) := by decide
/-- 95 PK2: no busy spin. -/
theorem test_mbpeek_pk2 :
    (after (exec (.mbpeek 8) (withMb 8 { cs := 0x05430000, idw := 0, d0 := 0xAABBCC00, d1 := 0 }))).result =
    some (.ok (.message { esi := false, code := .rx .empty true, timestamp := 0, prio := 0 }
      (.data (.base 0) [0xAA, 0xBB, 0xCC]))) := by decide
/-- 95 I1: a frame pending while Running may still complete. -/
theorem test_mbinact_i1 :
    (after (exec (.mbinact 0) (withMb 0 { cs := 0x0C420000, idw := 0, d0 := 0, d1 := 0 }))).mb.get 0 =
      { cs := 0x08000000, idw := 0, d0 := 0, d1 := 0 } ∧
    (after (exec (.mbinact 0) (withMb 0 { cs := 0x0C420000, idw := 0, d0 := 0, d1 := 0 }))).lateTx.get 0 = true := by decide
/-- 95 I4: the role of the code found there, not the index's. -/
theorem test_mbinact_i4 :
    (after (exec (.mbinact 15) (withMb 15 { cs := 0x09000000, idw := 0, d0 := 0, d1 := 0 }))).mb.get 15 =
    { cs := 0x08000000, idw := 0, d0 := 0, d1 := 0 } := by decide
/-- 95 AB1. -/
theorem test_mbabort_ab1 :
    let t := after (exec (.mbabort 3) { withMb 3 (pendingMb 0x500 0x55) with schedule := [[], [], [], [.abortResolve 3 false 0]] })
    t.result = some (.ok (.maybeFrame (some (.data (.base 0x500) [0x55])))) ∧ (t.mb.get 3).cs = 0x09410000 := by decide
/-- 95 AB2. -/
theorem test_mbabort_ab2 :
    let t := after (exec (.mbabort 3) { withMb 3 (pendingMb 0x500 0x55) with schedule := [[], [], [], [.abortResolve 3 true 7]] })
    t.result = some (.ok (.maybeFrame none)) ∧ (t.mb.get 3).cs = 0x08410007 := by decide
/-- 95 TQ4: Abort is not free. -/
theorem test_txquick_tq4 :
    (after (exec .txquick ((fullTx.setCs 0 0x09410000).setCs 2 0x09410000))).result = some (.err .bufferExhausted) := by decide
/-- 95 TQ2. -/
theorem test_txquick_tq2 :
    ((after (exec .txquick { (launch.setCs 0 0x0C400000).setCs 1 0x0C400000 with
      operands := framePort' (.data (.base 0x10) []) })).mb.get 2).cs = 0x0C400000 := by decide
/-- 95 T2. -/
theorem test_tx_t2 :
    let t := after (exec .tx { fullTx with
      operands := framePort' (.data (.base 0x100) [0x01])
      schedule := List.replicate 43 [] ++ [[.abortResolve 3 false 0]] })
    t.result = some (.ok (.maybeFrame (some (.data (.base 0x500) [0x55])))) ∧
    t.mb.get 3 = { cs := 0x0C410000, idw := 0x04000000, d0 := 0x01000000, d1 := 0 } := by decide
/-- 95 T4: an equal identifier does not evict. -/
theorem test_tx_t4 :
    (after (exec .tx { fullTx with operands := framePort' (.data (.base 0x500) []) })).result = some (.err .bufferExhausted) := by
  decide
/-- 95 X3. -/
theorem test_rx_x3 :
    let t := after (exec .rx { withMb 10 rd1 with iflag := 0x00002400 })
    t.result = some (.ok (.frame (.data (.base 0x123) [0x11, 0x22]))) ∧ t.iflag = 0x00002000 := by decide
/-- 95 X2. -/
theorem test_rx_x2 : (after (exec .rx { launch with iflag := 0x000000FF })).result = some (.err .bufferExhausted) := by decide

/-! ### The peripheral -/

/-- 95 P3: the reception into mailbox 13. -/
theorem test_reception_p3 :
    (takeEvent (takeEvent (takeEvent launch (.rxBegin 13 (.data (.extended 0x1ABCDE) [1, 2, 3, 4, 5, 6, 7, 8]) 0x5678))
      (.rxWrite 13 0 false 8 0 0)) (.rxEnd 13)).mb.get 13 =
    { cs := 0x02285678, idw := 0x001ABCDE, d0 := 0x01020304, d1 := 0x05060708 } := by decide
/-- 10_state.md R37, 48_peripheral_agent.md R216, R217, 92_eei_decisions.md D34: no bus step in Transitional. -/
theorem test_no_reception_step_in_transitional :
    let s := takeEvent launch (.rxBegin 13 (.data (.base 1) [7]) 0)
    let u : State := { s with mcr := 0x5002000F }
    u.mode = .transitional ∧ enabled (.rxWrite 13 0 false 1 0 0) u = false ∧
    enabled (.rxEnd 13) { takeEvent s (.rxWrite 13 0 false 1 0 0) with mcr := 0x5002000F } = false := by decide
/-- 70_reset_and_hazards.md R287: a reception that a freeze request meets is let finish, and FRZ_ENTER waits for it (log 23's
parameter). -/
theorem test_reception_finishes_before_freeze :
    let l : State := { launch with params := { launch.params with rxFinishesUnderRequest := true } }
    let s := takeEvent l (.rxBegin 13 (.data (.base 1) [7]) 0)
    let u : State := { s with mcr := 0x5002000F }
    let t := takeEvent (takeEvent u (.rxWrite 13 0 false 1 0 0)) (.rxEnd 13)
    enabled .frzEnter u = false ∧ t.codeAt 13 = 0b0010#4 ∧ t.iflag = 0x00002000 ∧ (takeEvent t .frzEnter).mode = .frozen := by
  decide
/-- 70_reset_and_hazards.md R270 with 10_state.md R39: a soft reset leaves no lock, and the mailbox words as they were. -/
theorem test_soft_reset_releases_the_lock :
    let s : State := { withMb 10 rd1 with lockedMb := some 8, mcr := 0x0202000F }
    (takeEvent s (.softRstDone 0 0 0 0)).lockedMb = none ∧ (takeEvent s (.softRstDone 0 0 0 0)).mb.get 10 = rd1 := by decide
/-- 10_state.md R30 and R37: FRZACK and LPMACK are read-only. -/
theorem test_mcr_write_keeps_read_only_bits : mcrWrite 0x01100000 0xFEEFFFFF = 0xFFFFFFFF ∧ mcrWrite 0 0xFFFFFFFF = 0xFEEFFFFF := by
  decide

/-! ### Witnesses: concrete states and operands that meet the hypotheses of each statement -/

/-- A property of every member of an empty list. -/
theorem none_of_nil {α : Type} {l : List α} {p : α → Prop} (h : l = []) : ∀ x ∈ l, p x := by
  subst h
  exact fun _ h => nomatch h
theorem launch_ready : launch.ready := ⟨rfl, rfl⟩
theorem launch_quiet : launch.quiet := none_of_nil rfl
theorem fullTx_ready : fullTx.ready := ⟨rfl, rfl⟩
theorem fullTx_quiet : fullTx.quiet := none_of_nil rfl

/-- `AcceptedWordIsItsEncoding`. -/
theorem witness_accepted_word : decodeWord 0x000000A3 = .ok (.mbwrite 10) := by decide
/-- `IllegalWordsEndAtOnce`: the four kinds of illegal word at their boundaries, and the idle block that is given one. -/
theorem witness_illegal_words :
    (0xB ≤ ((0x0000000B : Word).extractLsb' 0 4).toNat ∧ (0x00010000 : Word).extractLsb' 16 16 ≠ 0#16 ∧
      (0x00001001 : Word).extractLsb' 12 4 ≠ 0#4 ∧ (0x00000FF2 : Word).extractLsb' 4 8 ≠ 0#8 ∧
      ¬ (0x3 ≤ ((0x00000FF2 : Word).extractLsb' 0 4).toNat)) ∧
    ({ launch with requests := [.command 0x0000000B .reset] } : State).block = .idle := by decide
/-- `TableRowsAreWhatTheDecoderAccepts`: the first and the last row. -/
theorem witness_table_rows : ("BTCALC", 0xFFFFFFFF, 0x00000000) ∈ opcodeTable ∧ ("RX", 0xFFFFFFFF, 0x0000000A) ∈ opcodeTable := by
  decide
/-- `AddressMapIsOneToOne`: the first mailbox word and the last. -/
theorem witness_addresses :
    (0x40024080#32).extractLsb' 0 2 = 0#2 ∧ regAt State.reset.params 0x40024080 = some (.mb 0 0) ∧
    regAt State.reset.params 0x4002417C = some (.mb 15 3) := by decide
/-- `MisplacedAccessesAreRefused`: a state without permission, a narrow access, an unaligned one, a hole and both ends of the map. -/
theorem witness_misplaced_accesses :
    ({ launch with params := { launch.params with accessPermitted := false } } : State).params.accessPermitted = false ∧
    launch.params.accessPermitted = true ∧ (2 ≠ 4) ∧ (0x40024002#32).extractLsb' 0 2 ≠ 0#2 ∧
    (0x4002400C#32).extractLsb' 0 2 = 0#2 ∧ regAt launch.params 0x4002400C = none ∧ regAt launch.params 0x4002407C = none ∧
    regAt launch.params 0x40024180 = none ∧ regAt launch.params 0x40023FFC = none := by decide
/-- `ReadSideEffects`: a permitted access, and a mailbox word other than the CS word. -/
theorem witness_reads : launch.params.accessPermitted = true ∧ ∃ i : Fin 16, ∃ w : Fin 4, w ≠ 0 ∧ Reg.mb 15 3 = .mb i w :=
  ⟨rfl, 15, 3, by decide, rfl⟩
/-- `FlagsAreOnlySetByThePeripheral`: a quiet step that leaves a flag set. -/
theorem witness_flags :
    let s : State := { withMb 10 rd1 with iflag := 0x00002400, requests := [.command 0x0000000A .reset] }
    s.quiet ∧ step s = .next (after (step s)) ∧ (after (step s)).iflag.getLsbD 13 = true :=
  ⟨none_of_nil rfl, next_of_goesOn (by decide), by decide⟩
/-- `CsWriteHiddenEffects`: a Running launch state, a DataRemote word, and words 1 to 3. -/
theorem witness_cs_write :
    launch.params.accessPermitted = true ∧ codeOf 0x0C420000 = 0b1100#4 ∧ launch.mode = .running ∧
    launch.params.hwTxOrder = .any ∧ (1 : Fin 4) ≠ 0 ∧ (3 : Fin 4) ≠ 0 := by decide
/-- `BusStepsOnlyWhileRunning`: reset is Disabled, and a Frozen state; a bus step, and a mode step that is not SOFTRST_DONE. -/
theorem witness_bus_steps :
    State.reset.mode = .disabled ∧ ({ launch with mcr := 0x5100000F } : State).mode = .frozen ∧
    (Event.txComplete 0 0).isMode = false ∧ (Event.txComplete 0 0).finishesReception = false ∧
    launch.params.rxFinishesUnderRequest = false ∧ (Event.rxEnd 0).isMode = false ∧
    ({ launch with mcr := 0x5002000F } : State).mode = .transitional ∧ (∀ m c f r : Word, Event.lpmExit ≠ .softRstDone m c f r) :=
  ⟨by decide, by decide, rfl, rfl, rfl, rfl, by decide, fun _ _ _ _ h => by cases h⟩
/-- `TxCompleteStep`: its guard under `lowestIdFirst`, and its negation. -/
theorem witness_tx_complete :
    enabled (.txComplete 0 5) { fullTx with params := { fullTx.params with hwTxOrder := .lowestIdFirst } } = true ∧
    enabled (.txComplete 1 5) { fullTx with params := { fullTx.params with hwTxOrder := .lowestIdFirst } } = false ∧
    enabled (.txComplete 1 5) fullTx = true ∧ enabled (.txComplete 0 5) launch = false := by decide
/-- `AbortResolveStep`: its guard, and its negation. -/
theorem witness_abort_resolve :
    enabled (.abortResolve 3 true 5) { fullTx.setCs 3 0x09410000 with abortReq := put fullTx.abortReq 3 true } = true ∧
    enabled (.abortResolve 3 true 5) fullTx = false := by decide
/-- `ReceptionDeliversTheFrame`: a full-length data frame into an empty mailbox, a remote frame into a full one. -/
theorem witness_reception :
    enabled (.rxBegin 15 (.data (.base 0x7FF) [1, 2, 3, 4, 5, 6, 7, 8]) 0xFFFF) launch = true ∧
    enabled (.rxBegin 10 (.remote (.extended 1)) 0) (withMb 10 rd1) = true ∧ (Frame.remote (.extended 1)).isRemote = true ∧
    ({ launch.params with rxFinishesUnderRequest := true } : Config.Params).rxFinishesUnderRequest = true ∧
    modeOf launch.mcr = .running ∧ lpmAck 0x5002000F = false ∧ frzAck 0x5002000F = false ∧ frz 0x5002000F = true ∧ halt 0x5002000F = true ∧
    mdis 0x5002000F = false ∧ mdis 0x8002000F = true ∧ lpmAck 0x8002000F = false ∧ frzAck 0x8002000F = false := by decide
/-- `LockHoldsOffReceptions`. -/
theorem witness_lock :
    let s : State := { launch with lockedMb := some 10, params := { launch.params with lockBlocksHw := true } }
    s.params.lockBlocksHw = true ∧ s.lockedMb = some 10 ∧ launch.params.lockBlocksHw = false ∧
    (∀ m c f r : Word, Event.lpmExit ≠ .softRstDone m c f r) := ⟨rfl, rfl, rfl, fun _ _ _ _ h => by cases h⟩
/-- `ModeStepsAcknowledgeRequests`: a state in which each mode step is enabled. -/
theorem witness_mode_steps :
    enabled .lpmEnter { launch with mcr := 0x80000000 } = true ∧ enabled .lpmExit { launch with mcr := 0x00100000 } = true ∧
    enabled .frzEnter { launch with mcr := 0x50000000 } = true ∧ enabled .frzExit { launch with mcr := 0x41000000 } = true ∧
    enabled (.softRstDone 0 0 0 0) { launch with mcr := 0x02000000 } = true := by decide
/-- `HavocAndLateSteps`: a state in which each is enabled. -/
theorem witness_havoc_and_late :
    enabled (.answerHavoc 10 rd1) (launch.setCs 10 0x0A400000) = true ∧
    enabled (.busError 0 15 true) { launch with params := { launch.params with havocOnBusError := true } } = true ∧
    enabled (.lateTx 0) { launch with lateTx := put launch.lateTx 0 true } = true ∧
    enabled (.lateDrop 0) { launch with lateTx := put launch.lateTx 0 true } = true := by decide
/-- `EncodeReturnsTheCode`, `DecodeReturnsTheState`: an idle block. -/
theorem witness_idle : launch.block = .idle := rfl
/-- `CodecLaws`: a pattern that decodes. -/
theorem witness_codec : decodeState 0b1110#4 = some (.tx .tanswer) := by decide
/-- `BtcalcCompletes`: the least and the greatest ratio, with each source clock. -/
theorem witness_btcalc :
    let o : BtcalcOperands := { sel := .sys, clocks := { coreHz := 6399, soscdiv2Hz := none }, targetHz := 1 }
    let o' : BtcalcOperands := { sel := .soscdiv2, clocks := { coreHz := 0, soscdiv2Hz := some 8000000 }, targetHz := 1000000 }
    (o.wf = true ∧ o.sel = .sys ∧ o.clocks.coreHz = 6399 * o.targetHz) ∧
    (o'.wf = true ∧ o'.sel = .soscdiv2 ∧ o'.clocks.soscdiv2Hz = some (8 * o'.targetHz)) := by decide
/-- `BtcalcErrors`: an input for each of its clauses, at the boundaries. -/
theorem witness_btcalc_errors :
    let o := fun (source target : Nat) => ({ sel := .sys, clocks := { coreHz := source, soscdiv2Hz := none }, targetHz := target } : BtcalcOperands)
    BtcalcOperands.wf { sel := .soscdiv2, clocks := { coreHz := 1, soscdiv2Hz := none }, targetHz := 1 } = true ∧
    (o 1 0).wf = true ∧ (o 8000000 3000000).wf = true ∧ ¬ 3000000 ∣ 8000000 ∧ (o 4 1).wf = true ∧ (o 0 1).wf = true ∧
    (o 5 1).wf = true ∧ (o 7 1).wf = true ∧ (o 6400 1).wf = true ∧ (6400 = 6400 * 1) := by decide
/-- `IllFormedOperandsEndAtOnce`: a record for each of its clauses. -/
theorem witness_ill_formed :
    (∃ id bytes, RawFrame.data (.base 2048) [] = .data id bytes ∧ ((∃ v, id = .base v ∧ 2 ^ 11 ≤ v) ∨ 8 < bytes.length)) ∧
    (∃ id, RawFrame.remote (.extended 536870912) = .remote id ∧ ∃ v, id = .extended v ∧ 2 ^ 29 ≤ v) ∧
    (∃ b ∈ [256], 256 ≤ b) ∧ 8 < [0, 1, 2, 3, 4, 5, 6, 7, 8].length ∧ 2 ^ 16 ≤ 65536 ∧ 2 ^ 32 ≤ 4294967296 :=
  ⟨⟨_, _, rfl, .inl ⟨2048, rfl, by decide⟩⟩, ⟨_, rfl, 536870912, rfl, by decide⟩, by decide, by decide, by decide, by decide⟩
/-- `IndexAndHeaderChecksComeFirst`: the least and the greatest index out of range; 95 W11, W12, W13. -/
theorem witness_index_and_header :
    16 ≤ (16#8).toNat ∧ 16 ≤ (255#8).toNat ∧ (writePort (.tx .dataRemote) (.remote (.base 1))).mbwrite.wf = true ∧
    (BufferState.tx .dataRemote).role ≠ (if (12 : Fin 16).val < 8 then Role.transmit else Role.receive) ∧
    (BufferState.rx .empty false).role ≠ (if (1 : Fin 16).val < 8 then Role.transmit else Role.receive) := by decide
/-- `MbwriteCompletes`, `CodeWordIsWrittenLast`: 95 W1, and the receive side at the last index. -/
theorem witness_mbwrite :
    let s : State := { launch with operands := writePort (.tx .dataRemote) (.data (.base 0x123) [0x11, 0x22]) }
    s.ready ∧ s.quiet ∧
    mbwriteOperands s.operands.mbwrite = some (txHdr, .data (.base 0x123) [0x11, 0x22]) ∧ txHdr.code.role = roleOfIndex 0 ∧
    txHdr.code.isBusy = false ∧ s.stateAt 0 = some (.tx .inactive) ∧
    exec (.mbwrite (BitVec.ofNat 8 (0 : Fin 16).val)) s = .next (after (exec (.mbwrite 0) s)) ∧
    (after (exec (.mbwrite 0) s)).result = some (.ok .unit) :=
  ⟨⟨rfl, rfl⟩, none_of_nil rfl, by decide, by decide, by decide, by decide, next_of_goesOn (by decide), by decide⟩
theorem witness_mbwrite_receive :
    let s : State := { launch.setCs 15 0 with operands := writePort (.rx .empty false) (.remote (.extended 1)) }
    (seedHdr (.rx .empty false)).code.role = roleOfIndex 15 ∧ s.stateAt 15 = some (.rx .inactive false) ∧
    mbwriteOperands s.operands.mbwrite = some (seedHdr (.rx .empty false), .remote (.extended 1)) := by decide
/-- `MbwriteRefusalMutatesNothing`: 95 W8 and W15. -/
theorem witness_mbwrite_refusal :
    let s : State := { fullTx with operands := writePort (.tx .dataRemote) (.data (.base 1) []) }
    s.ready ∧ mbwriteOperands s.operands.mbwrite = some (txHdr, .data (.base 1) []) ∧
    decodeState (codeOf ((gap s).mb.get 5).cs) = some (.tx .dataRemote) ∧
    decodeState (codeOf ((gap (s.setCs 7 0x0F000000)).mb.get 7).cs) = none := ⟨⟨rfl, rfl⟩, by decide, by decide, by decide⟩
/-- `ReadsEndByReleasingTheLock`: MBREAD and RX go on from a spin, the mailbox free at last. -/
theorem witness_reads_end :
    let u : State := { withMb 10 rd1 with block := .spinning (.readBusy .mbread 10 1) }
    let r : State := { withMb 15 rd1 with block := .spinning (.readBusy .rx 15 1) }
    (step u = .next (after (step u)) ∧ (after (step u)).block = .idle) ∧
    (step r = .next (after (step r)) ∧ (after (step r)).block = .idle) :=
  ⟨⟨next_of_goesOn (by decide), by decide⟩, next_of_goesOn (by decide), by decide⟩
/-- `MbreadCompletes`, `ReadsEndByReleasingTheLock`: 95 RD1. -/
theorem witness_mbread :
    (withMb 10 rd1).ready ∧ (withMb 10 rd1).quiet ∧ (withMb 10 rd1).stateAt 10 = some (.rx .full false) ∧
    exec (.mbread (BitVec.ofNat 8 (10 : Fin 16).val)) (withMb 10 rd1) = .next (after (exec (.mbread 10) (withMb 10 rd1))) ∧
    (after (exec (.mbread 10) (withMb 10 rd1))).block = .idle :=
  ⟨⟨rfl, rfl⟩, none_of_nil rfl, by decide, next_of_goesOn (by decide), by decide⟩
/-- `MbreadSpinsWhileBusy`: a busy mailbox with the least bound that lets it spin, and a spin whose mailbox is free. -/
theorem witness_mbread_spin :
    let s : State := { withMb 8 { cs := 0x03430000, idw := 0, d0 := 0, d1 := 0 } with
      params := { launch.params with spinBound := some 2 } }
    let u : State := { withMb 10 rd1 with block := .spinning (.readBusy .mbread 10 1) }
    (s.ready ∧ s.quiet ∧ s.stateAt 8 = some (.rx .full true) ∧ ∀ b, s.params.spinBound = some b → 1 < b) ∧
    (u.block = .spinning (.readBusy .mbread 10 1) ∧ u.params.accessPermitted = true ∧ u.quiet ∧
      u.stateAt 10 = some (.rx .full false)) :=
  ⟨⟨⟨rfl, rfl⟩, none_of_nil rfl, by decide, fun b h => by cases h; decide⟩, rfl, rfl, none_of_nil rfl, by decide⟩
/-- `MbpeekCompletes`: 95 PK2. -/
theorem witness_mbpeek :
    let s := withMb 8 { cs := 0x05430000, idw := 0, d0 := 0, d1 := 0 }
    s.ready ∧ s.quiet ∧ s.stateAt 8 = some (.rx .empty true) := ⟨⟨rfl, rfl⟩, none_of_nil rfl, by decide⟩
/-- `MbinactCompletes`: any ready and quiet state. -/
theorem witness_mbinact : launch.ready ∧ launch.quiet := ⟨launch_ready, launch_quiet⟩
/-- `MbabortCompletes`: 95 AB1. -/
theorem witness_mbabort :
    let s : State := { fullTx with schedule := [[], [], [], [.abortResolve 3 false 0]] }
    s.ready ∧ s.mode = .running ∧ s.codeAt 3 = 0b1100#4 ∧ s.schedule = [] :: [] :: [] :: [.abortResolve 3 false 0] :: [] :=
  ⟨⟨rfl, rfl⟩, by decide, by decide, rfl⟩
/-- An abort of mailbox 3 for `c` that finds its flag set, with the CS word `cs` there. -/
def abortSpin (c : AbortCaller) (cs : Word) : State :=
  { fullTx.setCs 3 cs with block := .spinning (.abortFlag c 3 1), iflag := 0x00000008 }
theorem abortSpin_ends (c : AbortCaller) (cs : Word) :
    (abortSpin c cs).block = .spinning (.abortFlag c 3 1) ∧ (abortSpin c cs).params.accessPermitted = true ∧
    (abortSpin c cs).quiet ∧ abortEnds (.abortFlag c 3 1) c 3 [.read .iflag1 0x00000008] (abortSpin c cs) :=
  ⟨rfl, rfl, none_of_nil rfl, .inl ⟨1, rfl, (by decide : flagSet 0x00000008 3 = true), rfl⟩⟩
/-- `MbabortCompletes` and `TxEvictsTheWorstPending`, going on from a spin (`abortSpin_ends`): the codes re-read, with 95 AB6 and a
reserved one, and a re-read that was busy. -/
theorem witness_abort_goes_on :
    (∀ c : AbortCaller, (abortSpin c 0x09410000).stateAt 3 = some (.tx .abort)) ∧
    (∀ c : AbortCaller, (abortSpin c 0x08410000).stateAt 3 = some (.tx .inactive)) ∧
    (∀ c : AbortCaller, (abortSpin c 0x02410000).stateAt 3 = some (.rx .full false)) ∧
    (∀ c : AbortCaller, (abortSpin c 0x0F410000).stateAt 3 = none) ∧
    abortEnds (.readBusy (.abort .mbabort) 3 2) .mbabort 3 [] launch :=
  ⟨fun _ => (by decide : decodeState (codeOf ((fullTx.setCs 3 0x09410000).mb.get 3).cs) = some (.tx .abort)),
    fun _ => (by decide : decodeState (codeOf ((fullTx.setCs 3 0x08410000).mb.get 3).cs) = some (.tx .inactive)),
    fun _ => (by decide : decodeState (codeOf ((fullTx.setCs 3 0x02410000).mb.get 3).cs) = some (.rx .full false)),
    fun _ => (by decide : decodeState (codeOf ((fullTx.setCs 3 0x0F410000).mb.get 3).cs) = none), .inr ⟨2, rfl, rfl⟩⟩
/-- 95 T2's mailbox to evict. -/
theorem fullTx_target : EvictionTarget fullTx 3 (.data (.base 0x100) [1]) :=
  ⟨by decide, fun j h => ⟨.tx .dataRemote, by revert h; revert j; decide, by decide⟩, by decide, by decide, by decide, by decide⟩
/-- `MbabortChecksTheCode`: 95 AB4, a reserved code, and 95 T10. -/
theorem witness_mbabort_checks :
    let s : State := { fullTx with
      operands := framePort (.data (.base 0x100) [1])
      schedule := List.replicate 40 [] ++ [.txComplete 3 9] :: [] }
    (launch.ready ∧ decodeState (codeOf ((gap launch).mb.get 3).cs) = some (.tx .inactive) ∧
      decodeState (codeOf ((gap (launch.setCs 3 0x0D000000)).mb.get 3).cs) = none) ∧
    (s.ready ∧ s.mode = .running ∧ frameOperand s.operands.frame = some (.data (.base 0x100) [1]) ∧
      EvictionTarget s 3 (.data (.base 0x100) [1]) ∧ s.params.hwTxOrder = .any) :=
  ⟨⟨launch_ready, by decide, by decide⟩, ⟨rfl, rfl⟩, by decide, by decide,
    ⟨fullTx_target.1, fullTx_target.2, fullTx_target.3, fullTx_target.4, fullTx_target.5, fullTx_target.6⟩, rfl⟩
/-- `AbortAfterSendReturnsASentFrame`: 95 AB3. -/
theorem witness_abort_after_send :
    let s : State := { fullTx with schedule := [[], [], [.txComplete 3 9]] }
    s.ready ∧ s.mode = .running ∧ s.params.hwTxOrder = .any ∧ s.codeAt 3 = 0b1100#4 ∧ s.abortReq.get 3 = false ∧
    s.schedule = [] :: [] :: [.txComplete 3 9] :: [] := ⟨⟨rfl, rfl⟩, by decide, rfl, by decide, by decide, rfl⟩
/-- `ReservedCodesAreErrors`: 95 TQ6 and T11 for the transmit side, 95 X6 for the receive side. -/
theorem witness_reserved_codes :
    let s : State := { fullTx.setCs 1 0x0F000000 with operands := writePort (.tx .dataRemote) (.remote (.base 1)) }
    let r : State := { launch.setCs 15 0x0F000000 with iflag := 0x00008000 }
    (s.ready ∧ s.quiet ∧ s.stateAt 1 = none ∧
      mbwriteOperands s.operands.mbwrite = some (txHdr, .remote (.base 1)) ∧ txHdr.code.role = roleOfIndex 1 ∧
      (∀ j : Fin 16, j < 1 → s.codeAt j = 0b1100#4) ∧ frameOperand s.operands.frame = some (.data (.base 0) [])) ∧
    (r.ready ∧ r.quiet ∧ r.stateAt 15 = none ∧ flagSet r.iflag 15 = true ∧
      ∀ j : Fin 16, 8 ≤ j.val → j < 15 → flagSet r.iflag j = false) :=
  ⟨⟨⟨rfl, rfl⟩, none_of_nil rfl, by decide, by decide, by decide, by decide, by decide⟩,
    ⟨rfl, rfl⟩, none_of_nil rfl, by decide, by decide, by decide⟩
/-- `TxquickCompletes`, `TxPlacesTheFrame`: the last transmit mailbox is the only free one. -/
theorem witness_txquick :
    let s : State := { fullTx.setCs 7 0x08400000 with operands := framePort (.data (.base 0x10) []) }
    s.ready ∧ s.quiet ∧ frameOperand s.operands.frame = some (.data (.base 0x10) []) ∧
    (∀ j : Fin 16, j < 7 → s.stateAt j = some (.tx .dataRemote)) ∧ s.stateAt 7 = some (.tx .inactive) ∧
    (∀ j : Fin 16, j.val < 8 → s.stateAt j ≠ none) :=
  ⟨⟨rfl, rfl⟩, none_of_nil rfl, by decide, by decide, by decide, by decide⟩
/-- `TxquickExhausted`: 95 TQ3. -/
theorem witness_txquick_exhausted :
    fullTx.ready ∧ fullTx.quiet ∧ frameOperand fullTx.operands.frame = some (.data (.base 0) []) ∧
    ∀ j : Fin 16, j.val < 8 → fullTx.stateAt j = some (.tx .dataRemote) :=
  ⟨fullTx_ready, fullTx_quiet, by decide, by decide⟩
/-- `EightTransmissionsThenExhausted`: 95 P1, with nine frames alike. -/
theorem witness_eight_transmissions :
    let f : Frame := .data (.base 0x100) [0]
    let ops := fun g : Frame => framePort g.spell
    let s : State := { launch with requests := (List.replicate 9 f).map fun g => .command 0x00000008 (ops g) }
    s.ready ∧ s.quiet ∧ (List.replicate 9 f).length = 9 ∧ frameOperand (ops f).frame = some f ∧
    (∀ j : Fin 16, j.val < 8 → s.codeAt j = 0b1000#4) :=
  ⟨⟨rfl, rfl⟩, none_of_nil rfl, rfl, by decide, by decide⟩
/-- `TxEvictsTheWorstPending`: 95 T2 and T5. -/
theorem witness_tx_evicts :
    let s : State := { fullTx with
      operands := framePort (.data (.base 0x100) [1])
      schedule := List.replicate 43 [] ++ [.abortResolve 3 true 0] :: [] }
    s.ready ∧ s.mode = .running ∧ frameOperand s.operands.frame = some (.data (.base 0x100) [1]) ∧
    EvictionTarget s 3 (.data (.base 0x100) [1]) :=
  ⟨⟨rfl, rfl⟩, by decide, by decide,
    fullTx_target.1, fullTx_target.2, fullTx_target.3, fullTx_target.4, fullTx_target.5, fullTx_target.6⟩
/-- `TxRefusesLowerPriority`: 95 T4, an equal identifier. -/
theorem witness_tx_refuses :
    let s : State := { fullTx with operands := framePort (.data (.base 0x500) []) }
    s.ready ∧ s.quiet ∧ frameOperand s.operands.frame = some (.data (.base 0x500) []) ∧
    (∀ j : Fin 16, j.val < 8 → s.stateAt j = some (.tx .dataRemote)) ∧
    (∀ j : Fin 16, j.val < 8 → (s.heldFrame j).id.num ≤ Identifier.num (.base 0x500)) :=
  ⟨⟨rfl, rfl⟩, none_of_nil rfl, by decide, by decide, by decide⟩
/-- `RxCompletes`: the last receive mailbox. -/
theorem witness_rx :
    let s : State := { withMb 15 rd1 with iflag := 0x00008000 }
    s.ready ∧ s.quiet ∧ flagSet s.iflag 15 = true ∧ (∀ j : Fin 16, 8 ≤ j.val → j < 15 → flagSet s.iflag j = false) ∧
    s.stateAt 15 = some (.rx .full false) ∧
    ({ s with block := .spinning (.readBusy .rx 15 1) } : State).block = .spinning (.readBusy .rx 15 1) :=
  ⟨⟨rfl, rfl⟩, none_of_nil rfl, by decide, by decide, by decide, rfl⟩
/-- `RxEmpty`: 95 X7. -/
theorem witness_rx_empty :
    ({ launch with iflag := 0x000100FF } : State).ready ∧
    (gap { launch with iflag := 0x000100FF }).iflag.extractLsb' 8 8 = 0#8 := ⟨⟨rfl, rfl⟩, by decide⟩
/-- `RxTakesTheFirstFlagFirst`: 95 P3. -/
theorem witness_rx_order :
    let s : State := { (withMb 10 rd1).setMailbox 13 rd1 with
      iflag := 0x00002400
      requests := [.command 0x0000000A .reset, .command 0x0000000A .reset] }
    s.ready ∧ s.quiet ∧ flagSet s.iflag 10 = true ∧ flagSet s.iflag 13 = true ∧ flagSet s.iflag 8 = false ∧
    flagSet s.iflag 9 = false ∧ flagSet s.iflag 11 = false ∧ flagSet s.iflag 12 = false ∧
    s.stateAt 10 = some (.rx .full false) ∧ s.stateAt 13 = some (.rx .full false) :=
  ⟨⟨rfl, rfl⟩, none_of_nil rfl, by decide, by decide, by decide, by decide, by decide, by decide, by decide, by decide⟩
/-- `WriteThenReadReturnsTheFrame`: a frame of eight bytes, an MBWRITE and an MBREAD of mailbox 0. -/
theorem witness_write_then_read :
    let f : Frame := .data (.base 0x123) [1, 2, 3, 4, 5, 6, 7, 8]
    let s : State := { launch with requests :=
      [.command 0x00000003 (writePort (.tx .dataRemote) f.spell), .command 0x00000004 .reset] }
    f.wf = true ∧ s.ready ∧ s.quiet ∧ decodeWord 0x00000003 = .ok (.mbwrite (BitVec.ofNat 8 (0 : Fin 16).val)) ∧
    decodeWord 0x00000004 = .ok (.mbread (BitVec.ofNat 8 (0 : Fin 16).val)) ∧
    mbwriteOperands (writePort (.tx .dataRemote) f.spell).mbwrite = some (txHdr, f) ∧ txHdr.code.role = roleOfIndex 0 ∧
    s.stateAt 0 = some (.tx .inactive) :=
  ⟨by decide, ⟨rfl, rfl⟩, none_of_nil rfl, by decide, by decide, by decide, by decide, by decide⟩
/-- `OperationsWriteOnlyFlagsAndMailboxes`, `ParametersNeverChange`: a step that goes on. -/
theorem witness_exec_next : exec .rx launch = .next (after (exec .rx launch)) ∧ step launch = .next (after (step launch)) :=
  ⟨next_of_goesOn (by decide), next_of_goesOn (by decide)⟩
/-- `OperationsWriteOnlyFlagsAndMailboxes`: a spin of TX's abort that goes on, with TX's MBWRITE after it. -/
theorem witness_spin_next :
    let s := abortSpin (.tx (.data (.base 0x100) [1])) 0x09410000
    s.block = .spinning (.abortFlag (.tx (.data (.base 0x100) [1])) 3 1) ∧
    (∀ b n bt st, SpinPos.abortFlag (.tx (.data (.base 0x100) [1])) 3 1 ≠ .boot b n bt st) ∧
    (∀ a ∈ s.accesses, a.mailboxOnly) ∧ step s = .next (after (step s)) ∧ (after (step s)).accesses.length = 13 :=
  ⟨rfl, nofun, none_of_nil rfl, next_of_goesOn (by decide), by decide⟩
/-- Settings with rx_fifo and no frequency. -/
def badSettings : Settings :=
  { warningInterrupt := false, selfReception := false, rxFifo := true, individualMasking := false, loopbackMode := false,
    clockSource := .sys, canFrequency := 0 }
/-- `InitFailsFast`: an idle block asked for INIT, a settings error, and rx_fifo with good timing. -/
theorem witness_init_fails_fast :
    (({ launch with requests := [.init badSettings { coreHz := 8000000, soscdiv2Hz := none }] } : State).block = .idle ∧
      badSettings.rxFifo = true) ∧
    checkedTiming { sel := .sys, clocks := { coreHz := 8000000, soscdiv2Hz := none }, targetHz := 0 } = .error .settingsError ∧
    (∃ bt, checkedTiming { sel := .sys, clocks := { coreHz := 8000000, soscdiv2Hz := none }, targetHz := 500000 } = .ok bt) :=
  ⟨⟨rfl, rfl⟩, by decide, _, rfl⟩
/-- `StepRunsTheDecodedInstruction`: each of its clauses. -/
theorem witness_step :
    (({ launch with requests := [.command 0x0000000A .reset] } : State).block = .idle ∧ decodeWord 0x0000000A = .ok .rx) ∧
    ({ launch with block := .spinning (.readBusy .mbread 8 1) } : State).block = .spinning (.readBusy .mbread 8 1) ∧
    (launch.block = .idle ∧ launch.requests = []) ∧ decodeWord (encode .tx) = .ok .tx := by decide
/-- `CallerLoopsWhileExhausted`: an exhausted and a successful RX. -/
theorem witness_caller_loops :
    let s : State := { launch with requests := [.commandUntilFree 0x0000000A .reset] }
    let u : State := { withMb 10 rd1 with iflag := 0x00000400 }
    s.block = .idle ∧ decodeWord 0x0000000A = .ok .rx ∧
    exec .rx { s with requests := [] } = .next (after (exec .rx { s with requests := [] })) ∧
    (after (exec .rx { s with requests := [] })).result = some (.err .bufferExhausted) ∧
    (after (exec .rx u)).result ≠ some (.err .bufferExhausted) :=
  ⟨rfl, by decide, next_of_goesOn (by decide), by decide, by decide⟩
/-- `OverlappingOperationIsRefused`, `HangStaysInItsSpin`: MBREAD's spin, MBABORT's and one of INIT's. -/
theorem witness_hang :
    let b : State := { withMb 8 { cs := 0x03430000, idw := 0, d0 := 0, d1 := 0 } with block := .spinning (.readBusy .mbread 8 1) }
    let a : State := { fullTx with block := .spinning (.abortFlag .mbabort 3 1) }
    let i : State := { State.reset with block := .spinning (.boot .enable1 1
      { presdiv := 0, propseg := 3, pseg1 := 3, pseg2 := 6, rjw := 2, tqs := 16 }
      { warningInterrupt := false, selfReception := false, rxFifo := false, individualMasking := false, loopbackMode := false,
        clockSource := .soscdiv2, canFrequency := 500000 }) }
    (b.params.accessPermitted = true ∧ b.params.spinBound = none ∧ b.quiet ∧ stuckAt (.readBusy .mbread 8 1) b ∧
      stuckAt (.readBusy .mbread 8 1) (gap b)) ∧
    (a.params.spinBound = none ∧ a.quiet ∧ stuckAt (.abortFlag .mbabort 3 1) a) ∧
    (i.params.spinBound = none ∧ i.quiet ∧ ∀ bt st, stuckAt (.boot .enable1 1 bt st) i) :=
  ⟨⟨rfl, rfl, none_of_nil rfl, ⟨.rx .full true, by decide, rfl⟩, .rx .full true, by decide, rfl⟩, ⟨rfl, none_of_nil rfl, rfl⟩,
    rfl, none_of_nil rfl, fun _ _ => rfl⟩
/-- `SpinTimesOutAtTheBound`: the last re-read before the bound, and one before it. -/
theorem witness_timeout :
    let s : State := { withMb 14 { cs := 0x05400000, idw := 0, d0 := 0, d1 := 0 } with
      block := .spinning (.readBusy .mbread 14 2)
      params := { launch.params with spinBound := some 3 } }
    let u : State := { s with params := { launch.params with spinBound := some 4 } }
    (s.params.accessPermitted = true ∧ s.params.spinBound = some 3 ∧ (SpinPos.readBusy .mbread 14 2).count < 3 ∧
      (SpinPos.readBusy .mbread 14 2).count + 1 = 3 ∧ s.quiet ∧ stuckAt (.readBusy .mbread 14 2) s ∧
      stuckAt (.readBusy .mbread 14 2) (gap s)) ∧
    (u.params.spinBound = some 4 ∧ (SpinPos.readBusy .mbread 14 2).count + 1 < 4 ∧ stuckAt (.readBusy .mbread 14 2) (gap u)) :=
  ⟨⟨rfl, rfl, by decide, rfl, none_of_nil rfl, ⟨.rx .empty true, by decide, rfl⟩, .rx .empty true, by decide, rfl⟩,
    rfl, by decide, .rx .empty true, by decide, rfl⟩
/-- `SpinTimesOutAtTheBound`, the first re-read: a busy mailbox, flagged for RX, and a victim for TX, with the bound at 1 and at 2. -/
theorem witness_first_reread :
    let s := fun b : Nat => ({ withMb 8 { cs := 0x03430000, idw := 0, d0 := 0, d1 := 0 } with
      iflag := 0x00000100, params := { launch.params with spinBound := some b } } : State)
    let x := fun b : Nat => ({ fullTx with
      operands := framePort (.data (.base 0x100) [1]), params := { launch.params with spinBound := some b } } : State)
    (∀ b, (s b).ready ∧ (s b).quiet ∧ (s b).params.spinBound = some b ∧ (s b).stateAt 8 = some (.rx .full true) ∧
      flagSet (s b).iflag 8 = true ∧ (∀ j : Fin 16, 8 ≤ j.val → ¬ j < 8)) ∧
    (∀ b, (x b).ready ∧ (x b).quiet ∧ (x b).params.spinBound = some b ∧ (x b).codeAt 3 = 0b1100#4 ∧
      frameOperand (x b).operands.frame = some (.data (.base 0x100) [1]) ∧ EvictionTarget (x b) 3 (.data (.base 0x100) [1])) ∧
    (lpmAck launch.mcr = false ∧
      ∃ bt, checkedTiming { sel := .sys, clocks := { coreHz := 8000000, soscdiv2Hz := none }, targetHz := 500000 } = .ok bt) ∧
    (1 ≤ 1 ∧ ¬ 2 ≤ 1) := by
  refine ⟨fun b => ⟨⟨rfl, rfl⟩, none_of_nil rfl, rfl,
      (by decide : decodeState (codeOf 0x03430000) = some (.rx .full true)), (by decide : flagSet 0x00000100 8 = true), by decide⟩,
    fun b => ⟨⟨rfl, rfl⟩, none_of_nil rfl, rfl, fullTx_target.3,
      (by decide : frameOperand { frame := .data (.base 0x100) [1] } = some (.data (.base 0x100) [1])), ?_⟩, ⟨by decide, _, rfl⟩, by decide⟩
  exact ⟨fullTx_target.1, fullTx_target.2, fullTx_target.3, fullTx_target.4, fullTx_target.5, fullTx_target.6⟩
/-- P5's settings (95 P5). -/
def p5Settings : Settings :=
  { warningInterrupt := false, selfReception := false, rxFifo := false, individualMasking := false, loopbackMode := false,
    clockSource := .soscdiv2, canFrequency := 500000 }
/-- B1's timing (95 B1). -/
def b1 : Timing := { presdiv := 0, propseg := 3, pseg1 := 3, pseg2 := 6, rjw := 2, tqs := 16 }
/-- The launch state is one. -/
theorem launch_launch : Launch b1 p5Settings launch := by
  constructor <;> decide
/-- `LaunchStateHasTheMailboxRoles`, and the start of `EveryStepKeepsTheMailboxRoles` and `EveryStepKeepsTheHiddenInvariant`. -/
theorem witness_roles :
    launch.params.havocOnBusError = false ∧ noAnswerHeader launch.operands ∧ (∀ r ∈ launch.requests, r.noAnswer) ∧
    RoleInv launch ∧ HiddenInv launch ∧ step launch = .next (after (step launch)) := by
  refine ⟨rfl, rfl, none_of_nil rfl, ⟨rfl, ?_, fun i m h => ?_, rfl, none_of_nil rfl⟩,
    ⟨rfl, fun i h => ?_, fun i h => ?_, fun i j h => ?_, fun i h => ?_, fun i m h => ?_⟩, next_of_goesOn (by decide)⟩
  · unfold roleCode; decide
  all_goals
    revert h
    simp [launch, State.reset, Vector.get_eq_getElem]
/-- Power-on with P5's INIT asked for, and a peripheral that takes each mode step as soon as it is enabled (95 P5). -/
def p5Boot : State :=
  { State.reset with
    requests := [.init p5Settings { coreHz := 48000000, soscdiv2Hz := some 8000000 }]
    schedule := List.replicate 170 [.lpmEnter, .lpmExit, .frzEnter, .frzExit, .softRstDone 0xFFFFFFFF 0xFFFFFFFF 0xFFFFFFFF 0xFFFFFFFF] }
/-- `InitReachesTheLaunchState`: 95 P5. -/
theorem witness_init :
    p5Boot.ready ∧ p5Boot.onlyModeSteps ∧
    checkedTiming { sel := .soscdiv2, clocks := { coreHz := 48000000, soscdiv2Hz := some 8000000 }, targetHz := 500000 } = .ok b1 ∧
    runSteps 12 p5Boot = .next (after (runSteps 12 p5Boot)) ∧ (after (runSteps 12 p5Boot)).requests = [] ∧
    (after (runSteps 12 p5Boot)).block = .idle ∧ (after (runSteps 12 p5Boot)).result = some (.ok .unit) := by
  refine ⟨⟨rfl, rfl⟩, ?_, by decide, next_of_goesOn ?_, ?_⟩
  · intro es hes e he
    rw [List.eq_of_mem_replicate hes] at he
    revert e; decide
  · decide +kernel
  · decide +kernel
/-- 95 P5: the registers INIT leaves, MCR's named bits and CTRL1's. -/
theorem test_init_p5 :
    (after (runSteps 12 p5Boot)).mcr &&& 0xF333007F = 0x0002000F ∧
    (after (runSteps 12 p5Boot)).ctrl1 &&& 0xFFFF3007 = 0x009E0003 := by decide +kernel

end Sys2Proof.Tests
end

section
/-! 00_scope.md R2, R6, 10_state.md R22, 30_encoding.md R80: what one step of the machine is, case by case, and that it leaves the
parameters and takes the caller's requests one at a time. -/

namespace Sys2Proof.Machine

/-! ### What a step is -/

/-- With a spin in progress a step is one more iteration of it. -/
theorem step_spinning {s : State} {p : SpinPos} (hb : s.block = .spinning p) : step s = resume p s := by
  simp only [step, hb]

/-- An idle block with nothing asked gives the peripheral its turn. -/
theorem step_idle_nil {s : State} (hb : s.block = .idle) (hr : s.requests = []) : step s = .next (gap s) := by
  simp only [step, hb, hr]

/-- An idle block takes the first of the caller's requests. -/
theorem step_idle_cons {s : State} {req : Request} {rest : List Request} (hb : s.block = .idle)
    (hr : s.requests = req :: rest) : step s = runRequest req { s with requests := rest } := by
  simp only [step, hb, hr]

/-- A legal word runs the operation it decodes to. -/
theorem runWord_of_decodeWord {w : Word} {i : Instr} (h : decodeWord w = .ok i) (s : State) : runWord w s = exec i s := by
  simp only [runWord, h]

/-- A command taken by an idle block runs the operation its word decodes to, with its operand records on the port. -/
theorem step_command {s : State} {w : Word} {ops : OperandPort} {rest : List Request} {i : Instr} (hb : s.block = .idle)
    (hr : s.requests = .command w ops :: rest) (hw : decodeWord w = .ok i) :
    step s = exec i { s with requests := rest, operands := ops } :=
  (step_idle_cons hb hr).trans (runWord_of_decodeWord hw _)

/-- All 32 bits of a word are the word. -/
@[simp] theorem wordOfBits_toNat (w : Word) : wordOfBits 32 w.toNat = w := by
  rw [wordOfBits, Nat.mod_eq_of_lt w.isLt, BitVec.ofNat_toNat, BitVec.setWidth_eq]

/-- A word placed by `withFetchWord` is run by the next step, on the operand records and the queue that were there. -/
theorem step_withFetchWord {w : Word} {i : Instr} (hw : decodeWord w = .ok i) (s : State) :
    step (s.withFetchWord 32 w.toNat) = exec i { s with block := .idle } :=
  step_command (s := s.withFetchWord 32 w.toNat) rfl rfl (by rwa [wordOfBits_toNat])

/-! ### The parameters and the queue -/

/-- The parameters are `p` and what the caller has still to ask is `rs`: the part of the state that no operation touches. -/
structure State.Asks (p : Config.Params) (rs : List Request) (s : State) : Prop where
  params : s.params = p
  requests : s.requests = rs

section
variable {p : Config.Params} {rs : List Request}

theorem readEffect_asks (r : Reg) {s : State} (h : s.Asks p rs) : (readEffect r s).Asks p rs := by
  cases r with
  | mb i w =>
    simp only [readEffect]
    split <;> exact ⟨h.params, h.requests⟩
  | _ => exact ⟨h.params, h.requests⟩

theorem writeEffect_asks (r : Reg) (v : Word) {s : State} (h : s.Asks p rs) : (writeEffect r v s).Asks p rs := by
  cases r with
  | mb i w =>
    simp only [writeEffect]
    split <;> exact ⟨h.params, h.requests⟩
  | _ => exact ⟨h.params, h.requests⟩

theorem gap_asks {s : State} (h : s.Asks p rs) : (gap s).Asks p rs :=
  ⟨(gap_params s).trans h.params, (gap_requests s).trans h.requests⟩

/-- Every access, with the peripheral's turn before it, leaves the parameters and the queue. -/
theorem keeps_asks (p : Config.Params) (rs : List Request) : Keeps (fun _ => true) (State.Asks p rs) := by
  refine Keeps.of (fun s h => gap_asks h) (fun r s h => ?_) (fun r v s _ h => ?_)
  · have hread := readEffect_asks r h
    exact ⟨hread.params, hread.requests⟩
  · have hwrite := writeEffect_asks r v h
    exact ⟨hwrite.params, hwrite.requests⟩

/-- The record of how an operation ends leaves the parameters and the queue. -/
theorem endsAs_asks {u t : State} (h : u.Asks p rs) (ht : endsAs u t) : t.Asks p rs := by
  rcases ht with ⟨res, rfl⟩ | ⟨q, rfl⟩ <;> exact ⟨h.params, h.requests⟩

theorem exec_asks {i : Instr} {s t : State} (h : s.Asks p rs) (ht : exec i s = .next t) : t.Asks p rs := by
  obtain ⟨u, hu, hend⟩ := exec_all (keeps_asks p rs) (fun _ _ => rfl) ⟨h.params, h.requests⟩ ht
  exact endsAs_asks hu hend

theorem execInit_asks {st : Settings} {clocks : ClockInfo} {s t : State} (h : s.Asks p rs)
    (ht : execInit st clocks s = .next t) : t.Asks p rs := by
  obtain ⟨u, hu, hend⟩ := execInit_all (keeps_asks p rs) ⟨h.params, h.requests⟩ ht
  exact endsAs_asks hu hend

theorem resume_asks {q : SpinPos} {s t : State} (h : s.Asks p rs) (ht : resume q s = .next t) : t.Asks p rs := by
  obtain ⟨u, hu, hend⟩ := resume_all (keeps_asks p rs) h ht
  exact endsAs_asks hu hend

/-- An illegal word ends its command with the error and does nothing else. -/
theorem execIllegal_next {w : Word} {s t : State} (ht : execIllegal w s = .next t) :
    t = s.started.finished (.err (.illegalCommand w)) := by
  cases hb : s.block with
  | idle => simpa [execIllegal, issue_idle _ hb] using ht.symm
  | spinning q => simp [execIllegal, issue_spinning _ hb] at ht

theorem runWord_asks {w : Word} {s t : State} (h : s.Asks p rs) (ht : runWord w s = .next t) : t.Asks p rs := by
  unfold runWord at ht
  split at ht
  · exact exec_asks h ht
  · rw [execIllegal_next ht]
    exact ⟨h.params, h.requests⟩

/-- The caller's loop leaves the state its command came to, with the request put back or not (30_encoding.md R88). -/
theorem requeue_next {req : Request} {o : Host.Outcome State Fault Refusal} {t : State} (ht : requeue req o = .next t) :
    ∃ u, o = .next u ∧ (t = u ∨ t = { u with requests := req :: u.requests }) := by
  cases o with
  | next u =>
    simp only [requeue] at ht
    split at ht
    · exact ⟨u, rfl, .inr (Host.Outcome.next.inj ht).symm⟩
    · exact ⟨u, rfl, .inl (Host.Outcome.next.inj ht).symm⟩
  | fault f => cases f
  | refused r => simp [requeue] at ht

/-- A request is used up or, a loop's, put back at the head of the queue. -/
theorem runRequest_asks {req : Request} {s t : State} (h : s.Asks p rs) (ht : runRequest req s = .next t) :
    t.Asks p rs ∨ t.Asks p (req :: rs) := by
  cases req with
  | init st clocks => exact .inl (execInit_asks h ht)
  | command w ops => exact .inl (runWord_asks (s := s.withOperands ops) ⟨h.params, h.requests⟩ ht)
  | commandUntilFree w ops =>
    obtain ⟨u, hu, hend⟩ := requeue_next ht
    have hasks : u.Asks p rs := runWord_asks (s := s.withOperands ops) ⟨h.params, h.requests⟩ hu
    rcases hend with rfl | rfl
    · exact .inl hasks
    · exact .inr ⟨hasks.params, congrArg _ hasks.requests⟩

end

/-- A step leaves the parameters, and leaves the caller's queue or takes its first request. -/
theorem step_asks {s t : State} (ht : step s = .next t) :
    t.Asks s.params s.requests ∨ t.Asks s.params s.requests.tail := by
  cases hb : s.block with
  | spinning q => exact .inl (resume_asks ⟨rfl, rfl⟩ (step_spinning hb ▸ ht))
  | idle =>
    cases hr : s.requests with
    | nil =>
      rw [step_idle_nil hb hr, Host.Outcome.next.injEq] at ht
      exact .inl (ht ▸ gap_asks ⟨rfl, hr⟩)
    | cons req rest => exact (runRequest_asks ⟨rfl, rfl⟩ (step_idle_cons hb hr ▸ ht)).symm

end Sys2Proof.Machine

open Sys2Proof Sys2Proof.Machine

/-- Settles O60: every access keeps the parameters and the queue, so every operation does, and `step` alone takes a request. -/
theorem parametersNeverChange : Obligations.ParametersNeverChange := by
  intro s t ht
  rcases step_asks ht with h | h
  · exact ⟨h.params, .inl h.requests⟩
  · exact ⟨h.params, .inr h.requests⟩

/-- Settles O52, by the equations of `step` for each of its cases. -/
theorem stepRunsTheDecodedInstruction : Obligations.StepRunsTheDecodedInstruction :=
  ⟨fun _ _ _ _ _ hb hr hw => step_command hb hr hw, fun _ _ hb => step_spinning hb,
    fun _ hb hr => step_idle_nil hb hr, fun s _ hw => step_withFetchWord hw s⟩
end

section
/-! 48_peripheral_agent.md R211 to R227, 20_memory.md R65, R66: which mailbox a peripheral step or an access acts on, and what it
leaves alone. The invariants of 10_state.md R27, R34 and R36 are proved from these lemmas. -/

namespace Sys2Proof.Machine

/-- `t` has the mailboxes of `s`, the hidden state the invariants read and the parameters. -/
structure SameMailboxes (s t : State) : Prop where
  mb : t.mb = s.mb
  abortReq : t.abortReq = s.abortReq
  rxStage : t.rxStage = s.rxStage
  params : t.params = s.params

/-- `t` differs from `s`, in what the invariants read, in mailbox `i` and its hidden state alone. -/
structure ActsAt (i : Fin 16) (s t : State) : Prop where
  mb : ∀ j, j ≠ i → t.mb.get j = s.mb.get j
  hidden : sameHiddenBut i s t
  mcr : t.mcr = s.mcr
  params : t.params = s.params
  operands : t.operands = s.operands
  requests : t.requests = s.requests

theorem ActsAt.codeAt {i j : Fin 16} {s t : State} (h : ActsAt i s t) (hj : j ≠ i) : t.codeAt j = s.codeAt j :=
  congrArg (fun m : Mailbox => codeOf m.cs) (h.mb j hj)

theorem SameMailboxes.codeAt {s t : State} (h : SameMailboxes s t) (i : Fin 16) : t.codeAt i = s.codeAt i :=
  congrArg (fun mb : Vector Mailbox 16 => codeOf (mb.get i).cs) h.mb

/-! ### The code of a mailbox -/

theorem codeAt_of_get {s : State} {i : Fin 16} {m : Mailbox} (h : s.mb.get i = m) : s.codeAt i = codeOf m.cs :=
  congrArg (fun m : Mailbox => codeOf m.cs) h

@[simp] theorem State.setMailbox_codeAt_self (s : State) (i : Fin 16) (m : Mailbox) :
    (s.setMailbox i m).codeAt i = codeOf m.cs := codeAt_of_get (get_put_self _ _ _)

@[simp] theorem State.setCs_codeAt_self (s : State) (i : Fin 16) (cs : Word) : (s.setCs i cs).codeAt i = codeOf cs :=
  State.setMailbox_codeAt_self _ _ _

/-! ### Accesses -/

/-- A read's side effect is on the timer and on the mailbox lock alone (20_memory.md R65). -/
theorem readEffect_eq (r : Reg) (s : State) :
    ∃ timer draws lock, readEffect r s = { s with timer := timer, draws := draws, lockedMb := lock } := by
  cases r with
  | mb i w =>
    simp only [readEffect]
    split
    · exact ⟨_, _, some i, rfl⟩
    · exact ⟨_, _, s.lockedMb, rfl⟩
  | timer => exact ⟨_, _, none, rfl⟩
  | _ => exact ⟨_, _, s.lockedMb, rfl⟩

theorem setMailbox_actsAt (i : Fin 16) (m : Mailbox) (s : State) : ActsAt i s (s.setMailbox i m) :=
  ⟨fun _ hj => get_put_ne _ _ hj.symm, fun _ _ => ⟨rfl, rfl, rfl⟩, rfl, rfl, rfl, rfl⟩

/-- A block CS write acts on its mailbox alone (48_peripheral_agent.md R227). -/
theorem csWrite_actsAt (i : Fin 16) (v : Word) (m : Mailbox) (s : State) :
    ActsAt i s ((csWriteHidden i v s).setMailbox i m) := by
  refine ⟨fun _ hj => get_put_ne _ _ hj.symm, fun j hj => ⟨get_put_ne _ _ hj.symm, ?_, get_put_ne _ _ hj.symm⟩,
    rfl, rfl, rfl, rfl⟩
  simp only [csWriteHidden, State.setMailbox_lateTx]
  split
  · exact get_put_ne _ _ hj.symm
  · rfl

/-- A write to words 1 to 3 of a mailbox stores the word and has no hidden effect. -/
theorem writeEffect_payload (i : Fin 16) {w : Fin 4} (hw : w ≠ 0) (v : Word) (s : State) :
    writeEffect (.mb i w) v s = s.setMailbox i ((s.mb.get i).setWord w v) := by
  simp [writeEffect, hw]

theorem Mailbox.setWord_cs (m : Mailbox) {w : Fin 4} (hw : w ≠ 0) (v : Word) : (m.setWord w v).cs = m.cs := by
  simpa [hw] using m.word_setWord w 0 v

/-! ### Peripheral steps -/

/-- The mailbox a bus step acts on (48_peripheral_agent.md R211). -/
def Event.mailbox : Event → Option (Fin 16)
  | .txComplete i _ | .abortResolve i _ _ | .rxBegin i _ _ | .rxWrite i _ _ _ _ _ | .rxEnd i | .answerHavoc i _
  | .busError i _ _ | .lateTx i | .lateDrop i => some i
  | .lpmEnter | .lpmExit | .frzEnter | .frzExit | .softRstDone _ _ _ _ => none

/-- A bus step acts on its own mailbox alone. -/
theorem effect_actsAt {e : Event} {i : Fin 16} (h : e.mailbox = some i) (s : State) : ActsAt i s (effect e s) := by
  have hset : ∀ m, ActsAt i s (s.setMailbox i m) := fun m => setMailbox_actsAt i m s
  cases e <;> cases h
  case txComplete ts => exact ⟨(hset _).mb, fun _ _ => ⟨rfl, rfl, rfl⟩, rfl, rfl, rfl, rfl⟩
  case abortResolve sent ts =>
    cases sent
    · exact ⟨fun _ _ => rfl, fun _ hj => ⟨get_put_ne _ _ hj.symm, rfl, rfl⟩, rfl, rfl, rfl, rfl⟩
    · exact ⟨(hset _).mb, fun _ hj => ⟨get_put_ne _ _ hj.symm, rfl, rfl⟩, rfl, rfl, rfl, rfl⟩
  case rxBegin f ts => exact ⟨(hset _).mb, fun _ hj => ⟨rfl, rfl, get_put_ne _ _ hj.symm⟩, rfl, rfl, rfl, rfl⟩
  case rxWrite prio srr dlc p0 p1 =>
    simp only [effect, rxWriteEffect]
    split
    · exact ⟨fun _ _ => rfl, fun _ _ => ⟨rfl, rfl, rfl⟩, rfl, rfl, rfl, rfl⟩
    · exact ⟨(hset _).mb, fun _ hj => ⟨rfl, rfl, get_put_ne _ _ hj.symm⟩, rfl, rfl, rfl, rfl⟩
  case rxEnd =>
    simp only [effect, rxEndEffect]
    split
    · exact ⟨fun _ _ => rfl, fun _ _ => ⟨rfl, rfl, rfl⟩, rfl, rfl, rfl, rfl⟩
    · exact ⟨(hset _).mb, fun _ hj => ⟨rfl, rfl, get_put_ne _ _ hj.symm⟩, rfl, rfl, rfl, rfl⟩
  case answerHavoc words => exact ⟨(hset _).mb, fun _ _ => ⟨rfl, rfl, rfl⟩, rfl, rfl, rfl, rfl⟩
  case busError code f => cases f <;> exact ⟨(hset _).mb, fun _ _ => ⟨rfl, rfl, rfl⟩, rfl, rfl, rfl, rfl⟩
  case lateTx => exact ⟨fun _ _ => rfl, fun _ hj => ⟨rfl, get_put_ne _ _ hj.symm, rfl⟩, rfl, rfl, rfl, rfl⟩
  case lateDrop => exact ⟨fun _ _ => rfl, fun _ hj => ⟨rfl, get_put_ne _ _ hj.symm, rfl⟩, rfl, rfl, rfl, rfl⟩

/-- Running excludes both acknowledges (10_state.md R37). -/
theorem acks_of_running {s : State} (h : s.running = true) : lpmAck s.mcr = false ∧ frzAck s.mcr = false := by
  simp only [State.running, State.mode, modeOf, beq_iff_eq] at h
  cases hl : lpmAck s.mcr <;> cases hf : frzAck s.mcr <;> simp [hl, hf] at h ⊢

theorem rxStage_of_noReception {s : State} (h : s.noReception = true) (i : Fin 16) : s.rxStage.get i = none := by
  have hall := List.all_eq_true.mp h _ (Vector.mem_toList_iff.mpr (Vector.getElem_mem i.isLt))
  simpa [Vector.get_eq_getElem] using hall

/-- RX_BEGIN makes the code its busy variant and starts a reception that ends in Full or Overrun (48_peripheral_agent.md R215). -/
theorem rxBegin_codeAt (i : Fin 16) (f : Frame) (ts : BitVec 16) (s : State) :
    (effect (.rxBegin i f ts) s).codeAt i = s.codeAt i ||| 0b0001 ∧
      ∃ m, (effect (.rxBegin i f ts) s).rxStage.get i = some m ∧ (m.final = .full ∨ m.final = .overrun) := by
  refine ⟨(State.setCs_codeAt_self _ _ _).trans (codeOf_withCode _ _), _, get_put_self _ _ _, ?_⟩
  dsimp only
  split
  · exact .inl rfl
  · exact .inr rfl

/-- What RX_END stores is Full or Overrun, not busy, as RX_BEGIN chose (48_peripheral_agent.md R215, R217). -/
theorem rxEnd_codeAt {i : Fin 16} {s : State} {m : RxMove} (h : s.rxStage.get i = some m) :
    (effect (.rxEnd i) s).codeAt i = encodeState (.rx m.final false) ∧ (effect (.rxEnd i) s).rxStage.get i = none := by
  simp only [effect, rxEndEffect, h]
  exact ⟨(State.setCs_codeAt_self _ _ _).trans (codeOf_withCode _ _), get_put_self _ _ _⟩

/-- RX_WRITE keeps the code and only marks the reception as written (48_peripheral_agent.md R216). -/
theorem rxWrite_codeAt {i : Fin 16} {s : State} {m : RxMove} (h : s.rxStage.get i = some m) (prio : BitVec 3) (srr : Bool)
    (dlc : BitVec 4) (p0 p1 : Word) :
    (effect (.rxWrite i prio srr dlc p0 p1) s).codeAt i = s.codeAt i ∧
      (effect (.rxWrite i prio srr dlc p0 p1) s).rxStage.get i = some { m with written := true } := by
  simp only [effect, rxWriteEffect, h]
  exact ⟨(State.setMailbox_codeAt_self _ _ _).trans (codeOf_receivedCs _ _ _ _ _), get_put_self _ _ _⟩

end Sys2Proof.Machine
end

section
/-! 10_state.md R34, R36, R39; 48_peripheral_agent.md R214, R215, R225, R227: the hidden state agrees with the mailbox codes and with
the mode at reset, and every peripheral step and every access keeps it so. -/

namespace Sys2Proof.Machine

section
variable {s t : State} {i : Fin 16}

theorem HiddenInv.abortReq_false (h : HiddenInv s) (hc : s.codeAt i ≠ 0b1001#4) : s.abortReq.get i = false :=
  Bool.eq_false_iff.mpr fun ha => hc (h.abort_code i ha)

theorem HiddenInv.rxStage_none (h : HiddenInv s) (hc : ¬ receivingCode (s.codeAt i)) : s.rxStage.get i = none :=
  Option.not_isSome_iff_eq_none.mp fun hr => hc (h.stage_code i hr)

/-- With no abort request and no reception in progress nothing is left to agree. -/
theorem HiddenInv.of_clear (hp : s.params.havocOnBusError = false) (habort : ∀ i, s.abortReq.get i = false)
    (hstage : ∀ i, s.rxStage.get i = none) : HiddenInv s := by
  refine ⟨hp, fun i ha => ?_, fun i hr => ?_, fun i _ hr => ?_, fun i hr => ?_, fun i m hm => ?_⟩
  · simp [habort i] at ha
  · simp [hstage i] at hr
  · simp [hstage i] at hr
  · simp [hstage i] at hr
  · simp [hstage i] at hm

/-- Where the mailboxes stay as they are, only the mode can break the invariant. -/
theorem HiddenInv.of_sameMailboxes (h : HiddenInv s) (hs : SameMailboxes s t)
    (hmode : ∀ i, (s.rxStage.get i).isSome = true → lpmAck t.mcr = false ∧ frzAck t.mcr = false) : HiddenInv t where
  no_havoc := hs.params ▸ h.no_havoc
  abort_code i ha := (hs.codeAt i).trans (h.abort_code i (hs.abortReq ▸ ha))
  stage_code i hr := (hs.codeAt i).symm ▸ h.stage_code i (hs.rxStage ▸ hr)
  one_stage i j hi hj := h.one_stage i j (hs.rxStage ▸ hi) (hs.rxStage ▸ hj)
  stage_mode i hr := hmode i (hs.rxStage ▸ hr)
  stage_final i m hm := h.stage_final i m (hs.rxStage ▸ hm)

/-- Where one mailbox changes, the invariant stands if it stands of that mailbox, and if a reception that begins there finds no
other one. -/
theorem HiddenInv.of_actsAt (h : HiddenInv s) (hact : ActsAt i s t)
    (habort : t.abortReq.get i = true → t.codeAt i = 0b1001#4)
    (hstage : ∀ m, t.rxStage.get i = some m → receivingCode (t.codeAt i) ∧ (m.final = .full ∨ m.final = .overrun))
    (hbegin : (t.rxStage.get i).isSome = true →
      (s.rxStage.get i).isSome = true ∨ (s.noReception = true ∧ s.running = true)) : HiddenInv t := by
  have hother : ∀ j, j ≠ i → (t.rxStage.get j).isSome = true → (s.rxStage.get j).isSome = true := fun j hj hr =>
    (hact.hidden j hj).2.2 ▸ hr
  have halone : ∀ j, (t.rxStage.get i).isSome = true → (t.rxStage.get j).isSome = true → j = i := by
    intro j hi hr
    by_contra hj
    rcases hbegin hi with hold | ⟨hnone, -⟩
    · exact hj (h.one_stage j i (hother j hj hr) hold)
    · simpa [rxStage_of_noReception hnone j] using hother j hj hr
  constructor
  case no_havoc => exact hact.params ▸ h.no_havoc
  case abort_code =>
    intro j ha
    by_cases hj : j = i
    · exact hj ▸ habort (hj ▸ ha)
    · exact (hact.codeAt hj).trans (h.abort_code j ((hact.hidden j hj).1 ▸ ha))
  case stage_code =>
    intro j hr
    by_cases hj : j = i
    · obtain ⟨m, hm⟩ := Option.isSome_iff_exists.mp hr
      exact hj ▸ (hstage m (hj ▸ hm)).1
    · exact (hact.codeAt hj).symm ▸ h.stage_code j (hother j hj hr)
  case one_stage =>
    intro j k hrj hrk
    by_cases hj : j = i
    · exact hj.trans (halone k (hj ▸ hrj) hrk).symm
    · by_cases hk : k = i
      · exact (halone j (hk ▸ hrk) hrj).trans hk.symm
      · exact h.one_stage j k (hother j hj hrj) (hother k hk hrk)
  case stage_mode =>
    intro j hr
    rw [hact.mcr]
    by_cases hj : j = i
    · rcases hbegin (hj ▸ hr) with hold | ⟨-, hrun⟩
      · exact h.stage_mode i hold
      · exact acks_of_running hrun
    · exact h.stage_mode j (hother j hj hr)
  case stage_final =>
    intro j m hm
    by_cases hj : j = i
    · exact (hstage m (hj ▸ hm)).2
    · exact h.stage_final j m ((hact.hidden j hj).2.2 ▸ hm)

/-- The common case: the mailbox that changes has no reception in progress afterwards. -/
theorem HiddenInv.of_actsAt_idle (h : HiddenInv s) (hact : ActsAt i s t)
    (habort : t.abortReq.get i = true → t.codeAt i = 0b1001#4) (hidle : t.rxStage.get i = none) : HiddenInv t :=
  h.of_actsAt hact habort (by simp [hidle]) (by simp [hidle])

/-- The code of the mailbox that changes stays, and so does what is hidden of it. -/
theorem HiddenInv.of_actsAt_same (h : HiddenInv s) (hact : ActsAt i s t) (hcode : t.codeAt i = s.codeAt i)
    (habort : t.abortReq.get i = s.abortReq.get i) (hstage : t.rxStage.get i = s.rxStage.get i) : HiddenInv t := by
  refine h.of_actsAt hact (fun ha => hcode ▸ h.abort_code i (habort ▸ ha)) (fun m hm => ?_) (fun hr => .inl (hstage ▸ hr))
  have hold : s.rxStage.get i = some m := hstage ▸ hm
  exact ⟨hcode ▸ h.stage_code i (Option.isSome_of_eq_some hold), h.stage_final i m hold⟩

/-- A code on which a reception begins is the busy variant's code afterwards (48_peripheral_agent.md R215). -/
theorem receivingCode_busy {c : BitVec 4} (h : receivable c = true) : receivingCode (c ||| 0b0001) := by
  unfold receivingCode
  revert c
  decide

/-- A remote-answer code is neither an Abort code nor one of a reception in progress. -/
theorem answerCode_excludes {c : BitVec 4} (h : answerCode c = true) : c ≠ 0b1001#4 ∧ ¬ receivingCode c := by
  unfold receivingCode
  revert c
  decide

/-! ### Peripheral steps -/

theorem HiddenInv.rxBegin (h : HiddenInv s) {f : Frame} {ts : BitVec 16} (hen : enabled (.rxBegin i f ts) s = true) :
    HiddenInv (effect (.rxBegin i f ts) s) := by
  simp only [enabled, Bool.and_eq_true] at hen
  obtain ⟨⟨⟨⟨hrun, hrec⟩, hnone⟩, -⟩, -⟩ := hen
  obtain ⟨hcode, m, hm, hfinal⟩ := rxBegin_codeAt i f ts s
  have hfree : s.abortReq.get i = false := h.abortReq_false fun hc => absurd hrec (by rw [hc]; decide)
  refine h.of_actsAt (effect_actsAt rfl s) (fun ha => absurd (hfree.symm.trans ha) Bool.false_ne_true)
    (fun m' hm' => ⟨hcode ▸ receivingCode_busy hrec, ?_⟩) (fun _ => .inr ⟨hnone, hrun⟩)
  exact Option.some.inj (hm.symm.trans hm') ▸ hfinal

theorem HiddenInv.rxWrite (h : HiddenInv s) (prio : BitVec 3) (srr : Bool) (dlc : BitVec 4) (p0 p1 : Word)
    {m : RxMove} (hm : s.rxStage.get i = some m) : HiddenInv (effect (.rxWrite i prio srr dlc p0 p1) s) := by
  have hact : ActsAt i s (effect (.rxWrite i prio srr dlc p0 p1) s) := effect_actsAt rfl s
  obtain ⟨hcode, hstage⟩ := rxWrite_codeAt hm prio srr dlc p0 p1
  have habort : (effect (.rxWrite i prio srr dlc p0 p1) s).abortReq = s.abortReq := by
    simp only [effect, rxWriteEffect, hm]; rfl
  have hold : (s.rxStage.get i).isSome = true := Option.isSome_of_eq_some hm
  refine h.of_actsAt hact (fun ha => hcode ▸ h.abort_code i (habort ▸ ha)) (fun m' hm' => ⟨?_, ?_⟩) (fun _ => .inl hold)
  · exact hcode ▸ h.stage_code i hold
  · obtain rfl := Option.some.inj (hstage.symm.trans hm')
    exact h.stage_final i m hm

theorem HiddenInv.rxEnd (h : HiddenInv s) {m : RxMove} (hm : s.rxStage.get i = some m) :
    HiddenInv (effect (.rxEnd i) s) := by
  have habort : (effect (.rxEnd i) s).abortReq = s.abortReq := by
    simp only [effect, rxEndEffect, hm]; rfl
  have hbusy : receivingCode (s.codeAt i) := h.stage_code i (Option.isSome_of_eq_some hm)
  have hfree : s.abortReq.get i = false := h.abortReq_false fun hc => by simp [receivingCode, hc] at hbusy
  refine h.of_actsAt_idle (effect_actsAt rfl s) (fun ha => ?_) (rxEnd_codeAt hm).2
  rw [habort, hfree] at ha
  exact absurd ha Bool.false_ne_true

/-- Every peripheral step keeps the hidden state consistent. -/
theorem HiddenInv.effect (h : HiddenInv s) {e : Event} (hen : enabled e s = true) : HiddenInv (effect e s) := by
  have hnone : s.noReception = true → ∀ i, (s.rxStage.get i).isSome = true → False := fun hn i hr => by
    simp [rxStage_of_noReception hn i] at hr
  cases e with
  | txComplete i ts =>
    simp only [enabled, Bool.and_eq_true, beq_iff_eq] at hen
    obtain ⟨⟨-, hc⟩, -⟩ := hen
    have hfree : s.abortReq.get i = false := h.abortReq_false (by rw [hc]; decide)
    exact h.of_actsAt_idle (effect_actsAt rfl s) (fun ha => absurd (hfree.symm.trans ha) Bool.false_ne_true)
      (h.rxStage_none (by simp [receivingCode, hc]))
  | abortResolve i sent ts =>
    simp only [enabled, Bool.and_eq_true, beq_iff_eq] at hen
    obtain ⟨⟨-, hc⟩, -⟩ := hen
    have hidle : s.rxStage.get i = none := h.rxStage_none (by simp [receivingCode, hc])
    have hclear : (put s.abortReq i false).get i = false := get_put_self _ _ _
    refine h.of_actsAt_idle (effect_actsAt rfl s) (fun ha => ?_) ?_
    · cases sent <;> exact absurd (hclear.symm.trans ha) Bool.false_ne_true
    · cases sent <;> exact hidle
  | rxBegin i f ts => exact h.rxBegin hen
  | rxWrite i prio srr dlc p0 p1 =>
    cases hm : s.rxStage.get i with
    | none => simp [enabled, hm] at hen
    | some m => exact h.rxWrite prio srr dlc p0 p1 hm
  | rxEnd i =>
    cases hm : s.rxStage.get i with
    | none => simp [enabled, hm] at hen
    | some m => exact h.rxEnd hm
  | answerHavoc i words =>
    simp only [enabled, Bool.and_eq_true] at hen
    obtain ⟨-, hc⟩ := hen
    have hfree := h.abortReq_false (answerCode_excludes hc).1
    exact h.of_actsAt_idle (effect_actsAt rfl s) (fun ha => absurd (hfree.symm.trans ha) Bool.false_ne_true)
      (h.rxStage_none (answerCode_excludes hc).2)
  | busError i code f => simp [enabled, h.no_havoc] at hen
  | lateTx i => exact h.of_sameMailboxes ⟨rfl, rfl, rfl, rfl⟩ h.stage_mode
  | lateDrop i => exact h.of_sameMailboxes ⟨rfl, rfl, rfl, rfl⟩ h.stage_mode
  | lpmEnter =>
    simp only [enabled, Bool.and_eq_true] at hen
    exact h.of_sameMailboxes ⟨rfl, rfl, rfl, rfl⟩ fun i hr => (hnone hen.2 i hr).elim
  | frzEnter =>
    simp only [enabled, Bool.and_eq_true] at hen
    exact h.of_sameMailboxes ⟨rfl, rfl, rfl, rfl⟩ fun i hr => (hnone hen.2 i hr).elim
  | lpmExit =>
    refine h.of_sameMailboxes ⟨rfl, rfl, rfl, rfl⟩ fun i hr => ⟨?_, ?_⟩
    · exact (getLsbD_clearBit _ 20 20 (by decide)).trans (by simp)
    · exact (getLsbD_clearBit _ 20 24 (by decide)).trans (by simpa [frzAck] using (h.stage_mode i hr).2)
  | frzExit =>
    refine h.of_sameMailboxes ⟨rfl, rfl, rfl, rfl⟩ fun i hr => ⟨?_, ?_⟩
    · exact (getLsbD_clearBit _ 24 20 (by decide)).trans (by simpa [lpmAck] using (h.stage_mode i hr).1)
    · exact (getLsbD_clearBit _ 24 24 (by decide)).trans (by simp)
  | softRstDone m c f r =>
    exact .of_clear h.no_havoc (fun _ => get_replicate _ _) (fun _ => get_replicate _ _)

theorem HiddenInv.gap (h : HiddenInv s) : HiddenInv (gap s) :=
  gap_keeps HiddenInv (fun _ _ h => h.of_sameMailboxes ⟨rfl, rfl, rfl, rfl⟩ h.stage_mode)
    (fun _ _ hen h => h.effect hen) h

/-! ### Accesses -/

theorem HiddenInv.readEffect (h : HiddenInv s) (r : Reg) : HiddenInv (readEffect r s) := by
  obtain ⟨_, _, _, hr⟩ := readEffect_eq r s
  exact hr ▸ h.of_sameMailboxes ⟨rfl, rfl, rfl, rfl⟩ h.stage_mode

/-- A block CS write leaves an abort request on an Abort code only, and no reception in its mailbox (48_peripheral_agent.md R227). -/
theorem HiddenInv.csWrite (h : HiddenInv s) (i : Fin 16) (v : Word) : HiddenInv ((csWriteHidden i v s).setCs i v) := by
  refine h.of_actsAt_idle (csWrite_actsAt i v _ s) (fun ha => ?_) (get_put_self _ _ _)
  have hreq := (get_put_self s.abortReq i _).symm.trans ha
  rw [State.setCs_codeAt_self]
  exact beq_iff_eq.mp (Bool.and_eq_true_iff.mp hreq).1

theorem HiddenInv.writeEffect (h : HiddenInv s) (r : Reg) (v : Word) : HiddenInv (writeEffect r v s) := by
  cases r with
  | mb i w =>
    by_cases hw : w = 0
    · subst hw; exact h.csWrite i v
    · rw [writeEffect_payload i hw]
      refine h.of_actsAt_same (setMailbox_actsAt i _ s) ?_ rfl rfl
      rw [State.setMailbox_codeAt_self, Mailbox.setWord_cs _ hw]; rfl
  | mcr =>
    refine h.of_sameMailboxes ⟨rfl, rfl, rfl, rfl⟩ fun i hr => ?_
    simpa [Machine.writeEffect] using h.stage_mode i hr
  | _ => exact h.of_sameMailboxes ⟨rfl, rfl, rfl, rfl⟩ h.stage_mode

theorem HiddenInv.logged (h : HiddenInv s) (a : Access) : HiddenInv (s.logged a) :=
  h.of_sameMailboxes ⟨rfl, rfl, rfl, rfl⟩ h.stage_mode

end

/-- Every access keeps the hidden state consistent, whatever it writes. -/
theorem keeps_hiddenInv : Keeps (fun _ => true) HiddenInv :=
  Keeps.of (fun _ h => h.gap) (fun r _ h => (h.readEffect r).logged _) (fun r v _ _ h => (h.writeEffect r v).logged _)

/-- The record of how an operation ends is no part of what the invariant reads. -/
theorem HiddenInv.endsAs {u t : State} (h : HiddenInv u) (ht : endsAs u t) : HiddenInv t := by
  rcases ht with ⟨r, rfl⟩ | ⟨p, rfl⟩ <;> exact h.of_sameMailboxes ⟨rfl, rfl, rfl, rfl⟩ h.stage_mode

end Sys2Proof.Machine

open Sys2Proof Sys2Proof.Machine

/-- Settles O57: every peripheral step and every access keeps `HiddenInv`, and nothing else of a step touches what it reads. -/
theorem everyStepKeepsTheHiddenInvariant : Obligations.EveryStepKeepsTheHiddenInvariant := by
  intro s t h ht
  have hcaller : ∀ {u v : State}, SameMailboxes u v → v.mcr = u.mcr → HiddenInv u → HiddenInv v := fun hs hm hu =>
    hu.of_sameMailboxes hs (hm ▸ hu.stage_mode)
  exact step_all keeps_hiddenInv (fun _ h => h.gap) (fun _ => hcaller ⟨rfl, rfl, rfl, rfl⟩ rfl)
    (fun _ _ h he => h.endsAs he) (fun _ _ _ _ => hcaller ⟨rfl, rfl, rfl, rfl⟩ rfl)
    (fun _ _ _ _ _ => hcaller ⟨rfl, rfl, rfl, rfl⟩ rfl) (fun _ _ _ _ _ _ _ => hcaller ⟨rfl, rfl, rfl, rfl⟩ rfl) h ht

/-- Settles O6, by the values of the fields at reset. -/
theorem resetLeavesTheHiddenStateClear : Obligations.ResetLeavesTheHiddenStateClear :=
  ⟨by decide, by decide, by decide, rfl, fun _ => ⟨get_replicate _ _, get_replicate _ _, get_replicate _ _⟩,
    rfl, rfl, rfl, by decide, rfl, rfl, rfl, rfl, rfl, rfl,
    .of_clear rfl (fun _ => get_replicate _ _) (fun _ => get_replicate _ _)⟩
end

section
/-! 10_state.md R27; 48_peripheral_agent.md R222, R223; 70_reset_and_hazards.md R275, R276: every mailbox stays in its index's role.
Unlike `HiddenInv` this depends on the CS words the block writes, so it is followed through the pseudocode: a CS word is written by
MBWRITE, which checks the role, and by MBINACT and MBABORT, which derive it from the code they read. -/

namespace Sys2Proof.Machine

/-! ### The codes of a role -/

section
variable {i : Fin 16} {c : BitVec 4}

theorem val_lt_of_transmit (hi : roleOfIndex i = .transmit) : i.val < 8 := by
  by_contra h
  simp [roleOfIndex, h] at hi

theorem le_val_iff_receive : 8 ≤ i.val ↔ roleOfIndex i = .receive := by
  by_cases h : i.val < 8
  · simp [roleOfIndex, h]
  · simp [roleOfIndex, h, Nat.le_of_not_lt h]

theorem roleCode_transmit (hi : roleOfIndex i = .transmit) :
    roleCode i c ↔ c = 0b1000#4 ∨ c = 0b1001#4 ∨ c = 0b1100#4 := by
  simp [roleCode, val_lt_of_transmit hi]

theorem roleCode_receive (hi : roleOfIndex i = .receive) : roleCode i c ↔ c.getLsbD 3 = false := by
  simp [roleCode, le_val_iff_receive.mpr hi]

/-- In its role a mailbox holds a decodable code of that role. -/
theorem decodeState_of_roleCode (h : roleCode i c) : ∃ st, decodeState c = some st ∧ st.role = roleOfIndex i := by
  cases hi : roleOfIndex i with
  | transmit => rcases (roleCode_transmit hi).mp h with rfl | rfl | rfl <;> exact ⟨_, rfl, rfl⟩
  | receive =>
    have hc := (roleCode_receive hi).mp h
    have hdec : ∀ c : BitVec 4, c.getLsbD 3 = false → (decodeState c).map BufferState.role = some .receive := by decide
    simpa using hdec c hc

/-- CODE's highest bit tells the role. -/
theorem roleOfIndex_of_roleCode (h : roleCode i c) : roleOfIndex i = if c.getLsbD 3 then .transmit else .receive := by
  cases hi : roleOfIndex i with
  | transmit => rcases (roleCode_transmit hi).mp h with rfl | rfl | rfl <;> rfl
  | receive => rw [(roleCode_receive hi).mp h]; rfl

/-- What MBWRITE's check of the header lets through, remote-answer codes left out. -/
theorem roleCode_encodeState {st : BufferState} (hrole : st.role = roleOfIndex i) (hidle : st.isBusy = false)
    (hanswer : answerCode (encodeState st) = false) : roleCode i (encodeState st) := by
  cases st with
  | tx t =>
    rw [roleCode_transmit hrole.symm]
    cases t with
    | tanswer => simp [answerCode, encodeState] at hanswer
    | _ => decide
  | rx r busy =>
    obtain rfl : busy = false := hidle
    rw [roleCode_receive hrole.symm]
    cases r with
    | ranswer => simp [answerCode, encodeState, rxBase] at hanswer
    | _ => decide

theorem roleCode_inactive : roleCode i (encodeState (inactiveOf (roleOfIndex i))) := by
  cases hi : roleOfIndex i with
  | transmit => exact (roleCode_transmit hi).mpr (.inl rfl)
  | receive => exact (roleCode_receive hi).mpr rfl

/-- MBINACT writes the Inactive code of the role it finds. -/
theorem roleCode_inactiveCs {cs : Word} (h : roleCode i (codeOf cs)) : roleCode i (codeOf (inactiveCs cs)) := by
  obtain ⟨st, hst, hrole⟩ := decodeState_of_roleCode h
  simp only [inactiveCs, hst, codeOf_place, hrole]
  exact roleCode_inactive

/-- Where MBABORT finds a pending frame, the Abort code is of the mailbox's role. -/
theorem roleCode_abort (h : roleCode i c) (hc : decodeState c = some (.tx .dataRemote)) : roleCode i 0b1001#4 := by
  obtain ⟨st, hst, hrole⟩ := decodeState_of_roleCode h
  obtain rfl := Option.some.inj (hst.symm.trans hc)
  exact (roleCode_transmit hrole.symm).mpr (.inr (.inl rfl))

end

/-! ### The invariant and one mailbox -/

section
variable {s t : State} {i : Fin 16}

theorem RoleInv.of_sameMailboxes (h : RoleInv s) (hs : SameMailboxes s t) (hops : noAnswerHeader t.operands)
    (hreqs : ∀ r ∈ t.requests, r.noAnswer) : RoleInv t where
  no_havoc := hs.params ▸ h.no_havoc
  role_code i := (hs.codeAt i).symm ▸ h.role_code i
  stage_role i m hm := h.stage_role i m (hs.rxStage ▸ hm)
  operands := hops
  requests := hreqs

theorem RoleInv.of_actsAt (h : RoleInv s) (hact : ActsAt i s t) (hcode : roleCode i (t.codeAt i))
    (hstage : ∀ m, t.rxStage.get i = some m → (m.final = .full ∨ m.final = .overrun) ∧ 8 ≤ i.val) : RoleInv t where
  no_havoc := hact.params ▸ h.no_havoc
  role_code j := by
    by_cases hj : j = i
    · exact hj ▸ hcode
    · exact (hact.codeAt hj).symm ▸ h.role_code j
  stage_role j m hm := by
    by_cases hj : j = i
    · subst hj; exact hstage m hm
    · exact h.stage_role j m ((hact.hidden j hj).2.2 ▸ hm)
  operands := hact.operands ▸ h.operands
  requests := hact.requests ▸ h.requests

/-- The role of a mailbox from the highest bit of the code it holds. -/
theorem RoleInv.roleOfIndex (h : RoleInv s) {b : Bool} (hb : (s.codeAt i).getLsbD 3 = b) :
    roleOfIndex i = if b then .transmit else .receive := hb ▸ roleOfIndex_of_roleCode (h.role_code i)

/-! ### Peripheral steps -/

theorem RoleInv.rxBegin (h : RoleInv s) {f : Frame} {ts : BitVec 16} (hen : enabled (.rxBegin i f ts) s = true) :
    RoleInv (effect (.rxBegin i f ts) s) := by
  simp only [enabled, Bool.and_eq_true] at hen
  obtain ⟨⟨⟨⟨-, hrec⟩, -⟩, -⟩, -⟩ := hen
  have hbit : ∀ c : BitVec 4, receivable c = true → c.getLsbD 3 = false ∧ (c ||| 0b0001).getLsbD 3 = false := by decide
  have hi : Machine.roleOfIndex i = .receive := h.roleOfIndex (hbit _ hrec).1
  obtain ⟨hcode, m, hm, hfinal⟩ := rxBegin_codeAt i f ts s
  refine h.of_actsAt (effect_actsAt rfl s) ?_ (fun m' hm' => ⟨?_, le_val_iff_receive.mpr hi⟩)
  · rw [hcode, roleCode_receive hi]
    exact (hbit _ hrec).2
  · exact Option.some.inj (hm.symm.trans hm') ▸ hfinal

theorem RoleInv.rxWrite (h : RoleInv s) (prio : BitVec 3) (srr : Bool) (dlc : BitVec 4) (p0 p1 : Word)
    {m : RxMove} (hm : s.rxStage.get i = some m) : RoleInv (effect (.rxWrite i prio srr dlc p0 p1) s) := by
  obtain ⟨hcode, hstage⟩ := rxWrite_codeAt hm prio srr dlc p0 p1
  refine h.of_actsAt (effect_actsAt rfl s) (hcode ▸ h.role_code i) (fun m' hm' => ?_)
  obtain rfl := Option.some.inj (hstage.symm.trans hm')
  exact h.stage_role i m hm

theorem RoleInv.rxEnd (h : RoleInv s) {m : RxMove} (hm : s.rxStage.get i = some m) : RoleInv (effect (.rxEnd i) s) := by
  obtain ⟨hcode, hstage⟩ := rxEnd_codeAt hm
  obtain ⟨hfinal, hi⟩ := h.stage_role i m hm
  refine h.of_actsAt (effect_actsAt rfl s) ?_ (by simp [hstage])
  rw [hcode, roleCode_receive (le_val_iff_receive.mp hi)]
  rcases hfinal with hf | hf <;> rw [hf] <;> decide

/-- Every peripheral step keeps every mailbox in its role. -/
theorem RoleInv.effect (h : RoleInv s) {e : Event} (hen : enabled e s = true) : RoleInv (effect e s) := by
  cases e with
  | txComplete i ts =>
    simp only [enabled, Bool.and_eq_true, beq_iff_eq] at hen
    obtain ⟨⟨-, hc⟩, -⟩ := hen
    have hi : Machine.roleOfIndex i = .transmit := h.roleOfIndex (b := true) (by rw [hc]; decide)
    refine h.of_actsAt (effect_actsAt rfl s) ((roleCode_transmit hi).mpr (.inl ?_)) (h.stage_role i)
    exact (State.setCs_codeAt_self _ _ _).trans (by simp)
  | abortResolve i sent ts =>
    simp only [enabled, Bool.and_eq_true, beq_iff_eq] at hen
    obtain ⟨⟨-, hc⟩, -⟩ := hen
    have hi : Machine.roleOfIndex i = .transmit := h.roleOfIndex (b := true) (by rw [hc]; decide)
    cases sent with
    | true =>
      refine h.of_actsAt (effect_actsAt rfl s) ((roleCode_transmit hi).mpr (.inl ?_)) (h.stage_role i)
      exact (State.setCs_codeAt_self _ _ _).trans (by simp)
    | false => exact h.of_actsAt (effect_actsAt rfl s) (h.role_code i) (h.stage_role i)
  | rxBegin i f ts => exact h.rxBegin hen
  | rxWrite i prio srr dlc p0 p1 =>
    cases hm : s.rxStage.get i with
    | none => simp [enabled, hm] at hen
    | some m => exact h.rxWrite prio srr dlc p0 p1 hm
  | rxEnd i =>
    cases hm : s.rxStage.get i with
    | none => simp [enabled, hm] at hen
    | some m => exact h.rxEnd hm
  | answerHavoc i words =>
    simp only [enabled, Bool.and_eq_true] at hen
    obtain ⟨-, hanswer⟩ := hen
    have hc := h.role_code i
    have hbit : ∀ c : BitVec 4, answerCode c = true → c.getLsbD 3 = true := by decide
    have hi : Machine.roleOfIndex i = .transmit := h.roleOfIndex (hbit _ hanswer)
    rcases (roleCode_transmit hi).mp hc with hc | hc | hc <;> simp [answerCode, hc] at hanswer
  | busError i code f => simp [enabled, h.no_havoc] at hen
  | softRstDone m c f r =>
    exact ⟨h.no_havoc, h.role_code, fun i m hm => by simp [Machine.effect, softRstDoneEffect] at hm, h.operands, h.requests⟩
  | _ => exact h.of_sameMailboxes ⟨rfl, rfl, rfl, rfl⟩ h.operands h.requests

theorem RoleInv.gap (h : RoleInv s) : RoleInv (gap s) :=
  gap_keeps RoleInv (fun _ _ h => h.of_sameMailboxes ⟨rfl, rfl, rfl, rfl⟩ h.operands h.requests)
    (fun _ _ hen h => h.effect hen) h

/-! ### Accesses -/

theorem RoleInv.logged (h : RoleInv s) (a : Access) : RoleInv (s.logged a) :=
  h.of_sameMailboxes ⟨rfl, rfl, rfl, rfl⟩ h.operands h.requests

theorem RoleInv.readEffect (h : RoleInv s) (r : Reg) : RoleInv (readEffect r s) := by
  obtain ⟨_, _, _, hr⟩ := readEffect_eq r s
  exact hr ▸ h.of_sameMailboxes ⟨rfl, rfl, rfl, rfl⟩ h.operands h.requests

/-- Every register but the CS words. -/
def notCsReg : Reg → Bool
  | .mb _ w => w != 0
  | .mcr | .ctrl1 | .timer | .rxmgmask | .iflag1 => true

theorem RoleInv.writeEffect (h : RoleInv s) {r : Reg} (hr : notCsReg r = true) (v : Word) : RoleInv (writeEffect r v s) := by
  cases r with
  | mb i w =>
    have hw : w ≠ 0 := by simpa [notCsReg] using hr
    rw [writeEffect_payload i hw]
    refine h.of_actsAt (setMailbox_actsAt i _ s) ?_ (h.stage_role i)
    rw [State.setMailbox_codeAt_self, Mailbox.setWord_cs _ hw]
    exact h.role_code i
  | _ => exact h.of_sameMailboxes ⟨rfl, rfl, rfl, rfl⟩ h.operands h.requests

/-- Every access but a CS write keeps the roles, whatever it writes. -/
theorem keeps_roleInv : Keeps notCsReg RoleInv :=
  Keeps.of (fun _ h => h.gap) (fun r _ h => (h.readEffect r).logged _) (fun _ v _ hr h => (h.writeEffect hr v).logged _)

/-- A CS write keeps the roles if the code it writes is of the mailbox's role. -/
theorem RoleInv.writeCs (h : RoleInv s) {v : Word} (hv : roleCode i (codeOf v)) : (writeReg (.mb i 0) v s).All RoleInv := by
  refine writeReg_all (RoleInv.logged (h.gap.of_actsAt (csWrite_actsAt i v _ _) ?_ fun m hm => ?_) _)
  · exact (State.setMailbox_codeAt_self _ _ _).symm ▸ hv
  · exact nomatch (get_put_self (Machine.gap s).rxStage i none).symm.trans hm

/-- What goes on from a CS read goes on from a code of the mailbox's role. -/
theorem RoleInv.readCs {α : Type} (h : RoleInv s) {f : Word → State → Res α}
    (hf : ∀ cs t, roleCode i (codeOf cs) → RoleInv t → (f cs t).All RoleInv) :
    ((readReg (.mb i 0) s).bind f).All RoleInv := by
  cases hp : s.params.accessPermitted with
  | true =>
    rw [readReg_eq _ hp, doRead_cs]
    exact hf _ _ (h.gap.role_code i) ((h.gap.readEffect (.mb i 0)).logged _)
  | false => rw [readReg_forbidden _ hp]; trivial

end

/-! ### The operations of the caller -/

section
variable {s t : State}

theorem RoleInv.writeFrame (h : RoleInv s) {i : Fin 16} {hdr : Header} (f : Frame)
    (hcode : roleCode i (encodeState hdr.code)) : (writeFrame i hdr f s).All RoleInv := by
  refine (keeps_roleInv.write _ _ _ rfl h).bind fun _ _ h => (keeps_roleInv.write _ _ _ rfl h).bind fun _ _ h =>
    Res.All.bind ?_ fun _ _ h => h.writeCs (by rwa [codeOf_csWord])
  cases f with
  | data id bytes => exact (keeps_roleInv.write _ _ _ rfl h).bind fun _ _ h => keeps_roleInv.write _ _ _ rfl h
  | remote id => exact h

/-- MBWRITE writes a code of the mailbox's role, or nothing. -/
theorem RoleInv.mbwrite (h : RoleInv s) (i : Fin 16) {hdr : Header} (f : Frame)
    (hanswer : answerCode (encodeState hdr.code) = false) : (mbwrite i hdr f s).All RoleInv := by
  unfold Machine.mbwrite
  split
  · exact h
  · next hchecks =>
    obtain ⟨hrole, hidle⟩ := not_or.mp hchecks
    refine (keeps_roleInv.read _ _ h).bind fun _ _ h => (decodeOrRaise_all _ h).bind fun _ _ h => ?_
    split
    · exact h.writeFrame f (roleCode_encodeState (not_not.mp hrole) (Bool.eq_false_iff.mpr hidle) hanswer)
    · exact h

theorem RoleInv.mbinact (h : RoleInv s) (i : Fin 16) : (mbinact i s).All RoleInv :=
  h.readCs fun _ _ hcs h => h.writeCs (roleCode_inactiveCs hcs)

theorem RoleInv.readFrom (h : RoleInv s) (c : ReadCaller) (i : Fin 16) (n : Nat) : (readFrom c i n s).All RoleInv := by
  refine (keeps_roleInv.read _ _ h).bind fun cs s h => ?_
  split
  · exact (unlock_all keeps_roleInv h).bind fun _ _ h => h
  · split
    · exact (keeps_roleInv.read _ _ h).bind fun _ _ h => (keeps_roleInv.read _ _ h).bind fun _ _ h =>
        (keeps_roleInv.read _ _ h).bind fun _ _ h => (keeps_roleInv.write _ _ _ rfl h).bind fun _ _ h =>
        (unlock_all keeps_roleInv h).bind fun _ _ h => h
    · split
      · exact (unlock_all keeps_roleInv h).bind fun _ _ h => h
      · exact h

theorem RoleInv.abortFrom (h : RoleInv s) (c : AbortCaller) (i : Fin 16) (n : Nat) : (abortFrom c i n s).All RoleInv := by
  refine (keeps_roleInv.read _ _ h).bind fun f s h => ?_
  split
  · exact abortOutcome_all (h.readFrom _ _ _)
  · split <;> exact h

/-- MBABORT writes the Abort code into a mailbox whose code it has found pending. -/
theorem RoleInv.mbabort (h : RoleInv s) (c : AbortCaller) (i : Fin 16) : (mbabort c i s).All RoleInv := by
  refine h.readCs fun cs s hcs h => ?_
  unfold decodeOrRaise
  split
  · next st hst =>
    dsimp only [Res.bind]
    split
    · exact h
    · next hpending =>
      obtain rfl := not_not.mp hpending
      exact (keeps_roleInv.write _ _ _ rfl h).bind fun _ _ h =>
        (h.writeCs (by rw [codeOf_withCode]; exact roleCode_abort hcs hst)).bind fun _ _ h => h.abortFrom _ _ _
  · exact h

theorem RoleInv.txquickScan (h : RoleInv s) (f : Frame) (l : List (Fin 16)) : (txquickScan f l s).All RoleInv := by
  induction l generalizing s with
  | nil => exact h
  | cons i rest ih =>
    refine ((keeps_roleInv.read _ _ h).bind fun _ _ h => decodeOrRaise_all _ h).bind fun st s h => ?_
    split
    · have hm := h.mbwrite i (hdr := txHdr) f rfl
      split
      · next heq => rw [heq] at hm; exact ih hm
      · exact hm
    · exact ih h

theorem installAfterAbort_roleInv {r : Res (Option Frame)} (h : r.All RoleInv) (f : Frame) (w : Fin 16) :
    (installAfterAbort f w r).All RoleInv :=
  h.bind fun _ _ h => (h.mbwrite w f rfl).bind fun _ _ h => h

theorem continueAbort_roleInv {r : Res (Option Frame)} (h : r.All RoleInv) (c : AbortCaller) (i : Fin 16) :
    (continueAbort c i r).All RoleInv := by
  cases c with
  | mbabort => exact h
  | tx f => exact installAfterAbort_roleInv h f i

theorem RoleInv.transmit (h : RoleInv s) (f : Frame) : (transmit f s).All RoleInv := by
  refine (peekAll_all keeps_roleInv _ h).bind fun snap s h => ?_
  unfold txDecide
  split
  · exact (h.mbwrite _ f rfl).bind fun _ _ h => h
  · split
    · exact h
    · split
      · exact installAfterAbort_roleInv (h.mbabort _ _) _ _
      · exact h

theorem RoleInv.receive (h : RoleInv s) : (receive s).All RoleInv := by
  refine (keeps_roleInv.read _ _ h).bind fun f s h => ?_
  split
  · exact h.readFrom _ _ _
  · exact h

/-! ### INIT -/

theorem RoleInv.modifyReg (h : RoleInv s) {r : Reg} (hr : notCsReg r = true) (f : Word → Word) :
    (modifyReg r f s).All RoleInv :=
  (keeps_roleInv.read _ _ h).bind fun _ _ h => keeps_roleInv.write _ _ _ hr h

theorem RoleInv.preseed (h : RoleInv s) : (preseed s).All RoleInv :=
  (forEach_all (fun i _ h => h.mbinact i) _ h).bind fun _ _ h =>
  (forEach_all (fun i _ h => h.mbwrite i _ rfl) _ h).bind fun _ _ h =>
  (forEach_all (fun i _ h => h.mbwrite i _ rfl) _ h).bind fun _ _ h => unlock_all keeps_roleInv h

theorem RoleInv.configure (h : RoleInv s) (bt : Timing) (st : Settings) : (configure bt st s).All RoleInv :=
  (h.modifyReg rfl _).bind fun _ _ h => (h.modifyReg rfl _).bind fun _ _ h =>
  (keeps_roleInv.write _ _ _ rfl h).bind fun _ _ h => (keeps_roleInv.write _ _ _ rfl h).bind fun _ _ h => h.preseed

theorem RoleInv.poll (h : RoleInv s) (p : BootPoll) (n : Nat) (bt : Timing) (st : Settings) {k : State → Res Unit}
    (hk : ∀ s, RoleInv s → (k s).All RoleInv) : (poll p n bt st k s).All RoleInv := by
  refine (keeps_roleInv.read _ _ h).bind fun m s h => ?_
  split
  · exact hk _ h
  · split <;> exact h

/-- INIT keeps the roles from each of its polls on. -/
theorem RoleInv.afterPoll (p : BootPoll) (bt : Timing) (st : Settings) : ∀ s, RoleInv s → (afterPoll p bt st s).All RoleInv := by
  have hleave : ∀ s, RoleInv s → (afterLeaveFreeze s).All RoleInv := fun _ h => h
  have hfreeze : ∀ s, RoleInv s → (afterEnterFreeze bt st s).All RoleInv := fun _ h =>
    (h.configure bt st).bind fun _ _ h => (h.modifyReg rfl _).bind fun _ _ h => h.poll _ _ _ _ hleave
  have henable2 : ∀ s, RoleInv s → (afterEnable2 bt st s).All RoleInv := fun _ h =>
    (h.modifyReg rfl _).bind fun _ _ h => h.poll _ _ _ _ hfreeze
  have hdisable2 : ∀ s, RoleInv s → (afterDisable2 bt st s).All RoleInv := fun _ h =>
    (h.modifyReg rfl _).bind fun _ _ h => (h.modifyReg rfl _).bind fun _ _ h => h.poll _ _ _ _ henable2
  have hreset : ∀ s, RoleInv s → (afterSoftReset bt st s).All RoleInv := fun _ h =>
    (h.modifyReg rfl _).bind fun _ _ h => h.poll _ _ _ _ hdisable2
  have henable1 : ∀ s, RoleInv s → (afterEnable1 bt st s).All RoleInv := fun _ h =>
    (h.modifyReg rfl _).bind fun _ _ h => h.poll _ _ _ _ hreset
  have hdisable1 : ∀ s, RoleInv s → (afterDisable1 bt st s).All RoleInv := fun _ h =>
    (h.modifyReg rfl _).bind fun _ _ h => (h.modifyReg rfl _).bind fun _ _ h => h.poll _ _ _ _ henable1
  cases p with
  | disable1 => exact hdisable1
  | enable1 => exact henable1
  | softReset => exact hreset
  | disable2 => exact hdisable2
  | enable2 => exact henable2
  | enterFreeze => exact hfreeze
  | leaveFreeze => exact hleave

theorem RoleInv.boot (h : RoleInv s) (st : Settings) (clocks : ClockInfo) : (boot st clocks s).All RoleInv := by
  unfold Machine.boot ofExcept
  split
  · dsimp only [Res.bind]
    split
    · exact h
    · exact (h.modifyReg rfl _).bind fun _ _ h => h.poll _ _ _ _ (RoleInv.afterPoll .disable1 _ st)
  · exact h

/-! ### Whole steps -/

theorem RoleInv.finish {r : Res Value} (h : r.All RoleInv) (ht : finish r = .next t) : RoleInv t := by
  obtain ⟨u, hu, ⟨res, rfl⟩ | ⟨p, rfl⟩⟩ := finish_next h ht <;>
    exact hu.of_sameMailboxes ⟨rfl, rfl, rfl, rfl⟩ hu.operands hu.requests

theorem RoleInv.issue {body : State → Res Value} (h : RoleInv s) (ht : issue body s = .next t)
    (hbody : RoleInv s.started → (body s.started).All RoleInv) : RoleInv t := by
  cases hb : s.block with
  | idle =>
    rw [issue_idle _ hb] at ht
    exact RoleInv.finish (hbody (h.of_sameMailboxes ⟨rfl, rfl, rfl, rfl⟩ h.operands h.requests)) ht
  | spinning p => simp [issue_spinning _ hb] at ht

/-- Every operation of the caller keeps the roles. -/
theorem RoleInv.exec (h : RoleInv s) {i : Instr} (ht : exec i s = .next t) : RoleInv t := by
  cases i with
  | btcalc =>
    simp only [Machine.exec, execBtcalc] at ht
    refine h.issue ht fun h => Res.All.bind ?_ fun _ _ h => h
    unfold ofExcept
    split <;> exact h
  | encode =>
    simp only [Machine.exec, execEncode] at ht
    exact h.issue ht fun h => h
  | decode c =>
    simp only [Machine.exec, execDecode] at ht
    exact h.issue ht fun h => (decodeOrRaise_all _ h).bind fun _ _ h => h
  | mbwrite idx =>
    simp only [Machine.exec, execMbwrite] at ht
    refine h.issue ht fun h => ?_
    split
    · exact h
    · next hdr f hops =>
      have hcode : hdr.code = s.operands.mbwrite.header.code := by
        simp only [mbwriteOperands, Option.ite_none_right_eq_some, Option.some.injEq, Prod.mk.injEq] at hops
        exact hops.2.1 ▸ rfl
      have hanswer : answerCode (encodeState hdr.code) = false := hcode ▸ h.operands
      exact (withIndex_all (fun i _ h => h.mbwrite i f hanswer) h).bind fun _ _ h => h
  | mbread idx =>
    simp only [Machine.exec, execMbread] at ht
    exact h.issue ht fun h => (withIndex_all (fun i _ h => h.readFrom _ i _) h).bind fun _ _ h => h
  | mbpeek idx =>
    simp only [Machine.exec, execMbpeek] at ht
    exact h.issue ht fun h => (withIndex_all (fun i _ h => mbpeek_all keeps_roleInv i h) h).bind fun _ _ h => h
  | mbinact idx =>
    simp only [Machine.exec, execMbinact] at ht
    exact h.issue ht fun h => (withIndex_all (fun i _ h => h.mbinact i) h).bind fun _ _ h => h
  | mbabort idx =>
    simp only [Machine.exec, execMbabort] at ht
    exact h.issue ht fun h => (withIndex_all (fun i _ h => h.mbabort _ i) h).bind fun _ _ h => h
  | txquick =>
    simp only [Machine.exec, execTxquick] at ht
    refine h.issue ht fun h => ?_
    split
    · exact h
    · exact (h.txquickScan _ _).bind fun _ _ h => h
  | tx =>
    simp only [Machine.exec, execTx] at ht
    refine h.issue ht fun h => ?_
    split
    · exact h
    · exact (h.transmit _).bind fun _ _ h => h
  | rx =>
    simp only [Machine.exec, execRx] at ht
    exact h.issue ht fun h => h.receive.bind fun _ _ h => h

/-- An operation that goes on from a spin keeps the roles, INIT included. -/
theorem RoleInv.resume (h : RoleInv s) {p : SpinPos} (ht : resume p s = .next t) : RoleInv t := by
  refine RoleInv.finish ?_ ht
  cases p with
  | readBusy c i n =>
    cases c with
    | mbread => exact (h.readFrom _ _ _).bind fun _ _ h => h
    | rx => exact (h.readFrom _ _ _).bind fun _ _ h => h
    | abort c => exact (continueAbort_roleInv (abortOutcome_all (h.readFrom _ _ _)) c i).bind fun _ _ h => h
  | abortFlag c i n => exact (continueAbort_roleInv (h.abortFrom c i n) c i).bind fun _ _ h => h
  | boot b n bt st => exact (h.poll _ _ _ _ (RoleInv.afterPoll b bt st)).bind fun _ _ h => h

theorem RoleInv.runWord (h : RoleInv s) {w : Word} (ht : runWord w s = .next t) : RoleInv t := by
  unfold Machine.runWord at ht
  split at ht
  · exact h.exec ht
  · rw [execIllegal_next ht]
    exact h.of_sameMailboxes ⟨rfl, rfl, rfl, rfl⟩ h.operands h.requests

/-- A request that asks for no remote-answer code keeps the roles, and is put back as it was if at all. -/
theorem RoleInv.runRequest (h : RoleInv s) {req : Request} (hreq : req.noAnswer) (ht : runRequest req s = .next t) :
    RoleInv t := by
  cases req with
  | init st clocks =>
    simp only [Machine.runRequest, execInit] at ht
    exact h.issue ht fun h => (h.boot st clocks).bind fun _ _ h => h
  | command w ops => exact (h.of_sameMailboxes (t := s.withOperands ops) ⟨rfl, rfl, rfl, rfl⟩ hreq h.requests).runWord ht
  | commandUntilFree w ops =>
    obtain ⟨u, hu, hend⟩ := requeue_next ht
    have hrun : RoleInv u :=
      (h.of_sameMailboxes (t := s.withOperands ops) ⟨rfl, rfl, rfl, rfl⟩ hreq h.requests).runWord hu
    rcases hend with rfl | rfl
    · exact hrun
    · exact hrun.of_sameMailboxes ⟨rfl, rfl, rfl, rfl⟩ hrun.operands (List.forall_mem_cons.mpr ⟨hreq, hrun.requests⟩)

end

end Sys2Proof.Machine

open Sys2Proof Sys2Proof.Machine

/-- Settles O58: a step is a peripheral's turn, an iteration of a spin or a request, and each keeps `RoleInv`. -/
theorem everyStepKeepsTheMailboxRoles : Obligations.EveryStepKeepsTheMailboxRoles := by
  intro s t h ht
  cases hb : s.block with
  | spinning p => exact h.resume (step_spinning hb ▸ ht)
  | idle =>
    cases hr : s.requests with
    | nil =>
      rw [step_idle_nil hb hr, Host.Outcome.next.injEq] at ht
      exact ht ▸ h.gap
    | cons req rest =>
      rw [step_idle_cons hb hr] at ht
      have hall := List.forall_mem_cons.mp (hr ▸ h.requests)
      exact (h.of_sameMailboxes (t := { s with requests := rest }) ⟨rfl, rfl, rfl, rfl⟩ h.operands hall.2).runRequest hall.1 ht

/-- Settles O59: the pre-seeded codes are Tx(Inactive) and Rx(Empty), and nothing is hidden. -/
theorem launchStateHasTheMailboxRoles : Obligations.LaunchStateHasTheMailboxRoles := by
  intro bt st s hl hp hops hreqs
  have hstage : ∀ i, s.rxStage.get i = none := fun i => (hl.hidden i).2.2
  refine ⟨⟨hp, fun i => ?_, fun i m hm => ?_, hops, hreqs⟩, .of_clear hp (fun i => (hl.hidden i).1) hstage⟩
  · by_cases hi : i.val < 8
    · rw [codeAt_of_get (hl.tx_mailboxes i hi), roleCode, if_pos hi]
      decide
    · rw [codeAt_of_get (hl.rx_mailboxes i (Nat.le_of_not_lt hi)), roleCode, if_neg hi]
      decide
  · simp [hstage i] at hm
end

section
/-! 10_state.md R28 to R30; 60_exceptions.md R247, R253: what the block's writes do to the flags and to MCR, that no access of the block
sets a flag, and that no operation of the caller writes any other register. -/

namespace Sys2Proof.Machine

/-- A write to IFLAG1 clears the flags written 1. -/
theorem getLsbD_iflagWrite (f v : Word) (k : Nat) : (iflagWrite f v).getLsbD k = (f.getLsbD k && !v.getLsbD k) := by
  rw [iflagWrite, BitVec.getLsbD_and, BitVec.getLsbD_not]
  by_cases hk : k < 32
  · simp [hk]
  · simp [BitVec.getLsbD_of_ge f _ (Nat.le_of_not_lt hk)]

/-- The flags set are among those of `f`, and the peripheral will take no step. -/
structure State.FlagsWithin (f : Word) (s : State) : Prop where
  quiet : s.quiet
  flags : ∀ k, s.iflag.getLsbD k = true → f.getLsbD k = true

theorem State.FlagsWithin.of_eq {f : Word} {s t : State} (h : s.FlagsWithin f) (hschedule : t.schedule = s.schedule)
    (hflags : t.iflag = s.iflag) : t.FlagsWithin f :=
  ⟨fun es hes => h.quiet es (hschedule ▸ hes), fun k hk => h.flags k (hflags ▸ hk)⟩

/-- Of all writes only one to IFLAG1 touches the flags, and it clears flags only. -/
theorem writeEffect_flagsWithin {f : Word} (r : Reg) (v : Word) {s : State} (h : s.FlagsWithin f) :
    (writeEffect r v s).FlagsWithin f := by
  cases r with
  | iflag1 =>
    refine ⟨h.quiet, fun k hk => h.flags k ?_⟩
    have hcleared := (getLsbD_iflagWrite s.iflag v k).symm.trans hk
    exact (Bool.and_eq_true_iff.mp hcleared).1
  | mb i w =>
    simp only [writeEffect]
    split <;> exact ⟨h.quiet, h.flags⟩
  | _ => exact ⟨h.quiet, h.flags⟩

theorem gap_flagsWithin {f : Word} {s : State} (h : s.FlagsWithin f) : (gap s).FlagsWithin f := by
  rw [gap_quiet h.quiet]
  exact ⟨quiet_tail h.quiet, h.flags⟩

theorem keeps_flagsWithin (f : Word) : Keeps (fun _ => true) (State.FlagsWithin f) := by
  refine Keeps.of (fun _ h => gap_flagsWithin h) (fun r s h => ?_) (fun r v s _ h => ?_)
  · obtain ⟨_, _, _, hr⟩ := readEffect_eq r s
    rw [hr]
    exact h.of_eq rfl rfl
  · exact (writeEffect_flagsWithin r v h).of_eq rfl rfl

theorem endsAs_flagsWithin {f : Word} {u t : State} (h : u.FlagsWithin f) (ht : endsAs u t) : t.FlagsWithin f := by
  rcases ht with ⟨r, rfl⟩ | ⟨p, rfl⟩ <;> exact h.of_eq rfl rfl

/-! ### What an operation of the caller writes -/

/-- Every access recorded is one an operation of the caller may make. -/
def State.MailboxOnly (s : State) : Prop := ∀ a ∈ s.accesses, a.mailboxOnly

theorem State.MailboxOnly.logged {s t : State} (h : s.MailboxOnly) (ht : t.accesses = s.accesses) {a : Access}
    (ha : a.mailboxOnly) : (t.logged a).MailboxOnly := by
  intro b hb
  rw [State.logged_accesses, ht, List.mem_append, List.mem_singleton] at hb
  rcases hb with hb | rfl
  · exact h b hb
  · exact ha

theorem readEffect_accesses (r : Reg) (s : State) : (readEffect r s).accesses = s.accesses := by
  obtain ⟨_, _, _, hr⟩ := readEffect_eq r s
  rw [hr]

theorem writeEffect_accesses (r : Reg) (v : Word) (s : State) : (writeEffect r v s).accesses = s.accesses := by
  cases r with
  | mb i w =>
    simp only [writeEffect]
    split <;> rfl
  | _ => rfl

/-- An access an operation of the caller may make keeps the record within such accesses. -/
theorem keeps_mailboxOnly : Keeps mailboxReg State.MailboxOnly := by
  refine Keeps.of (fun s h => ?_) (fun r s h => h.logged (readEffect_accesses r s) trivial)
    (fun r v s hr h => h.logged (writeEffect_accesses r v s) ?_)
  · intro a ha
    exact h a (gap_accesses s ▸ ha)
  · cases r with
    | iflag1 => trivial
    | mb i w => trivial
    | _ => cases hr

theorem endsAs_mailboxOnly {u t : State} (h : u.MailboxOnly) (ht : endsAs u t) : t.MailboxOnly := by
  rcases ht with ⟨r, rfl⟩ | ⟨p, rfl⟩ <;> exact h

end Sys2Proof.Machine

open Sys2Proof Sys2Proof.Machine

/-- Settles O10, from the bits of the two writes and from what every access keeps of a quiet run. -/
theorem flagsAreOnlySetByThePeripheral : Obligations.FlagsAreOnlySetByThePeripheral := by
  refine ⟨fun s v hp => ?_, fun s v hp => ?_, fun s t k hq ht hk => ?_⟩
  · rw [writeReg_eq _ _ hp, doWrite_iflag1]
    refine ⟨_, rfl, fun r hr => ?_, fun k _ => getLsbD_iflagWrite _ _ k⟩
    cases r with
    | iflag1 => simp at hr
    | _ => rfl
  · rw [writeReg_eq _ _ hp, doWrite_mcr]
    refine ⟨_, rfl, fun r hr => ?_, fun k _ => getLsbD_mcrWrite _ _ k⟩
    cases r with
    | mcr => simp at hr
    | _ => rfl
  · have hend : t.FlagsWithin s.iflag :=
      step_all (keeps_flagsWithin s.iflag) (fun _ h => gap_flagsWithin h) (fun _ h => h.of_eq rfl rfl)
        (fun _ _ h he => endsAs_flagsWithin h he) (fun _ _ _ _ h => h.of_eq rfl rfl)
        (fun _ _ _ _ _ h => h.of_eq rfl rfl) (fun _ _ _ _ _ _ _ h => h.of_eq rfl rfl) ⟨hq, fun _ hk => hk⟩ ht
    exact hend.flags k hk

/-- Settles O47: an operation's accesses are reads and writes of `mailboxReg`s, and its spins are not INIT's. -/
theorem operationsWriteOnlyFlagsAndMailboxes : Obligations.OperationsWriteOnlyFlagsAndMailboxes := by
  refine ⟨fun i s t ht => ⟨?_, fun b n bt st hb => exec_waits ht hb b n bt st rfl⟩, fun s t p hb hp h ht => ?_⟩
  · obtain ⟨u, hu, hend⟩ := exec_all keeps_mailboxOnly (fun _ hr => hr) (s := s) (fun _ ha => nomatch ha) ht
    exact endsAs_mailboxOnly hu hend
  · rw [step_spinning hb] at ht
    obtain ⟨u, hu, hend⟩ := resume_operation_all keeps_mailboxOnly (fun _ hr => hr) hp h ht
    exact ⟨endsAs_mailboxOnly hu hend, fun b n bt st hq => resume_waits hp ht hq b n bt st rfl⟩
end

section
/-! 20_memory.md R61 to R65, R73; 60_exceptions.md R251, R252: the address map read backwards, which accesses are refused, what a read
does besides returning its value, and that no operation is issued while one is in progress. -/

namespace Sys2Proof.Machine

/-! ### The address map -/

/-- The two low bits of an address are 0 exactly when it is a multiple of 4. -/
theorem aligned_iff (a : Word) : a.extractLsb' 0 2 = 0#2 ↔ a.toNat % 4 = 0 := by
  rw [← BitVec.toNat_inj, BitVec.extractLsb'_toNat]
  rfl

theorem canBase_mod_four (p : Config.Params) : (canBase p).toNat % 4 = 0 := by
  have h := regAddr_aligned p .mcr
  rwa [regAddr, show regOffset .mcr = 0#32 from rfl, BitVec.add_zero, aligned_iff] at h

/-- An aligned address lies at an aligned offset of the window. -/
theorem windowOffset_mod_four {a : Word} (p : Config.Params) (ha : a.extractLsb' 0 2 = 0#2) :
    (a - canBase p).toNat % 4 = 0 := by
  have h1 := (aligned_iff a).mp ha
  have h2 := canBase_mod_four p
  rw [BitVec.toNat_sub]
  omega

/-- The register at an aligned offset is the one whose offset that is. -/
theorem regOffset_of_regAtOffset {o : Nat} {r : Reg} (h4 : o % 4 = 0) (h : regAtOffset o = some r) :
    (regOffset r).toNat = o := by
  unfold regAtOffset at h
  split_ifs at h
  all_goals
    obtain rfl := Option.some.inj h
    simp only [regOffset, BitVec.ofNat_eq_ofNat, BitVec.toNat_ofNat]
    omega

/-- An aligned address selects a register exactly when it is that register's. -/
theorem regAt_eq_some_iff {p : Config.Params} {a : Word} {r : Reg} (ha : a.extractLsb' 0 2 = 0#2) :
    regAt p a = some r ↔ a = regAddr p r := by
  constructor
  · intro h
    have hoff : regOffset r = a - canBase p :=
      BitVec.eq_of_toNat_eq (regOffset_of_regAtOffset (windowOffset_mod_four p ha) h)
    rw [regAddr, hoff, BitVec.add_comm, BitVec.sub_add_cancel]
  · rintro rfl
    exact regAt_regAddr p r

/-! ### Refused accesses -/

section
variable {α : Type} {a : Word} {n : Nat} {s : State} (f : Reg → State → Res α)

theorem access_forbidden (hp : s.params.accessPermitted = false) : access a n f s = .refused .accessNotPermitted := by
  simp [access, hp]

theorem access_misaligned (hp : s.params.accessPermitted = true) (ha : n ≠ 4 ∨ a.extractLsb' 0 2 ≠ 0#2) :
    access a n f s = .refused .notAlignedWord := by
  simp only [access, hp, Bool.not_true, Bool.false_eq_true, if_false, if_pos ha]

theorem access_outside (hp : s.params.accessPermitted = true) (ha : a.extractLsb' 0 2 = 0#2)
    (hr : regAt s.params a = none) : access a 4 f s = .refused .outsideWindow := by
  simp [access, hp, ha, hr]

end

/-! ### Reads -/

/-- A read without a side effect only returns the value and is recorded. -/
theorem doRead_of_readEffect {r : Reg} {s : State} (h : readEffect r s = s) :
    doRead r s = .ok (peekReg r s) (s.logged (.read r (peekReg r s))) := by
  rw [doRead, h]

/-- Words 1 to 3 of a mailbox are read without a side effect. -/
theorem readEffect_payload (i : Fin 16) {w : Fin 4} (hw : w ≠ 0) (s : State) : readEffect (.mb i w) s = s :=
  if_neg hw

/-- After the peripheral's turn the record of accesses is still the block's own. -/
theorem gap_logged (s : State) (a : Access) : (gap s).logged a = { gap s with accesses := s.accesses ++ [a] } := by
  rw [State.logged, gap_accesses]

end Sys2Proof.Machine

open Sys2Proof Sys2Proof.Machine

/-- Settles O7: the offsets are `regOffset`'s, and `regAtOffset` inverts it on the multiples of 4. -/
theorem addressMapIsOneToOne : Obligations.AddressMapIsOneToOne := fun _ =>
  ⟨rfl, rfl, rfl, rfl, rfl, fun _ _ => rfl, fun _ _ ha => regAt_eq_some_iff ha⟩

/-- Settles O8: a read and a write go through the same checks of `access`. -/
theorem misplacedAccessesAreRefused : Obligations.MisplacedAccessesAreRefused := by
  refine ⟨regAddr_aligned, fun s a n v => ⟨fun hp => ?_, fun hp ha => ?_, fun hp hn ha hr => ?_⟩⟩
  · exact ⟨access_forbidden _ hp, access_forbidden _ hp⟩
  · exact ⟨access_misaligned _ hp ha, access_misaligned _ hp ha⟩
  · subst hn
    exact ⟨access_outside _ hp ha hr, access_outside _ hp ha hr⟩

/-- Settles O9: a read is `doRead` after the peripheral's turn, with the side effect of its register. -/
theorem readSideEffects : Obligations.ReadSideEffects := by
  refine fun s hp => ⟨fun i => ?_, ?_, fun r hr => ?_⟩
  · rw [readReg_eq _ hp, doRead_cs]
    simp only [State.logged, gap_accesses]
  · rw [readReg_eq _ hp, doRead_timer]
    simp only [State.logged, State.drawTimer, gap_accesses, gap_draws, timerLog]
  · have hnone : readEffect r (gap s) = gap s := by
      rcases hr with rfl | rfl | rfl | rfl | ⟨i, w, hw, rfl⟩
      case inr.inr.inr.inr => exact readEffect_payload i hw _
      all_goals rfl
    rw [readReg_eq _ hp, doRead_of_readEffect hnone, gap_logged]

/-- Settles O54: every operation is issued, and `issue` refuses while the block spins. -/
theorem overlappingOperationIsRefused : Obligations.OverlappingOperationIsRefused := by
  intro i s p hb
  cases i <;>
    simp only [exec, execBtcalc, execEncode, execDecode, execMbwrite, execMbread, execMbpeek, execMbinact, execMbabort,
      execTxquick, execTx, execRx, issue_spinning _ hb]
end

section
/-! 30_encoding.md R81 to R83 and the mask and match words of spec/opcode_table.json: the decoder said once. A word is its four fields;
a word that decodes has the fields of the operation it decodes to, and one that is rejected is on R83's list, where no word with an
operation's fields is. -/

namespace Sys2Proof

open Laws.Encoding (opOf idxOf)

/-! ### A word and its fields -/

/-- A command word is its four fields side by side (30_encoding.md R81). -/
theorem append_fields (w : Word) : rsvField w ++ codeField w ++ idxField w ++ opField w = w := by
  simp only [rsvField, codeField, idxField, opField, BitVec.extractLsb'_append_extractLsb'_eq_extractLsb',
    BitVec.extractLsb'_eq_self]

/-- Two words are equal exactly when their fields are. -/
theorem eq_iff_fields (w v : Word) :
    w = v ↔ opField w = opField v ∧ idxField w = idxField v ∧ codeField w = codeField v ∧ rsvField w = rsvField v := by
  refine ⟨fun h => h ▸ ⟨rfl, rfl, rfl, rfl⟩, fun ⟨hop, hidx, hcode, hrsv⟩ => ?_⟩
  rw [← append_fields w, ← append_fields v, hop, hidx, hcode, hrsv]

/-- The fields of `w` are those of the command word of `i`. -/
structure HasFields (w : Word) (i : Instr) : Prop where
  op : opField w = opOf i
  idx : idxField w = idxOf i
  code : codeField w = Laws.Encoding.codeOf i
  rsv : rsvField w = 0#16

theorem hasFields_encode (i : Instr) : HasFields (encode i) i := by
  have hfields : Laws.Encoding.Statement i := by
    cases i <;> exact Laws.Encoding.fields_commandWord _ _ _
  obtain ⟨hop, hidx, hcode, hrsv⟩ := hfields
  exact ⟨hop, hidx, hcode, hrsv⟩

/-- The fields of an operation determine its word. -/
theorem HasFields.eq {w v : Word} {i : Instr} (hw : HasFields w i) (hv : HasFields v i) : w = v :=
  (eq_iff_fields w v).mpr ⟨hw.op.trans hv.op.symm, hw.idx.trans hv.idx.symm, hw.code.trans hv.code.symm,
    hw.rsv.trans hv.rsv.symm⟩

/-! ### What the decoder answers -/

/-- The words 30_encoding.md R83 lists. -/
def Illegal (w : Word) : Prop :=
  0xB ≤ (opField w).toNat ∨ rsvField w ≠ 0#16 ∨ (codeField w ≠ 0#4 ∧ (opField w).toNat ≠ 0x2) ∨
    (idxField w ≠ 0#8 ∧ ¬ (0x3 ≤ (opField w).toNat ∧ (opField w).toNat ≤ 0x7))

/-- An answer for `w` that is right: the operation whose fields `w` has, or a rejection of a word that is illegal. -/
def RightAnswer (w : Word) : Except Reject Instr → Prop
  | .ok i => HasFields w i
  | .error _ => Illegal w

section
variable {w : Word} (hrsv : rsvField w = 0#16)
include hrsv

theorem bareCommand_right {i : Instr} (hop : (opField w).toNat = (opOf i).toNat) (hidx : idxOf i = 0#8)
    (hcode : Laws.Encoding.codeOf i = 0#4)
    (hnone : (opOf i).toNat ≠ 0x2 ∧ ¬ (0x3 ≤ (opOf i).toNat ∧ (opOf i).toNat ≤ 0x7)) : RightAnswer w (bareCommand w i) := by
  rw [← hop] at hnone
  unfold bareCommand
  split_ifs with hc hi
  · exact .inr (.inr (.inl ⟨hc, hnone.1⟩))
  · exact .inr (.inr (.inr ⟨hi, hnone.2⟩))
  · exact ⟨BitVec.eq_of_toNat_eq hop, (not_not.mp hi).trans hidx.symm, (not_not.mp hc).trans hcode.symm, hrsv⟩

theorem indexCommand_right {mk : BitVec 8 → Instr} {op : Nat} (hop : (opField w).toNat = op) (hne : op ≠ 0x2)
    (hmk : ∀ idx, (opOf (mk idx)).toNat = op ∧ idxOf (mk idx) = idx ∧ Laws.Encoding.codeOf (mk idx) = 0#4) :
    RightAnswer w (indexCommand w mk) := by
  obtain ⟨hopOf, hidx, hcode⟩ := hmk (idxField w)
  unfold indexCommand
  split_ifs with hc
  · exact .inr (.inr (.inl ⟨hc, hop ▸ hne⟩))
  · exact ⟨BitVec.eq_of_toNat_eq (hop.trans hopOf.symm), hidx.symm, (not_not.mp hc).trans hcode.symm, hrsv⟩

theorem decodeCommand_right (hop : (opField w).toNat = 0x2) : RightAnswer w (codeCommand w .decode) := by
  unfold codeCommand
  split_ifs with hi
  · exact .inr (.inr (.inr ⟨hi, by omega⟩))
  · exact ⟨BitVec.eq_of_toNat_eq hop, not_not.mp hi, rfl, hrsv⟩

end

/-- The decoder is right about every word (30_encoding.md R82, R83). -/
theorem decodeWord_right (w : Word) : RightAnswer w (decodeWord w) := by
  unfold decodeWord
  split_ifs with hrsv
  · exact .inr (.inl hrsv)
  have hrsv : rsvField w = 0#16 := not_not.mp hrsv
  split
  case h_3 hop => exact decodeCommand_right hrsv hop
  case h_12 =>
    simp only [imp_false] at *
    exact .inl (by omega)
  case h_4 hop | h_5 hop | h_6 hop | h_7 hop | h_8 hop =>
    exact indexCommand_right hrsv hop (by decide) fun _ => ⟨rfl, rfl, rfl⟩
  all_goals exact bareCommand_right hrsv ‹_› rfl rfl (by decide)

theorem hasFields_of_decodeWord {w : Word} {i : Instr} (h : decodeWord w = .ok i) : HasFields w i := by
  have hright := decodeWord_right w
  rwa [h] at hright

theorem illegal_of_decodeWord {w : Word} {r : Reject} (h : decodeWord w = .error r) : Illegal w := by
  have hright := decodeWord_right w
  rwa [h] at hright

/-- No word with an operation's fields is illegal. -/
theorem HasFields.legal {w : Word} {i : Instr} (h : HasFields w i) : ¬ Illegal w := by
  obtain ⟨hop, hidx, hcode, hrsv⟩ := h
  cases i <;> simp_all [Illegal, opOf, idxOf, Laws.Encoding.codeOf]

/-- A word with an operation's fields decodes to that operation. -/
theorem HasFields.decodeWord {w : Word} {i : Instr} (h : HasFields w i) : decodeWord w = .ok i := by
  obtain ⟨hop, hidx, hcode, hrsv⟩ := h
  cases i <;>
    simp_all [Sys2Proof.decodeWord, bareCommand, indexCommand, codeCommand, opOf, idxOf, Laws.Encoding.codeOf]

theorem exists_decodeWord_ok_iff (w : Word) : (∃ i, decodeWord w = .ok i) ↔ ¬ Illegal w := by
  refine ⟨fun ⟨i, h⟩ => (hasFields_of_decodeWord h).legal, fun hlegal => ?_⟩
  cases h : decodeWord w with
  | ok i => exact ⟨i, rfl⟩
  | error r => exact absurd (illegal_of_decodeWord h) hlegal

theorem exists_decodeWord_error_iff (w : Word) : (∃ r, decodeWord w = .error r) ↔ Illegal w := by
  refine ⟨fun ⟨r, h⟩ => illegal_of_decodeWord h, fun hill => ?_⟩
  cases h : decodeWord w with
  | ok i => exact absurd hill (hasFields_of_decodeWord h).legal
  | error r => exact ⟨r, rfl⟩

/-! ### The rows of the opcode table -/

/-- The mask of an operation's row: every bit but those of the field the operation uses, IDX for 0x3 to 0x7, CODE for 0x2
(30_encoding.md R82, R83). -/
def rowMask (op : BitVec 4) : Word :=
  BitVec.allOnes 16 ++ (if op.toNat = 0x2 then 0#4 else BitVec.allOnes 4) ++
    (if 0x3 ≤ op.toNat ∧ op.toNat ≤ 0x7 then 0#8 else BitVec.allOnes 8) ++ BitVec.allOnes 4

theorem append_eq_append_iff {m n : Nat} {a c : BitVec m} {b d : BitVec n} : a ++ b = c ++ d ↔ a = c ∧ b = d := by
  refine ⟨fun h => ⟨?_, ?_⟩, fun ⟨hac, hbd⟩ => hac ▸ hbd ▸ rfl⟩
  · simpa only [BitVec.extractLsb'_append_eq_left] using congrArg (BitVec.extractLsb' n m) h
  · simpa only [BitVec.extractLsb'_append_eq_right] using congrArg (BitVec.extractLsb' 0 n) h

/-- A field under a mask of zeros or of ones. -/
theorem and_ite_eq_zero_iff {n : Nat} (x : BitVec n) (c : Prop) [Decidable c] :
    (x &&& if c then 0#n else BitVec.allOnes n) = 0#n ↔ c ∨ x = 0#n := by
  split_ifs with hc <;> simp [hc]

/-- A word under a mask is a third word exactly when that holds field by field. -/
theorem and_eq_iff_fields {r m r' : BitVec 16} {c n c' : BitVec 4} {x k x' : BitVec 8} {o p o' : BitVec 4} :
    (r ++ c ++ x ++ o) &&& (m ++ n ++ k ++ p) = r' ++ c' ++ x' ++ o' ↔
      r &&& m = r' ∧ c &&& n = c' ∧ x &&& k = x' ∧ o &&& p = o' := by
  simp only [BitVec.and_append, append_eq_append_iff, and_assoc]

/-- The words a row selects are the legal words with its OP. -/
theorem and_rowMask_iff {op : BitVec 4} (hop : op.toNat < 0xB) (w : Word) :
    w &&& rowMask op = commandWord op 0 0 ↔ opField w = op ∧ ¬ Illegal w := by
  have hmask : w &&& rowMask op = commandWord op 0 0 ↔
      rsvField w &&& BitVec.allOnes 16 = 0#16 ∧
        (codeField w &&& if op.toNat = 0x2 then 0#4 else BitVec.allOnes 4) = 0#4 ∧
        (idxField w &&& if 0x3 ≤ op.toNat ∧ op.toNat ≤ 0x7 then 0#8 else BitVec.allOnes 8) = 0#8 ∧
        opField w &&& BitVec.allOnes 4 = op := by
    rw [← and_eq_iff_fields, append_fields]
    rfl
  rw [hmask, and_ite_eq_zero_iff, and_ite_eq_zero_iff, BitVec.and_allOnes, BitVec.and_allOnes]
  constructor
  · rintro ⟨hrsv, hcode, hidx, rfl⟩
    refine ⟨rfl, ?_⟩
    rw [Illegal]
    push Not
    exact ⟨hop, hrsv, fun hc => hcode.resolve_right hc, fun hi => hidx.resolve_right hi⟩
  · rintro ⟨rfl, hlegal⟩
    rw [Illegal] at hlegal
    push Not at hlegal
    obtain ⟨-, hrsv, hcode, hidx⟩ := hlegal
    exact ⟨hrsv, or_iff_not_imp_right.mpr hcode, or_iff_not_imp_right.mpr hidx, rfl⟩

/-- The rows of the opcode table, in the order of OP: an operation's mask, with its OP alone as the match. -/
theorem row_of_mem_opcodeTable :
    ∀ row ∈ opcodeTable, ∃ i, row = (mnemonic i, rowMask (opOf i), commandWord (opOf i) 0 0) := by
  simp only [opcodeTable, List.forall_mem_cons]
  exact ⟨⟨.btcalc, rfl⟩, ⟨.encode, rfl⟩, ⟨.decode 0, rfl⟩, ⟨.mbwrite 0, rfl⟩, ⟨.mbread 0, rfl⟩, ⟨.mbpeek 0, rfl⟩,
    ⟨.mbinact 0, rfl⟩, ⟨.mbabort 0, rfl⟩, ⟨.txquick, rfl⟩, ⟨.tx, rfl⟩, ⟨.rx, rfl⟩, fun _ h => nomatch h⟩

theorem opOf_lt (i : Instr) : (opOf i).toNat < 0xB := by
  rw [← (hasFields_encode i).op]
  exact Nat.lt_of_not_le fun h => (hasFields_encode i).legal (.inl h)

/-- An operation's row of the opcode table stands at its OP. -/
theorem findIdx_mnemonic (i : Instr) : opcodeTable.findIdx (fun row => row.1 == mnemonic i) = (opOf i).toNat := by
  cases i <;> rfl

theorem getElem?_opOf (i : Instr) : opcodeTable[(opOf i).toNat]?.map Prod.fst = some (mnemonic i) := by
  cases i <;> rfl

theorem mnemonic_eq_iff (i j : Instr) : mnemonic i = mnemonic j ↔ opOf i = opOf j := by
  refine ⟨fun h => BitVec.eq_of_toNat_eq ?_, fun h => Option.some.inj ?_⟩
  · rw [← findIdx_mnemonic, ← findIdx_mnemonic, h]
  · rw [← getElem?_opOf, ← getElem?_opOf, h]

/-- The decoder reads an operation with a row's mnemonic exactly from the legal words with its OP. -/
theorem exists_decodeWord_mnemonic_iff (w : Word) (i : Instr) :
    (∃ j, decodeWord w = .ok j ∧ mnemonic j = mnemonic i) ↔ opField w = opOf i ∧ ¬ Illegal w := by
  constructor
  · rintro ⟨j, hj, hname⟩
    have hfields := hasFields_of_decodeWord hj
    exact ⟨hfields.op.trans ((mnemonic_eq_iff j i).mp hname), hfields.legal⟩
  · rintro ⟨hop, hlegal⟩
    obtain ⟨j, hj⟩ := (exists_decodeWord_ok_iff w).mpr hlegal
    exact ⟨j, hj, (mnemonic_eq_iff j i).mpr ((hasFields_of_decodeWord hj).op.symm.trans hop)⟩

end Sys2Proof

namespace Sys2Proof.Machine

/-! ### Operations that end before any access -/

/-- An operation of an idle block that raises an error at once changes nothing but the result and the record of accesses. -/
theorem issue_raises {body : State → Res Value} {s : State} {e : Err} (hb : s.block = .idle)
    (hbody : body s.started = .err e s.started) :
    issue body s = .next { s with accesses := [], result := some (.err e) } := by
  rw [issue_idle _ hb, hbody, finish_err, State.finished, State.started, ← hb]

/-- A rejected word issued to an idle block ends at once with IllegalCommand. -/
theorem runWord_of_decodeWord_error {w : Word} {r : Reject} (hw : decodeWord w = .error r) {s : State} (hb : s.block = .idle) :
    runWord w s = .next { s with accesses := [], result := some (.err (.illegalCommand w)) } := by
  simp only [runWord, hw]
  exact issue_raises hb rfl

/-! ### Ill-formed records (30_encoding.md R86) -/

theorem RawIdentifier.wf_eq_false {id : RawIdentifier}
    (h : (∃ v, id = .base v ∧ 2 ^ 11 ≤ v) ∨ (∃ v, id = .extended v ∧ 2 ^ 29 ≤ v)) : id.wf = false := by
  rcases h with ⟨v, rfl, hv⟩ | ⟨v, rfl, hv⟩ <;> exact decide_eq_false (Nat.not_lt.mpr hv)

theorem RawFrame.wf_data_eq_false {id : RawIdentifier} {bytes : List Nat}
    (h : id.wf = false ∨ 8 < bytes.length ∨ ∃ b ∈ bytes, 256 ≤ b) : (RawFrame.data id bytes).wf = false := by
  rw [RawFrame.wf]
  rcases h with h | h | ⟨b, hmem, hb⟩
  · rw [h, Bool.false_and, Bool.false_and]
  · rw [decide_eq_false (Nat.not_le.mpr h), Bool.and_false, Bool.false_and]
  · rw [List.all_eq_false.mpr ⟨b, hmem, by simpa using hb⟩, Bool.and_false]

theorem MbwriteOperands.wf_eq_false {o : MbwriteOperands}
    (h : o.frame.wf = false ∨ 8 ≤ o.header.prio ∨ 2 ^ 16 ≤ o.header.timestamp) : o.wf = false := by
  rw [MbwriteOperands.wf, RawHeader.wf]
  rcases h with h | h | h
  · rw [h, Bool.and_false]
  · rw [decide_eq_false (Nat.not_lt.mpr h), Bool.false_and, Bool.false_and]
  · rw [decide_eq_false (Nat.not_lt.mpr h), Bool.and_false, Bool.false_and]

theorem BtcalcOperands.wf_eq_false {o : BtcalcOperands}
    (h : 2 ^ 32 ≤ o.clocks.coreHz ∨ (∃ f, o.clocks.soscdiv2Hz = some f ∧ 2 ^ 32 ≤ f) ∨ 2 ^ 32 ≤ o.targetHz) :
    o.wf = false := by
  rw [BtcalcOperands.wf]
  rcases h with h | ⟨f, hf, h⟩ | h
  · rw [decide_eq_false (Nat.not_lt.mpr h), Bool.false_and, Bool.false_and]
  · rw [hf, Option.all_some, decide_eq_false (Nat.not_lt.mpr h), Bool.and_false, Bool.false_and]
  · rw [decide_eq_false (Nat.not_lt.mpr h), Bool.and_false]

theorem frameOperand_illFormed {o : FrameOperand} (h : o.frame.wf = false) : frameOperand o = none := by
  simp [frameOperand, FrameOperand.wf, h]

theorem mbwriteOperands_illFormed {o : MbwriteOperands} (h : o.wf = false) : mbwriteOperands o = none := by
  simp [mbwriteOperands, h]

theorem checkedTiming_illFormed {o : BtcalcOperands} (h : o.wf = false) : checkedTiming o = .error .invalidOperand := by
  simp [checkedTiming, btcalcOperands, h]

/-- The operations that read an operand record and find it ill-formed. -/
def ReadsIllFormed (s : State) : Instr → Prop
  | .txquick | .tx => s.operands.frame.frame.wf = false
  | .mbwrite _ => s.operands.mbwrite.wf = false
  | .btcalc => s.operands.btcalc.wf = false
  | _ => False

/-- Such an operation raises InvalidOperand before any access. -/
theorem exec_of_readsIllFormed {s : State} (hb : s.block = .idle) {i : Instr} (h : ReadsIllFormed s i) :
    exec i s = .next { s with accesses := [], result := some (.err .invalidOperand) } := by
  cases i with
  | txquick =>
    simp only [exec, execTxquick]
    exact issue_raises hb (by rw [State.started_operands, frameOperand_illFormed h]; rfl)
  | tx =>
    simp only [exec, execTx]
    exact issue_raises hb (by rw [State.started_operands, frameOperand_illFormed h]; rfl)
  | mbwrite idx =>
    simp only [exec, execMbwrite]
    exact issue_raises hb (by rw [State.started_operands, mbwriteOperands_illFormed h]; rfl)
  | btcalc =>
    simp only [exec, execBtcalc]
    exact issue_raises hb (by rw [State.started_operands, checkedTiming_illFormed h]; rfl)
  | _ => exact h.elim

end Sys2Proof.Machine

open Sys2Proof Sys2Proof.Machine

/-- Settles O2: the word of an operation has its fields, and a word with an operation's fields decodes to it. -/
theorem decodeInvertsEncode : Obligations.DecodeInvertsEncode := fun i => (hasFields_encode i).decodeWord

/-- Settles O3: the word and the encoding of what it decodes to have the same fields. -/
theorem acceptedWordIsItsEncoding : Obligations.AcceptedWordIsItsEncoding := fun _ i h =>
  (hasFields_encode i).eq (hasFields_of_decodeWord h)

/-- Settles O4: the decoder rejects exactly the words of `Illegal`, and a rejected word raises before any access. -/
theorem illegalWordsEndAtOnce : Obligations.IllegalWordsEndAtOnce := by
  refine fun w => ⟨exists_decodeWord_error_iff w, exists_decodeWord_ok_iff w, fun hill s ops rest hb hr => ?_⟩
  obtain ⟨r, hw⟩ := (exists_decodeWord_error_iff w).mpr hill
  rw [step_idle_cons hb hr]
  exact runWord_of_decodeWord_error (s := { s with requests := rest, operands := ops }) hw hb

/-- Settles O5: a row's mask and match, and the decoder, both select the legal words with the row's OP. -/
theorem tableRowsAreWhatTheDecoderAccepts : Obligations.TableRowsAreWhatTheDecoderAccepts := by
  intro row hrow w
  obtain ⟨i, rfl⟩ := row_of_mem_opcodeTable row hrow
  exact (and_rowMask_iff (opOf_lt i) w).trans (exists_decodeWord_mnemonic_iff w i).symm

/-- Settles O25: each line of R86 makes its record ill-formed, and an operation on an ill-formed record raises at once. -/
theorem illFormedOperandsEndAtOnce : Obligations.IllFormedOperandsEndAtOnce := by
  intro s hb badId badFrame h o ends
  have hframe : ∀ f, badFrame f → f.wf = false := by
    rintro f (⟨id, bytes, rfl, hbad⟩ | ⟨id, rfl, hbad⟩)
    · exact RawFrame.wf_data_eq_false (hbad.imp_left RawIdentifier.wf_eq_false)
    · exact RawIdentifier.wf_eq_false hbad
  refine ⟨fun hbad => ?_, fun hbad idx => ?_, fun hbad => ?_⟩
  · exact ⟨exec_of_readsIllFormed hb (hframe _ hbad), exec_of_readsIllFormed hb (hframe _ hbad)⟩
  · exact exec_of_readsIllFormed hb (MbwriteOperands.wf_eq_false (hbad.imp_left (hframe _)))
  · exact exec_of_readsIllFormed hb (BtcalcOperands.wf_eq_false hbad)

/-- Settles O1, by running the decoder on each word. -/
theorem sampleWordsDecode : Obligations.SampleWordsDecode := by
  unfold Obligations.SampleWordsDecode
  decide

/-- Settles O53: the step is the operation followed by `requeue`, and no operation touches the caller's queue. -/
theorem callerLoopsWhileExhausted : Obligations.CallerLoopsWhileExhausted := by
  intro s t w ops rest i hb hr hw ht
  refine ⟨?_, (exec_asks ⟨rfl, rfl⟩ ht).requests⟩
  have hrun : runWord w ({ s with requests := rest }.withOperands ops) = .next t := (runWord_of_decodeWord hw _).trans ht
  rw [step_idle_cons hb hr, runRequest, hrun, requeue]
  split <;> rfl
end

section
/-! 40_bit_timing.md R100 to R111: the bit-timing calculator said once. On a well-formed record BTCALC is `timingFor` of the selected
clock; of a multiple of the target that is a function of the ratio alone; and the fields of every number of quanta in [8, 26) fit their
widths and add up. -/

namespace Sys2Proof.Machine

/-! ### The fields of a number of quanta (R106, R107, R111) -/

/-- R106's (pseg2, rjw) for a number of quanta in [8, 26). -/
def seg2Row (tqs : Nat) : Nat × Nat :=
  if tqs < 10 then (1, 1) else if tqs < 15 then (3, 2) else if tqs < 20 then (6, 2) else (7, 3)

theorem seg2Table_of_supported {tqs : Nat} (hlo : 8 ≤ tqs) (hhi : tqs < 26) : seg2Table tqs = some (seg2Row tqs) := by
  unfold seg2Table seg2Row
  grind

theorem seg2Table_of_unsupported {tqs : Nat} (h : tqs < 8 ∨ 26 ≤ tqs) : seg2Table tqs = none := by
  rw [seg2Table, if_neg (by omega), if_neg (by omega), if_neg (by omega), if_neg (by omega)]

/-- R106's fields fit their widths and leave between 6 and 17 of the quanta to pseg1 and propseg (R108). -/
theorem seg2Row_bounds {tqs : Nat} (hlo : 8 ≤ tqs) (hhi : tqs < 26) :
    (seg2Row tqs).1 < 8 ∧ (seg2Row tqs).2 < 4 ∧ (seg2Row tqs).1 + 7 ≤ tqs ∧ tqs ≤ (seg2Row tqs).1 + 18 := by
  unfold seg2Row
  split_ifs <;> omega

theorem pseg1Of_lt {tqs pseg2 : Nat} (h : tqs ≤ pseg2 + 18) : pseg1Of tqs pseg2 < 8 := by
  unfold pseg1Of
  omega

theorem propsegOf_lt {tqs pseg2 : Nat} (h : tqs ≤ pseg2 + 18) : propsegOf tqs pseg2 (pseg1Of tqs pseg2) < 8 := by
  unfold propsegOf pseg1Of
  omega

/-- R111's quanta law: no subtraction of R107 goes below 0 where 6 or more quanta are left after phase segment 2. -/
theorem segments_add_up {tqs pseg2 : Nat} (h : pseg2 + 7 ≤ tqs) :
    1 + (propsegOf tqs pseg2 (pseg1Of tqs pseg2) + 1) + (pseg1Of tqs pseg2 + 1) + (pseg2 + 1) = tqs := by
  unfold propsegOf pseg1Of
  omega

theorem timingOf_unsupported (presdiv : Nat) {tqs : Nat} (h : tqs < 8 ∨ 26 ≤ tqs) :
    timingOf presdiv tqs = .error (.bitTimingUnsupported tqs) := by
  rw [timingOf, seg2Table_of_unsupported h]

/-- The fields of a number of quanta in [8, 26): none is cut off by its width, and they add up (R111). -/
theorem timingOf_supported {presdiv tqs : Nat} (hp : presdiv < 256) (hlo : 8 ≤ tqs) (hhi : tqs < 26) :
    ∃ bt, timingOf presdiv tqs = .ok bt ∧ bt.presdiv.toNat = presdiv ∧ bt.tqs = tqs ∧
      1 + (bt.propseg.toNat + 1) + (bt.pseg1.toNat + 1) + (bt.pseg2.toNat + 1) = tqs ∧
      bt.pseg1.toNat = pseg1Of tqs bt.pseg2.toNat ∧ (bt.pseg2.toNat, bt.rjw.toNat) = seg2Row tqs := by
  have htable := seg2Table_of_supported hlo hhi
  obtain ⟨hpseg2, hrjw, hge, hle⟩ := seg2Row_bounds hlo hhi
  generalize seg2Row tqs = row at *
  rw [timingOf, htable]
  refine ⟨_, rfl, ?_⟩
  simp only [BitVec.toNat_ofNat, Nat.reducePow, Nat.mod_eq_of_lt hp, Nat.mod_eq_of_lt hpseg2, Nat.mod_eq_of_lt hrjw,
    Nat.mod_eq_of_lt (pseg1Of_lt hle), Nat.mod_eq_of_lt (propsegOf_lt hle), segments_add_up hge, and_self]

/-! ### A ratio's prescaler and quanta (R103 to R105, R109) -/

theorem quanta_eq {target : Nat} (h : 0 < target) (ratio divisor : Nat) :
    ratio * target / divisor / target = ratio / divisor := by
  rw [Nat.div_right_comm, Nat.mul_div_cancel _ h]

/-- R109: a ratio of 8 or more gives 8 to 24 quanta. -/
theorem quanta_bounds {ratio : Nat} (h : 8 ≤ ratio) : 8 ≤ ratio / (ratio / 25 + 1) ∧ ratio / (ratio / 25 + 1) < 25 := by
  rw [Nat.le_div_iff_mul_le (Nat.succ_pos _), Nat.div_lt_iff_lt_mul (Nat.succ_pos _)]
  omega

/-! ### The checks of R100 -/

theorem timingFor_zero (source : Nat) : timingFor source 0 = .error .settingsError := rfl

theorem timingFor_of_not_dvd {source target : Nat} (ht : 0 < target) (h : ¬ target ∣ source) :
    timingFor source target = .error .settingsError := by
  rw [timingFor, if_neg ht.ne', if_pos fun hmod => h (Nat.dvd_of_mod_eq_zero hmod)]

/-- The checks and fields of a source clock that is a multiple of the target. -/
theorem timingFor_mul {target : Nat} (ht : 0 < target) (ratio : Nat) :
    timingFor (ratio * target) target =
      if ratio < 5 then .error .settingsError
      else if ratio / 25 > 255 then .error (.prescalerOverflow (ratio / 25))
      else timingOf (ratio / 25) (ratio / (ratio / 25 + 1)) := by
  rw [timingFor, if_neg ht.ne', if_neg (not_not.mpr (Nat.mul_mod_left ratio target)), Nat.mul_div_cancel _ ht, quanta_eq ht]

theorem timingFor_of_ratio_lt {target ratio : Nat} (ht : 0 < target) (h : ratio < 5) :
    timingFor (ratio * target) target = .error .settingsError := by
  rw [timingFor_mul ht, if_pos h]

theorem timingFor_of_ratio_ge {target ratio : Nat} (ht : 0 < target) (h : 6400 ≤ ratio) :
    timingFor (ratio * target) target = .error (.prescalerOverflow (ratio / 25)) := by
  rw [timingFor_mul ht, if_neg (by omega), if_pos (by omega)]

theorem timingFor_of_ratio {target ratio : Nat} (ht : 0 < target) (hlo : 5 ≤ ratio) (hhi : ratio ≤ 6399) :
    timingFor (ratio * target) target = timingOf (ratio / 25) (ratio / (ratio / 25 + 1)) := by
  rw [timingFor_mul ht, if_neg (by omega), if_neg (by omega)]

/-! ### The operation -/

theorem checkedTiming_wellFormed {o : BtcalcOperands} (hwf : o.wf = true) :
    checkedTiming o = bitTiming o.sel o.clocks o.targetHz := by
  rw [checkedTiming, btcalcOperands, if_pos hwf]

theorem checkedTiming_of_disabled {o : BtcalcOperands} (hwf : o.wf = true) (hsel : o.sel = .soscdiv2)
    (hoff : o.clocks.soscdiv2Hz = none) : checkedTiming o = .error .clockSourceDisabled := by
  simp only [checkedTiming_wellFormed hwf, bitTiming, hsel, selectSource, hoff]

theorem selectSource_of_source {sel : ClockSource} {clocks : ClockInfo} {source : Nat}
    (h : (sel = .sys ∧ source = clocks.coreHz) ∨ (sel = .soscdiv2 ∧ clocks.soscdiv2Hz = some source)) :
    selectSource sel clocks = .ok source := by
  obtain ⟨rfl, rfl⟩ | ⟨rfl, h⟩ := h
  · rfl
  · rw [selectSource, h]

theorem checkedTiming_of_source {o : BtcalcOperands} (hwf : o.wf = true) {source : Nat}
    (h : (o.sel = .sys ∧ source = o.clocks.coreHz) ∨ (o.sel = .soscdiv2 ∧ o.clocks.soscdiv2Hz = some source)) :
    checkedTiming o = timingFor source o.targetHz := by
  rw [checkedTiming_wellFormed hwf, bitTiming, selectSource_of_source h]

/-- An operation of an idle block that has its value at once changes nothing but the result and the record of accesses. -/
theorem issue_returns {body : State → Res Value} {s : State} {v : Value} (hb : s.block = .idle)
    (hbody : body s.started = .ok v s.started) :
    issue body s = .next { s with accesses := [], result := some (.ok v) } := by
  rw [issue_idle _ hb, hbody, finish_ok, State.finished, State.started, ← hb]

theorem exec_btcalc_ok {s : State} (hb : s.block = .idle) {bt : Timing} (h : checkedTiming s.operands.btcalc = .ok bt) :
    exec .btcalc s = .next { s with accesses := [], result := some (.ok (.timing bt)) } := by
  simp only [exec, execBtcalc]
  exact issue_returns hb (by rw [State.started_operands, h]; rfl)

theorem exec_btcalc_error {s : State} (hb : s.block = .idle) {e : Err} (h : checkedTiming s.operands.btcalc = .error e) :
    exec .btcalc s = .next { s with accesses := [], result := some (.err e) } := by
  simp only [exec, execBtcalc]
  exact issue_raises hb (by rw [State.started_operands, h]; rfl)

end Sys2Proof.Machine

open Sys2Proof Sys2Proof.Machine

/-- Settles O22: the rows of the table by running the calculator, the rest by the ranges of R106. -/
theorem bitTimingTable : Obligations.BitTimingTable := by
  refine ⟨fun presdiv row hrow => ?_, fun presdiv _ h => timingOf_unsupported presdiv h⟩
  fin_cases hrow <;> exact ⟨rfl, rfl⟩

/-- Settles O23: the ratio gives 8 to 24 quanta (R109), whose fields fit and add up. -/
theorem btcalcCompletes : Obligations.BtcalcCompletes := by
  rintro s _ ratio hb hwf o hsource ht rfl hlo hhi
  obtain ⟨hq8, hq25⟩ := quanta_bounds hlo
  obtain ⟨bt, hbt, hpresdiv, htqs, hsum, hpseg1, hrow⟩ :=
    timingOf_supported (presdiv := ratio / 25) (by omega) hq8 (hq25.trans (by decide))
  have hchecked : checkedTiming o = .ok bt := by
    rw [checkedTiming_of_source hwf hsource, timingFor_of_ratio ht (by omega) hhi, hbt]
  rw [← htqs] at hq8 hq25 hsum hpseg1 hrow
  exact ⟨bt, exec_btcalc_ok hb hchecked, hpresdiv, htqs, hq8, Nat.lt_succ_iff.mp hq25, hsum, hpseg1, hrow⟩

/-- Settles O24: each check of R100 in its order, and the quanta of the three ratios below 8 that pass them. -/
theorem btcalcErrors : Obligations.BtcalcErrors := by
  intro s hb hwf o ends
  refine ⟨fun hsel hoff => exec_btcalc_error hb (checkedTiming_of_disabled hwf hsel hoff), fun source hsource => ?_⟩
  have hends : ∀ e, timingFor source o.targetHz = .error e → ends e := fun e h =>
    exec_btcalc_error hb ((checkedTiming_of_source hwf hsource).trans h)
  refine ⟨fun ht => hends _ (ht ▸ timingFor_zero source), fun ht hdvd => hends _ (timingFor_of_not_dvd ht hdvd), ?_⟩
  rintro ratio ht rfl
  refine ⟨fun h => hends _ (timingFor_of_ratio_lt ht h), fun h => hends _ ?_, fun h => hends _ (timingFor_of_ratio_ge ht h)⟩
  have hquanta : ratio / (ratio / 25 + 1) = ratio := by
    rw [Nat.div_eq_of_lt (by omega : ratio < 25), Nat.div_one]
  rw [timingFor_of_ratio ht (by omega) (by omega), hquanta, timingOf_unsupported _ (by omega)]
end

section
/-! 41_codec.md R120 to R123: the codec said once. `encodeState` and `decodeState` are inverse to each other but for the two reserved
patterns, and ENCODE and DECODE return what these give. -/

namespace Sys2Proof.Machine

/-! ### The laws of R123 -/

@[simp] theorem decodeState_encodeState (st : BufferState) : decodeState (encodeState st) = some st := by
  cases st with
  | tx t => cases t <;> rfl
  | rx r busy => cases r <;> cases busy <;> rfl

theorem encodeState_of_decodeState {p : BitVec 4} {st : BufferState} (h : decodeState p = some st) : encodeState st = p := by
  have hrows : ∀ p : BitVec 4, ∀ st ∈ decodeState p, encodeState st = p := by decide
  exact hrows p st h

theorem decodeState_eq_none_iff (p : BitVec 4) : decodeState p = none ↔ p = 0b1101#4 ∨ p = 0b1111#4 := by
  revert p
  decide

/-- A pattern that does not decode is the code of no state. -/
theorem encodeState_ne {p : BitVec 4} (h : decodeState p = none) (st : BufferState) : encodeState st ≠ p := by
  rintro rfl
  simp at h

/-! ### ENCODE and DECODE -/

theorem decodeOrRaise_some {p : BitVec 4} {st : BufferState} (h : decodeState p = some st) (s : State) :
    decodeOrRaise p s = .ok st s := by
  rw [decodeOrRaise, h]

theorem decodeOrRaise_none {p : BitVec 4} (h : decodeState p = none) (s : State) :
    decodeOrRaise p s = .err (.decodeError p) s := by
  rw [decodeOrRaise, h, raise_eq]

section
variable {s : State} (hb : s.block = .idle)
include hb

theorem exec_encode : exec .encode s =
    .next { s with accesses := [], result := some (.ok (.code (encodeState s.operands.encode.state))) } :=
  issue_returns hb rfl

theorem exec_decode_some {p : BitVec 4} {st : BufferState} (h : decodeState p = some st) :
    exec (.decode p) s = .next { s with accesses := [], result := some (.ok (.state st)) } := by
  simp only [exec, execDecode]
  exact issue_returns hb (by rw [decodeOrRaise_some h, Res.bind_ok])

theorem exec_decode_none {p : BitVec 4} (h : decodeState p = none) :
    exec (.decode p) s = .next { s with accesses := [], result := some (.err (.decodeError p)) } := by
  simp only [exec, execDecode]
  exact issue_raises hb (by rw [decodeOrRaise_none h, Res.bind_err])

end

end Sys2Proof.Machine

open Sys2Proof Sys2Proof.Machine

/-- Settles O19: decoding inverts encoding, encoding inverts decoding, and R120's table has two rows without a state. -/
theorem codecLaws : Obligations.CodecLaws :=
  ⟨decodeState_encodeState, fun _ _ => encodeState_of_decodeState, decodeState_eq_none_iff⟩

/-- Settles O20: the code is `encodeState`'s, row by row, and no state has a reserved one. -/
theorem encodeReturnsTheCode : Obligations.EncodeReturnsTheCode := by
  intro s hb st
  refine ⟨encodeState st, exec_encode hb, (· ▸ rfl), (· ▸ rfl), (· ▸ rfl), (· ▸ rfl), ?_, encodeState_ne rfl st,
    encodeState_ne rfl st⟩
  intro b bit
  exact ⟨(· ▸ rfl), (· ▸ rfl), (· ▸ rfl), (· ▸ rfl), (· ▸ rfl)⟩

/-- Settles O21: DECODE answers as `decodeState` does, which has R120's rows and fails on the two reserved patterns. -/
theorem decodeReturnsTheState : Obligations.DecodeReturnsTheState := by
  intro s p hb row
  have hrow : ∀ {q : BitVec 4} {st : BufferState}, decodeState q = some st → row q st := fun h hp =>
    exec_decode_some hb (hp ▸ h)
  exact ⟨hrow rfl, hrow rfl, hrow rfl, hrow rfl, hrow rfl, hrow rfl, hrow rfl, hrow rfl, hrow rfl, hrow rfl, hrow rfl,
    hrow rfl, hrow rfl, hrow rfl, fun hp => exec_decode_none hb ((decodeState_eq_none_iff p).mpr hp)⟩
end

section
/-! 41_codec.md R124: an operation that decodes a reserved code has made reads alone until then, so it ends with DecodeError in a state
that differs from the one it began in by what reads change. Followed piece by piece through the pseudocode of 42_mailbox_store.md R145
to R149, 43_transmit_arbiter.md R181 and R182 and 44_receive_scanner.md R200, with a peripheral that takes no step. -/

namespace Sys2Proof.Machine

/-! ### What reads alone leave -/

/-- `t` is what reads alone, with a peripheral that takes no step, make of `s`. -/
structure AfterReads (s t : State) : Prop where
  regs : sameRegsBut [.timer] s t
  abortReq : t.abortReq = s.abortReq
  lateTx : t.lateTx = s.lateTx
  rxStage : t.rxStage = s.rxStage
  permitted : t.params.accessPermitted = true
  quiet : t.quiet

section
variable {s t : State}

/-- The timer, the lock, the schedule and the block's own record are not compared. -/
theorem AfterReads.update (h : AfterReads s t) (timer : BitVec 16) (draws : Nat) (lock : Option (Fin 16))
    {schedule : List (List Event)} (hq : ∀ es ∈ schedule, es = []) (accesses : List Access) (result : Option Result)
    (block : Block) :
    AfterReads s { t with timer := timer, draws := draws, lockedMb := lock, schedule := schedule, accesses := accesses,
                          result := result, block := block } := by
  refine ⟨fun r hr => (Eq.trans ?_ (h.regs r hr)), h.abortReq, h.lateTx, h.rxStage, h.permitted, hq⟩
  cases r with
  | timer => simp at hr
  | _ => rfl

theorem AfterReads.started (hr : s.ready) (hq : s.quiet) : AfterReads s s.started :=
  AfterReads.update (t := s) ⟨fun _ _ => rfl, rfl, rfl, rfl, hr.2, hq⟩ _ _ _ hq _ _ _

theorem AfterReads.mb (h : AfterReads s t) : t.mb = s.mb :=
  bank_ext fun i => Mailbox.ext_words fun w => h.regs (.mb i w) (by simp)

theorem AfterReads.stateAt (h : AfterReads s t) (i : Fin 16) : t.stateAt i = s.stateAt i := by
  rw [State.stateAt, State.stateAt, State.codeAt, State.codeAt, h.mb]

theorem AfterReads.codeAt (h : AfterReads s t) (i : Fin 16) : t.codeAt i = s.codeAt i := by
  rw [State.codeAt, State.codeAt, h.mb]

theorem quiet_replicate (n : Nat) : ∀ es ∈ List.replicate n ([] : List Event), es = [] := fun _ => List.eq_of_mem_replicate

/-- One more read. -/
theorem AfterReads.readReg (h : AfterReads s t) (r : Reg) :
    ∃ v u, readReg r t = .ok v u ∧ AfterReads s u ∧ (r ≠ .timer → v = peekReg r s) := by
  obtain ⟨timer, draws, lock, hread⟩ := readEffect_eq r (gap t)
  rw [readReg_eq r h.permitted, doRead, hread, gap_quiet h.quiet]
  have hafter := h.update timer draws lock (quiet_tail h.quiet)
  exact ⟨_, _, rfl, hafter _ _ _, fun hr => (hafter t.accesses t.result t.block).regs r (by simpa using hr)⟩

theorem AfterReads.unlock (h : AfterReads s t) : ∃ u, unlock t = .ok () u ∧ AfterReads s u := by
  obtain ⟨v, u, hread, hu, -⟩ := h.readReg .timer
  exact ⟨u, by rw [Machine.unlock, hread, Res.bind_ok], hu⟩

/-! ### Pseudocode that raises after reads alone -/

/-- A piece of pseudocode raises `e`, having made reads alone since `s`. -/
def RaisesAfterReads {α : Type} (s : State) (e : Err) (r : Res α) : Prop := ∃ u, r = .err e u ∧ AfterReads s u

variable {α β : Type} {e : Err}

theorem AfterReads.raises (h : AfterReads s t) : RaisesAfterReads s e (.err e t : Res α) := ⟨t, rfl, h⟩

/-- What raises in the first piece of pseudocode raises in the whole. -/
theorem RaisesAfterReads.bind {r : Res α} (h : RaisesAfterReads s e r) (f : α → State → Res β) :
    RaisesAfterReads s e (r.bind f) := by
  obtain ⟨u, rfl, hu⟩ := h
  exact hu.raises

/-- A read goes on with the value that its register has in `s`. -/
theorem AfterReads.bind_readReg (h : AfterReads s t) {r : Reg} (hr : r ≠ .timer) {f : Word → State → Res α}
    (hf : ∀ u, AfterReads s u → RaisesAfterReads s e (f (peekReg r s) u)) : RaisesAfterReads s e ((Machine.readReg r t).bind f) := by
  obtain ⟨v, u, hread, hu, hv⟩ := h.readReg r
  rw [hread, Res.bind_ok, hv hr]
  exact hf u hu

theorem AfterReads.bind_unlock (h : AfterReads s t) {f : Unit → State → Res α}
    (hf : ∀ u, AfterReads s u → RaisesAfterReads s e (f () u)) : RaisesAfterReads s e ((Machine.unlock t).bind f) := by
  obtain ⟨u, hunlock, hu⟩ := h.unlock
  rw [hunlock, Res.bind_ok]
  exact hf u hu

/-- An operation that raises ends with that error. -/
theorem RaisesAfterReads.issue {body : State → Res Value} (hb : s.block = .idle) (h : RaisesAfterReads s e (body s.started)) :
    ∃ t, issue body s = .next t ∧ t.block = .idle ∧ t.result = some (.err e) ∧ AfterReads s t := by
  obtain ⟨u, hbody, hu⟩ := h
  refine ⟨u.finished (.err e), ?_, rfl, rfl, hu.update _ _ _ hu.quiet _ _ _⟩
  rw [issue_idle _ hb, hbody, finish_err]

/-! ### Each operation on a reserved code -/

@[simp] theorem withIndex_ofNat (i : Fin 16) (f : Fin 16 → State → Res α) (s : State) :
    withIndex (BitVec.ofNat 8 i.val) f s = f i s := by
  have hi : (BitVec.ofNat 8 i.val).toNat = i.val := by
    rw [BitVec.toNat_ofNat, Nat.mod_eq_of_lt (by omega)]
  simp [withIndex, hi]

/-- An ascending list up to one of its entries. -/
theorem exists_append_of_mem_ascending {l : List (Fin 16)} (hl : l.Pairwise (· < ·)) {i : Fin 16} (hi : i ∈ l) :
    ∃ before after, l = before ++ i :: after ∧ ∀ j ∈ before, j < i := by
  obtain ⟨before, after, rfl⟩ := List.append_of_mem hi
  exact ⟨before, after, rfl, fun j hj => (List.pairwise_append.mp hl).2.2 j hj i (by simp)⟩

/-- The transmit mailboxes are scanned in ascending order (00_scope.md R14). -/
theorem txIdx_split {i : Fin 16} (hi : i.val < 8) : ∃ before after, txIdx = before ++ i :: after ∧ ∀ j ∈ before, j < i := by
  have hmem : ∀ i : Fin 16, i.val < 8 → i ∈ txIdx := by decide
  exact exists_append_of_mem_ascending (by decide) (hmem i hi)

section
variable {i : Fin 16} (hst : s.stateAt i = none)
include hst

theorem AfterReads.decodeOrRaise (h : AfterReads s t) :
    RaisesAfterReads s (.decodeError (s.codeAt i)) (decodeOrRaise (s.codeAt i) t) :=
  ⟨t, decodeOrRaise_none hst t, h⟩

theorem AfterReads.readCode (h : AfterReads s t) : RaisesAfterReads s (.decodeError (s.codeAt i)) (readCode i t) :=
  h.bind_readReg (by simp) fun _ h => h.decodeOrRaise hst

theorem AfterReads.readFrom (h : AfterReads s t) (c : ReadCaller) (n : Nat) :
    RaisesAfterReads s (.decodeError (s.codeAt i)) (readFrom c i n t) := by
  rw [readFrom_reserved c i n h.permitted ((quiet_iff t).mp h.quiet) ((h.stateAt i).trans hst), h.codeAt]
  exact (h.update _ _ _ (quiet_replicate _) _ _ _).raises

theorem AfterReads.mbpeek (h : AfterReads s t) : RaisesAfterReads s (.decodeError (s.codeAt i)) (mbpeek i t) :=
  h.bind_readReg (by simp) fun _ h => h.bind_readReg (by simp) fun _ h => h.bind_readReg (by simp) fun _ h =>
  h.bind_readReg (by simp) fun _ h => h.bind_unlock fun _ h => (h.decodeOrRaise hst).bind _

theorem AfterReads.mbabort (h : AfterReads s t) (c : AbortCaller) :
    RaisesAfterReads s (.decodeError (s.codeAt i)) (mbabort c i t) :=
  h.bind_readReg (by simp) fun _ h => (h.decodeOrRaise hst).bind _

theorem AfterReads.mbwrite (h : AfterReads s t) {hdr : Header} (hrole : hdr.code.role = roleOfIndex i)
    (hidle : hdr.code.isBusy = false) (f : Frame) : RaisesAfterReads s (.decodeError (s.codeAt i)) (mbwrite i hdr f t) := by
  rw [Machine.mbwrite, if_neg (by simp [hrole, hidle])]
  exact h.bind_readReg (by simp) fun _ h => (h.decodeOrRaise hst).bind _

/-- TXQUICK's pass stops at the first reserved code, if no mailbox before it is free (43_transmit_arbiter.md R181). -/
theorem AfterReads.txquickScan_append (h : AfterReads s t) (f : Frame) (before after : List (Fin 16))
    (hbefore : ∀ j ∈ before, ∃ st, s.stateAt j = some st ∧ st ≠ .tx .inactive) :
    RaisesAfterReads s (.decodeError (s.codeAt i)) (txquickScan f (before ++ i :: after) t) := by
  induction before generalizing t with
  | nil => exact (h.readCode hst).bind _
  | cons j before ih =>
    obtain ⟨⟨st, hj, hfree⟩, hrest⟩ := List.forall_mem_cons.mp hbefore
    rw [List.cons_append, Machine.txquickScan, Machine.readCode, Res.bind_assoc]
    refine h.bind_readReg (by simp) fun u h => ?_
    have hcode : decodeState (codeOf (peekReg (.mb j 0) s)) = some st := hj
    rw [decodeOrRaise_some hcode, Res.bind_ok, if_neg hfree]
    exact ih h hrest

/-- TX's snapshot stops at the first reserved code (43_transmit_arbiter.md R182). -/
theorem AfterReads.peekAll_append (h : AfterReads s t) (before after : List (Fin 16)) (hbefore : ∀ j ∈ before, s.stateAt j ≠ none) :
    RaisesAfterReads s (.decodeError (s.codeAt i)) (peekAll (before ++ i :: after) t) := by
  induction before generalizing t with
  | nil => exact (h.mbpeek hst).bind _
  | cons j before ih =>
    obtain ⟨hj, hrest⟩ := List.forall_mem_cons.mp hbefore
    obtain ⟨st, hj⟩ := Option.ne_none_iff_exists'.mp hj
    rw [List.cons_append, Machine.peekAll,
      mbpeek_quiet j st h.permitted ((quiet_iff t).mp h.quiet) ((h.stateAt j).trans hj), Res.bind_ok]
    exact (ih (h.update _ _ _ (quiet_replicate _) _ _ _) hrest).bind _

theorem AfterReads.txquickScan (h : AfterReads s t) (f : Frame) (hi : i.val < 8)
    (hbefore : ∀ j, j < i → ∃ st, s.stateAt j = some st ∧ st ≠ .tx .inactive) :
    RaisesAfterReads s (.decodeError (s.codeAt i)) (txquickScan f txIdx t) := by
  obtain ⟨before, after, hsplit, hlt⟩ := txIdx_split hi
  rw [hsplit]
  exact h.txquickScan_append hst f before after fun j hj => hbefore j (hlt j hj)

theorem AfterReads.transmit (h : AfterReads s t) (hi : i.val < 8) (hbefore : ∀ j, j < i → s.stateAt j ≠ none) (f : Frame) :
    RaisesAfterReads s (.decodeError (s.codeAt i)) (transmit f t) := by
  obtain ⟨before, after, hsplit, hlt⟩ := txIdx_split hi
  rw [Machine.transmit, hsplit]
  exact (h.peekAll_append hst before after fun j hj => hbefore j (hlt j hj)).bind _

/-- RX reads the first receive mailbox flagged and stops at a reserved code there (44_receive_scanner.md R200). -/
theorem AfterReads.receive (h : AfterReads s t) (hflag : firstFlagged s.iflag = some i) :
    RaisesAfterReads s (.decodeError (s.codeAt i)) (receive t) := by
  refine h.bind_readReg (by simp) fun u h => ?_
  rw [show peekReg .iflag1 s = s.iflag from rfl, hflag]
  exact h.readFrom hst _ _

end

/-- MBINACT alone goes on: over a reserved code it writes 0 (42_mailbox_store.md R148). -/
theorem inactiveCs_of_reserved {cs : Word} (h : decodeState (codeOf cs) = none) : inactiveCs cs = 0#32 := by
  simp only [inactiveCs, h, BitVec.ofNat_eq_ofNat]

theorem firstFlagged_eq_some {f : Word} {i : Fin 16} (hi : 8 ≤ i.val) (hflag : flagSet f i = true)
    (hbefore : ∀ j : Fin 16, 8 ≤ j.val → j < i → flagSet f j = false) : firstFlagged f = some i := by
  have hmem : ∀ i : Fin 16, i ∈ rxIdx ↔ 8 ≤ i.val := by decide
  obtain ⟨before, after, hsplit, hlt⟩ := exists_append_of_mem_ascending (by decide) ((hmem i).mpr hi)
  refine List.find?_eq_some_iff_append.mpr ⟨hflag, before, after, hsplit, fun j hj => ?_⟩
  have hj8 : 8 ≤ j.val := (hmem j).mp (hsplit ▸ List.mem_append_left _ hj)
  rw [hbefore j hj8 (hlt j hj), Bool.not_false]

end

/-! ### The operations as their pseudocode issued on operands in range and well-formed -/

section
variable (i : Fin 16) (s : State)

theorem exec_mbread_ofNat : exec (.mbread (BitVec.ofNat 8 i.val)) s =
    issue (fun s => returnMessage (readFrom .mbread i 0 s)) s := by
  simp only [exec, execMbread, withIndex_ofNat]

theorem exec_mbpeek_ofNat : exec (.mbpeek (BitVec.ofNat 8 i.val)) s = issue (fun s => returnMessage (mbpeek i s)) s := by
  simp only [exec, execMbpeek, withIndex_ofNat]

theorem exec_mbinact_ofNat : exec (.mbinact (BitVec.ofNat 8 i.val)) s = issue (fun s => returnUnit (mbinact i s)) s := by
  simp only [exec, execMbinact, withIndex_ofNat]

theorem exec_mbabort_ofNat : exec (.mbabort (BitVec.ofNat 8 i.val)) s =
    issue (fun s => returnMaybeFrame (mbabort .mbabort i s)) s := by
  simp only [exec, execMbabort, withIndex_ofNat]

end

section
variable {s : State}

/-- An operation runs from its own beginning. -/
theorem issue_congr {body body' : State → Res Value} (h : body s.started = body' s.started) :
    issue body s = issue body' s := by
  unfold issue
  rw [h]

theorem exec_mbwrite_ofNat {hdr : Header} {f : Frame} (hops : mbwriteOperands s.operands.mbwrite = some (hdr, f)) (i : Fin 16) :
    exec (.mbwrite (BitVec.ofNat 8 i.val)) s = issue (fun s => returnUnit (mbwrite i hdr f s)) s := by
  simp only [exec, execMbwrite]
  exact issue_congr (by simp only [State.started_operands, hops, withIndex_ofNat])

theorem exec_txquick_some {f : Frame} (hops : frameOperand s.operands.frame = some f) :
    exec .txquick s = issue (fun s => returnUnit (txquickScan f txIdx s)) s := by
  simp only [exec, execTxquick]
  exact issue_congr (by simp only [State.started_operands, hops])

theorem exec_tx_some {f : Frame} (hops : frameOperand s.operands.frame = some f) :
    exec .tx s = issue (fun s => returnMaybeFrame (transmit f s)) s := by
  simp only [exec, execTx]
  exact issue_congr (by simp only [State.started_operands, hops])

theorem exec_rx : exec .rx s = issue (fun s => returnFrame (receive s)) s := rfl

/-- A CS write leaves every word but that one. -/
theorem word_get_put_cs (mb : Vector Mailbox 16) {i j : Fin 16} {w : Fin 4} (h : j = i → w ≠ 0) (v : Word) :
    ((put mb i { mb.get i with cs := v }).get j).word w = (mb.get j).word w := by
  rw [get_put]
  split
  · next hij =>
    subst hij
    rw [← Mailbox.setWord_zero, Mailbox.word_setWord, if_neg (h rfl).symm]
  · rfl

/-- MBINACT over a reserved code zeroes the CS word and touches no other register. -/
theorem exec_mbinact_reserved (hr : s.ready) (hq : s.quiet) {i : Fin 16} (hst : s.stateAt i = none) :
    ∃ t, exec (.mbinact (BitVec.ofNat 8 i.val)) s = .next t ∧ t.result = some (.ok .unit) ∧
      (t.mb.get i).cs = 0#32 ∧ sameRegsBut [.mb i 0] s t := by
  obtain ⟨hb, hp⟩ := hr
  rw [exec_mbinact_ofNat, issue_idle _ hb, mbinact_quiet (s := s.started) i hp ((quiet_iff s).mp hq),
    show inactiveCs (s.started.mb.get i).cs = 0#32 from inactiveCs_of_reserved hst]
  refine ⟨_, rfl, rfl, congrArg Mailbox.cs (get_put_self _ _ _), fun r hr => ?_⟩
  cases r with
  | mb j w => exact word_get_put_cs s.mb (by simpa using hr) _
  | _ => rfl

end

end Sys2Proof.Machine

open Sys2Proof Sys2Proof.Machine

/-- Settles O36: until it decodes the code an operation has made reads alone; MBINACT, which raises nothing, writes 0. -/
theorem reservedCodesAreErrors : Obligations.ReservedCodesAreErrors := by
  intro s i hr hq hst raises
  have h : AfterReads s s.started := .started hr hq
  have hraises : ∀ {ins : Instr} {body : State → Res Value}, exec ins s = issue body s →
      RaisesAfterReads s (.decodeError (s.codeAt i)) (body s.started) → raises ins := by
    intro ins body hexec hbody
    obtain ⟨t, ht, hidle, hresult, hafter⟩ := hbody.issue hr.1
    exact ⟨t, hexec.trans ht, hidle, hresult, hafter.regs,
      fun j _ => ⟨hafter.abortReq ▸ rfl, hafter.lateTx ▸ rfl, hafter.rxStage ▸ rfl⟩,
      hafter.abortReq, hafter.lateTx, hafter.rxStage⟩
  refine ⟨?mbread, ?mbpeek, ?mbabort, fun hdr f hops hrole hidle => ?mbwrite, fun hi hbefore ⟨f, hops⟩ => ?txquick,
    fun hi hbefore ⟨f, hops⟩ => ?tx, fun hi hflag hbefore => ?rx, exec_mbinact_reserved hr hq hst⟩
  case mbread => exact hraises (exec_mbread_ofNat i s) ((h.readFrom hst _ _).bind _)
  case mbpeek => exact hraises (exec_mbpeek_ofNat i s) ((h.mbpeek hst).bind _)
  case mbabort => exact hraises (exec_mbabort_ofNat i s) ((h.mbabort hst _).bind _)
  case mbwrite => exact hraises (exec_mbwrite_ofNat hops i) ((h.mbwrite hst hrole hidle f).bind _)
  case txquick => exact hraises (exec_txquick_some hops) ((h.txquickScan hst f hi hbefore).bind _)
  case tx => exact hraises (exec_tx_some hops) ((h.transmit hst hi hbefore f).bind _)
  case rx => exact hraises exec_rx ((h.receive hst (firstFlagged_eq_some hi hflag hbefore)).bind _)
end

section
/-! 42_mailbox_store.md R145 to R148, 44_receive_scanner.md R200: MBWRITE, MBREAD, MBPEEK, MBINACT and RX with a peripheral that
takes no step. What each piece of pseudocode comes to is said by the laws of quiet runs; here its end is put into the words of the
statements: the turns used up are dropped from the schedule, and the hidden effects of a CS write are read off the code written. -/

namespace Sys2Proof.Machine

/-! ### A quiet schedule after some turns -/

section
variable {s : State} (hq : s.quiet)
include hq

theorem drop_of_quiet (k : Nat) : List.replicate (s.schedule.length - k) [] = s.schedule.drop k := by
  rw [← List.drop_replicate, ← (quiet_iff s).mp hq]

theorem quiet_drop (k : Nat) : ∀ es ∈ s.schedule.drop k, es = [] := fun es hes => hq es (List.mem_of_mem_drop hes)

end

/-! ### The end of an operation -/

section
variable {body : State → Res Value} {s u : State}

theorem issue_of_ok {v : Value} (hb : s.block = .idle) (h : body s.started = .ok v u) :
    issue body s = .next (u.finished (.ok v)) := by
  rw [issue_idle _ hb, h, finish_ok]

theorem issue_of_err {e : Err} (hb : s.block = .idle) (h : body s.started = .err e u) :
    issue body s = .next (u.finished (.err e)) := by
  rw [issue_idle _ hb, h, finish_err]

theorem issue_of_wait {p : SpinPos} (hb : s.block = .idle) (h : body s.started = .wait p u) :
    issue body s = .next (u.suspended p) := by
  rw [issue_idle _ hb, h, finish_wait]

end

/-! ### MBREAD and MBPEEK -/

/-- The state after MBREAD of a mailbox `i` that is not busy, with a peripheral that takes no step (42_mailbox_store.md R146). -/
def State.afterMbread (s : State) (i : Fin 16) : State :=
  { s with
    iflag := s.iflag &&& ~~~(1#32 <<< i.val)
    lockedMb := none
    timer := Config.freeTimer s.draws
    draws := s.draws + 1
    schedule := s.schedule.drop 6
    accesses := s.accesses ++ readLog s.draws i (s.mb.get i) }

/-- What mailbox `i` holds, read as a header with the buffer state `st` and a frame (42_mailbox_store.md R144). -/
def State.message (s : State) (i : Fin 16) (st : BufferState) : Header × Frame :=
  unpack (s.mb.get i).cs st (s.mb.get i).idw (s.mb.get i).d0 (s.mb.get i).d1

section
variable {s : State} {i : Fin 16} {st : BufferState} (hp : s.params.accessPermitted = true) (hq : s.quiet)
include hp hq

theorem readFrom_idle (c : ReadCaller) (n : Nat) (hst : s.stateAt i = some st) (hidle : st.isBusy = false) :
    readFrom c i n s = .ok (s.message i st) (s.afterMbread i) := by
  rw [readFrom_quiet c i n st hp ((quiet_iff s).mp hq) hst hidle, drop_of_quiet hq]
  rfl

/-- RX with its first flag at mailbox `i` is one flag read and MBREAD of that mailbox (44_receive_scanner.md R200). -/
theorem receive_idle (hflag : firstFlagged s.iflag = some i) (hst : s.stateAt i = some st) (hidle : st.isBusy = false) :
    receive s = .ok (s.message i st) (State.afterMbread
      { s with schedule := s.schedule.tail, accesses := s.accesses ++ [.read .iflag1 s.iflag] } i) := by
  rw [receive, readReg_eq _ hp, gap_quiet hq, doRead_iflag1, Res.bind_ok]
  dsimp only
  rw [hflag]
  exact readFrom_idle (by exact hp) (by exact quiet_tail hq) _ _ hst hidle

end

/-- A spin does not time out at its first re-read where the bound, if any, is larger. -/
theorem spinExpired_one {p : Config.Params} (h : ∀ b, p.spinBound = some b → 1 < b) : spinExpired p 1 = false := by
  unfold spinExpired
  split
  · rfl
  · next b hb => simpa using h b hb

/-! ### The hidden effects of a CS write (48_peripheral_agent.md R227) -/

theorem encodeState_eq_iff {p : BitVec 4} {st : BufferState} (h : decodeState p = some st) (st' : BufferState) :
    encodeState st' = p ↔ st' = st := by
  refine ⟨fun he => ?_, fun he => he ▸ encodeState_of_decodeState h⟩
  rw [← he, decodeState_encodeState] at h
  exact Option.some.inj h

@[simp] theorem State.started_codeAt (s : State) (i : Fin 16) : s.started.codeAt i = s.codeAt i := rfl
@[simp] theorem State.started_mode (s : State) : s.started.mode = s.mode := rfl

theorem csWriteHidden_abortReq (i : Fin 16) (v : Word) (s : State) : (csWriteHidden i v s).abortReq =
    put s.abortReq i (decide (codeOf v = 0b1001#4) && (decide (s.codeAt i = 0b1100#4) || s.abortReq.get i)) := rfl

theorem csWriteHidden_lateTx (i : Fin 16) (v : Word) (s : State) : (csWriteHidden i v s).lateTx =
    if s.mode = .running ∧ (s.codeAt i = 0b1100#4 ∨ s.abortReq.get i = true) ∧ codeOf v ≠ 0b1100#4 ∧ codeOf v ≠ 0b1001#4
    then put s.lateTx i true else s.lateTx := by
  simp [csWriteHidden, State.running, and_assoc]

/-- A mailbox that MBWRITE may write holds no pending frame. -/
theorem not_pending_of_writable {c : BitVec 4} {st : BufferState} (h : decodeState c = some st) (hw : writable st = true) :
    c ≠ 0b1100#4 := by
  rintro rfl
  obtain rfl := Option.some.inj h
  exact absurd hw (by decide)

theorem writable_iff (st : BufferState) :
    writable st = true ↔ st = .tx .inactive ∨ st = .tx .abort ∨ st = .rx .inactive false := by
  simp [writable, or_assoc]

/-- The CS word MBINACT writes (42_mailbox_store.md R148): bit 27 is set over a transmit code, which remote answers of receive
mailboxes and reserved codes are not. -/
theorem inactiveCs_eq (cs : Word) : inactiveCs cs =
    if codeOf cs = 0b1000#4 ∨ codeOf cs = 0b1001#4 ∨ codeOf cs = 0b1100#4 ∨ codeOf cs = 0b1110#4
    then 0x08000000 else 0x00000000 := by
  unfold inactiveCs
  generalize codeOf cs = c
  revert c
  decide

/-- MBINACT's word is an inactive mailbox's: neither pending nor aborted. -/
theorem codeOf_inactiveCs_ne (cs : Word) : codeOf (inactiveCs cs) ≠ 0b1100#4 ∧ codeOf (inactiveCs cs) ≠ 0b1001#4 := by
  rw [codeOf_inactiveCs]
  split <;> decide

end Sys2Proof.Machine

open Sys2Proof Sys2Proof.Machine

/-- Settles O29: the law of MBREAD in a quiet run, put through the beginning and the end of the operation. -/
theorem mbreadCompletes : Obligations.MbreadCompletes := by
  rintro s i st ⟨hb, hp⟩ hq hst hidle m msg
  rw [exec_mbread_ofNat, issue_of_ok hb (by rw [returnMessage, readFrom_idle (s := s.started) hp hq _ _ hst hidle, Res.bind_ok]),
    State.finished, ← hb]
  rfl

/-- Settles O31: the law of MBPEEK in a quiet run, put through the beginning and the end of the operation. -/
theorem mbpeekCompletes : Obligations.MbpeekCompletes := by
  rintro s i st ⟨hb, hp⟩ hq hst m msg
  rw [exec_mbpeek_ofNat, issue_of_ok hb
    (by rw [returnMessage, mbpeek_quiet (s := s.started) i st hp ((quiet_iff s).mp hq) hst, Res.bind_ok]),
    State.finished, ← hb, drop_of_quiet hq]
  rfl

/-- Settles O30: a busy re-read leaves MBREAD in its spin, and a re-read that is not busy ends it as MBREAD from its start. -/
theorem mbreadSpinsWhileBusy : Obligations.MbreadSpinsWhileBusy := by
  constructor
  · rintro s i st ⟨hb, hp⟩ hq hst hbusy hbound
    rw [exec_mbread_ofNat, issue_of_wait hb (by rw [returnMessage, readFrom_busy (s := s.started) _ i 0 st hp
      ((quiet_iff s).mp hq) hst hbusy (spinExpired_one hbound), Res.bind_wait]), State.suspended, drop_of_quiet hq]
    rfl
  · intro s i n st hb hp hq hst hidle m msg
    rw [step_spinning hb, resume, resumeFrom, returnMessage, readFrom_idle hp hq _ _ hst hidle, Res.bind_ok, finish_ok]
    rfl

/-- Settles O43: RX is one flag read and MBREAD, and its spin is MBREAD's. -/
theorem rxCompletes : Obligations.RxCompletes := by
  constructor
  · rintro s i st ⟨hb, hp⟩ hq hi hflag hbefore hst hidle m
    have hfirst := firstFlagged_eq_some hi hflag hbefore
    rw [exec_rx, issue_of_ok hb (by rw [returnFrame, receive_idle (s := s.started) hp hq hfirst hst hidle, Res.bind_ok]),
      State.finished, ← hb, State.afterMbread, List.drop_tail]
    rfl
  · intro s i n st hb hp hq hst hidle m
    rw [step_spinning hb, resume, resumeFrom, returnFrame, readFrom_idle hp hq _ _ hst hidle, Res.bind_ok, finish_ok]
    rfl

/-- Settles O32: the law of MBINACT in a quiet run, with the word it writes and the hidden effects of an inactive code. -/
theorem mbinactCompletes : Obligations.MbinactCompletes := by
  rintro s i ⟨hb, hp⟩ hq m v
  have hv : inactiveCs m.cs = v := inactiveCs_eq m.cs
  obtain ⟨hpending, habort⟩ := codeOf_inactiveCs_ne m.cs
  rw [exec_mbinact_ofNat, issue_of_ok hb
    (by rw [returnUnit, mbinact_quiet (s := s.started) i hp ((quiet_iff s).mp hq), Res.bind_ok]),
    State.finished, ← hb, drop_of_quiet hq, csWriteHidden_abortReq, csWriteHidden_lateTx]
  simp [m, hpending, habort, ← hv]

/-- Settles O27: the law of MBWRITE in a quiet run, with the hidden effects of the header's code on a mailbox that holds no pending
frame. -/
theorem mbwriteCompletes : Obligations.MbwriteCompletes := by
  rintro s i hdr f cur ⟨hb, hp⟩ hq hops hrole hidle hst hcur
  have hw : writable cur = true := (writable_iff cur).mpr hcur
  have hfree : s.codeAt i ≠ 0b1100#4 := not_pending_of_writable hst hw
  have hAbort := encodeState_eq_iff (p := 0b1001#4) (st := .tx .abort) rfl hdr.code
  have hPending := encodeState_eq_iff (p := 0b1100#4) (st := .tx .dataRemote) rfl hdr.code
  rw [exec_mbwrite_ofNat hops, issue_of_ok hb (by rw [returnUnit,
    mbwrite_quiet (s := s.started) i hdr f cur hp ((quiet_iff s).mp hq) hrole hidle hst hw, Res.bind_ok]),
    State.finished, ← hb, drop_of_quiet hq, csWriteHidden_abortReq, csWriteHidden_lateTx, codeOf_csWord]
  simp [hAbort, hPending, hfree, iflagWrite, flagMask]
end

section
/-! 42_mailbox_store.md R149, R151; 43_transmit_arbiter.md R182: MBWRITE and MBABORT that stop after their one CS read, whatever the
peripheral does before it, and TX's own abort, which stops there when the frame to evict was sent after TX's peeks. -/

namespace Sys2Proof.Machine

/-! ### One CS read of a state -/

/-- The state after the peripheral's turn and one CS read of mailbox `i`. -/
def State.afterCsRead (s : State) (i : Fin 16) : State :=
  { gap s with lockedMb := some i, accesses := s.accesses ++ [.read (.mb i 0) ((gap s).mb.get i).cs] }

theorem readCs_eq {s : State} (hp : s.params.accessPermitted = true) (i : Fin 16) :
    readReg (.mb i 0) s = .ok ((gap s).mb.get i).cs (s.afterCsRead i) := by
  rw [readReg_eq _ hp, doRead_cs, State.logged, State.afterCsRead, gap_accesses]

/-- An operation that raises right after its first access, a CS read. -/
theorem issue_of_csRead_err {s : State} (hb : s.block = .idle) {i : Fin 16} {e : Err} {body : State → Res Value}
    (h : body s.started = .err e (s.started.afterCsRead i)) :
    issue body s = .next
      { gap s with lockedMb := some i, accesses := [.read (.mb i 0) ((gap s).mb.get i).cs], result := some (.err e) } := by
  rw [issue_of_err hb h, State.afterCsRead, gap_started, State.finished, ← hb, ← gap_block s]
  rfl

theorem gap_started_codeAt (s : State) (i : Fin 16) : (gap s.started).codeAt i = (gap s).codeAt i := by
  rw [gap_started, State.started_codeAt]

theorem gap_started_stateAt (s : State) (i : Fin 16) : (gap s.started).stateAt i = (gap s).stateAt i := by
  rw [State.stateAt, gap_started_codeAt, State.stateAt]

section
variable {s : State} (hp : s.params.accessPermitted = true) {i : Fin 16}
include hp

/-- A CS read whose code decodes goes on with the buffer state. -/
theorem bind_readCs_some {α : Type} {st : BufferState} (hst : (gap s).stateAt i = some st)
    (k : Word → BufferState → State → Res α) :
    ((readReg (.mb i 0) s).bind fun cs s => (decodeOrRaise (codeOf cs) s).bind fun st s => k cs st s) =
      k ((gap s).mb.get i).cs st (s.afterCsRead i) := by
  have hcode : decodeState (codeOf ((gap s).mb.get i).cs) = some st := hst
  rw [readCs_eq hp, Res.bind_ok, decodeOrRaise_some hcode, Res.bind_ok]

/-- A CS read of a reserved code raises. -/
theorem bind_readCs_none {α : Type} (hst : (gap s).stateAt i = none) (k : Word → BufferState → State → Res α) :
    ((readReg (.mb i 0) s).bind fun cs s => (decodeOrRaise (codeOf cs) s).bind fun st s => k cs st s) =
      .err (.decodeError ((gap s).codeAt i)) (s.afterCsRead i) := by
  have hcode : decodeState (codeOf ((gap s).mb.get i).cs) = none := hst
  rw [readCs_eq hp, Res.bind_ok, decodeOrRaise_none hcode, Res.bind_err]
  rfl

theorem mbwrite_refused {hdr : Header} (hrole : hdr.code.role = roleOfIndex i) (hidle : hdr.code.isBusy = false) (f : Frame)
    {cur : BufferState} (hcur : (gap s).stateAt i = some cur) (hw : writable cur = false) :
    mbwrite i hdr f s = .err (.busyMailboxWriteAttempted i) (s.afterCsRead i) := by
  rw [mbwrite, if_neg (by simp [hrole, hidle]), bind_readCs_some hp hcur, hw]
  rfl

theorem mbwrite_reserved {hdr : Header} (hrole : hdr.code.role = roleOfIndex i) (hidle : hdr.code.isBusy = false) (f : Frame)
    (hcur : (gap s).stateAt i = none) : mbwrite i hdr f s = .err (.decodeError ((gap s).codeAt i)) (s.afterCsRead i) := by
  rw [mbwrite, if_neg (by simp [hrole, hidle]), bind_readCs_none hp hcur]

theorem mbabort_invalid (c : AbortCaller) {st : BufferState} (hst : (gap s).stateAt i = some st)
    (hne : st ≠ .tx .dataRemote) : mbabort c i s = .err (.invalidAbort st) (s.afterCsRead i) := by
  rw [mbabort, bind_readCs_some hp hst, if_pos hne, raise_eq]

theorem mbabort_reserved (c : AbortCaller) (hst : (gap s).stateAt i = none) :
    mbabort c i s = .err (.decodeError ((gap s).codeAt i)) (s.afterCsRead i) := by
  rw [mbabort, bind_readCs_none hp hst]

end

/-! ### A peripheral that takes no step for some turns only -/

/-- A turn with one step, which is enabled. -/
theorem gap_single {s : State} {e : Event} {rest : List (List Event)} (hs : s.schedule = [e] :: rest)
    (hen : enabled e { s with schedule := rest } = true) : gap s = effect e { s with schedule := rest } := by
  simp [gap, hs, takeEvent, hen]

/-- A pending mailbox may be sent while Running, where the peripheral may send any (48_peripheral_agent.md R212, R213). -/
theorem enabled_txComplete {s : State} {i : Fin 16} (hrun : s.mode = .running) (hpend : s.codeAt i = 0b1100#4)
    (horder : s.params.hwTxOrder = .any) (ts : BitVec 16) : enabled (.txComplete i ts) s = true := by
  simp [enabled, State.running, hrun, hpend, State.orderAllows, horder]

/-- MBPEEK of a decodable mailbox at whose five accesses the peripheral takes no step, whatever it does after them. -/
theorem mbpeek_turns {i : Fin 16} {st : BufferState} {s : State} {rest : List (List Event)}
    (hp : s.params.accessPermitted = true) (hs : s.schedule = List.replicate 5 [] ++ rest) (hst : s.stateAt i = some st) :
    mbpeek i s = .ok (s.message i st)
      { s with lockedMb := none, timer := Config.freeTimer s.draws, draws := s.draws + 1, schedule := rest,
               accesses := s.accesses ++ peekLog s.draws i (s.mb.get i) } := by
  have hst' : decodeState (codeOf (s.mb.get i).cs) = some st := hst
  have hs' : s.schedule = [] :: [] :: [] :: [] :: [] :: rest := hs
  simp [mbpeek, unlock, readReg_eq, gap_empty, hp, hs', State.logged, State.drawTimer, decodeOrRaise, hst', peekLog, timerLog,
    State.message]

/-- An entry of a snapshot, by the mailbox it is of. -/
def snapshotEntry (s : State) (i : Fin 16) : Fin 16 × Header × Frame := (i, s.message i ((s.stateAt i).getD (.tx .inactive)))

theorem snapshotOf_eq (s : State) (l : List (Fin 16)) : snapshotOf s l = l.map (snapshotEntry s) := rfl

theorem snapshotAccesses_congr {s t : State} (h : t.mb = s.mb) (n : Nat) (l : List (Fin 16)) :
    snapshotAccesses t n l = snapshotAccesses s n l := by
  induction l generalizing n with
  | nil => rfl
  | cons i l ih => rw [snapshotAccesses, snapshotAccesses, h, ih]

/-- The timer after a draw and `k` more. -/
theorem timerAfter_succ {s t : State} (htimer : t.timer = Config.freeTimer s.draws) (hdraws : t.draws = s.draws + 1) (k : Nat) :
    timerAfter t k = timerAfter s (k + 1) := by
  cases k with
  | zero => simp [timerAfter, htimer]
  | succ k => simp [timerAfter, hdraws, show s.draws + 1 + (k + 1) - 1 = s.draws + (k + 1) by omega]

/-- TX's snapshot of decodable mailboxes, the peripheral taking no step during it (43_transmit_arbiter.md R182). -/
theorem peekAll_turns (l : List (Fin 16)) {s : State} {rest : List (List Event)} (hp : s.params.accessPermitted = true)
    (hs : s.schedule = List.replicate (5 * l.length) [] ++ rest) (hst : ∀ i ∈ l, s.stateAt i ≠ none) :
    peekAll l s = .ok (snapshotOf s l)
      { s with
        lockedMb := if l = [] then s.lockedMb else none
        timer := timerAfter s l.length
        draws := s.draws + l.length
        schedule := rest
        accesses := s.accesses ++ snapshotAccesses s s.draws l } := by
  induction l generalizing s with
  | nil => cases s; simp_all [peekAll, snapshotOf, snapshotAccesses, timerAfter]
  | cons i l ih =>
    obtain ⟨st, hi⟩ := Option.ne_none_iff_exists'.mp (hst i (by simp))
    have hturns : s.schedule = List.replicate 5 [] ++ (List.replicate (5 * l.length) [] ++ rest) := by
      rw [hs, ← List.append_assoc, List.replicate_append_replicate, List.length_cons]
      congr 2
      omega
    rw [peekAll, mbpeek_turns hp hturns hi, Res.bind_ok, ih (by exact hp) (by rfl), Res.bind_ok,
      snapshotAccesses_congr (s := s) (by rfl)]
    · have hentry : snapshotOf s (i :: l) = (i, s.message i st) :: snapshotOf s l := by
        rw [snapshotOf_eq, List.map_cons, snapshotEntry, hi]
        rfl
      have hdraws : s.draws + 1 + l.length = s.draws + (l.length + 1) := by omega
      rw [hentry, timerAfter_succ (s := s) rfl rfl]
      simp [snapshotAccesses, hdraws, snapshotOf, State.stateAt, State.codeAt]
    · exact fun j hj => hst j (by simp [hj])

/-! ### TX's decision on its snapshot (43_transmit_arbiter.md R182 to R184) -/

theorem stateAt_of_pending {s : State} {i : Fin 16} (h : s.codeAt i = 0b1100#4) : s.stateAt i = some (.tx .dataRemote) := by
  rw [State.stateAt, h]
  rfl

theorem snapshotEntry_code (s : State) (i : Fin 16) :
    (snapshotEntry s i).2.1.code = (s.stateAt i).getD (.tx .inactive) := rfl

theorem snapshotEntry_pending_iff (s : State) (j : Fin 16) :
    (snapshotEntry s j).2.1.code = .tx .dataRemote ↔ s.codeAt j = 0b1100#4 := by
  rw [snapshotEntry_code]
  refine ⟨fun h => ?_, fun h => by rw [stateAt_of_pending h]; rfl⟩
  cases hst : s.stateAt j with
  | none => rw [hst] at h; cases h
  | some st =>
    rw [hst] at h
    cases h
    exact (encodeState_of_decodeState hst).symm

section
variable {s : State} {j w : Fin 16}

/-- A mailbox that is not pending is passed over in the scan for the worst one. -/
theorem worsePending_of_not_pending (h : s.codeAt j ≠ 0b1100#4) (acc : Option (Fin 16 × Frame)) :
    worsePending acc (snapshotEntry s j) = acc :=
  if_neg (mt (snapshotEntry_pending_iff s j).mp h)

/-- A pending mailbox replaces one with a smaller frame. -/
theorem worsePending_of_lt (h : s.codeAt j = 0b1100#4) {acc : Option (Fin 16 × Frame)}
    (hacc : ∀ m ∈ acc, m.2.id.num < (s.heldFrame j).id.num) :
    worsePending acc (snapshotEntry s j) = some (j, s.heldFrame j) := by
  have hcode := (snapshotEntry_pending_iff s j).mpr h
  cases acc with
  | none => exact if_pos hcode
  | some m => exact (if_pos hcode).trans (if_pos (hacc m rfl))

/-- A pending mailbox is passed over after one with a frame as large. -/
theorem worsePending_of_le (h : s.codeAt j = 0b1100#4) {f : Frame} (hle : (s.heldFrame j).id.num ≤ f.id.num) :
    worsePending (some (w, f)) (snapshotEntry s j) = some (w, f) :=
  (if_pos ((snapshotEntry_pending_iff s j).mpr h)).trans (if_neg (Nat.not_lt.mpr hle))

/-- What the scan holds after an entry it held before, or it is that entry's. -/
theorem mem_worsePending {acc : Option (Fin 16 × Frame)} {m : Fin 16 × Frame}
    (hm : m ∈ worsePending acc (snapshotEntry s j)) : m ∈ acc ∨ (s.codeAt j = 0b1100#4 ∧ m = (j, s.heldFrame j)) := by
  by_cases h : s.codeAt j = 0b1100#4
  · by_cases hacc : ∀ m ∈ acc, m.2.id.num < (s.heldFrame j).id.num
    · rw [worsePending_of_lt h hacc] at hm
      exact .inr ⟨h, (Option.some.inj hm).symm⟩
    · push Not at hacc
      obtain ⟨m', rfl, hle⟩ := hacc
      rw [worsePending_of_le h hle] at hm
      exact .inl hm
  · rw [worsePending_of_not_pending h] at hm
    exact .inl hm

end

section
variable {s : State} {w : Fin 16} {f : Frame} (h : EvictionTarget s w f)
include h

theorem EvictionTarget.stateAt_ne_none : ∀ j ∈ txIdx, s.stateAt j ≠ none := by
  have hlt : ∀ j ∈ txIdx, j.val < 8 := by decide
  intro j hj
  obtain ⟨st, hst, -⟩ := h.none_inactive j (hlt j hj)
  simp [hst]

/-- No mailbox of the snapshot is free. -/
theorem EvictionTarget.firstInactive : firstInactive (snapshotOf s txIdx) = none := by
  have hlt : ∀ j ∈ txIdx, j.val < 8 := by decide
  rw [Machine.firstInactive, Option.map_eq_none_iff, List.find?_eq_none, snapshotOf_eq, List.forall_mem_map]
  intro j hj
  obtain ⟨st, hst, hne⟩ := h.none_inactive j (hlt j hj)
  simpa [snapshotEntry_code, hst] using hne

/-- The scan finds the target: every pending frame before it is smaller, and none after it is larger. -/
theorem EvictionTarget.worstPending : worstPending (snapshotOf s txIdx) = some (w, s.heldFrame w) := by
  have hlt : ∀ j ∈ txIdx, j.val < 8 := by decide
  obtain ⟨before, after, hsplit, hbefore⟩ := txIdx_split h.transmit
  have hsmaller : ∀ m : Fin 16 × Frame, m ∈ (before.map (snapshotEntry s)).foldl worsePending none →
      m.2.id.num < (s.heldFrame w).id.num := by
    refine List.foldlRecOn (motive := fun acc => ∀ m : Fin 16 × Frame, m ∈ acc → m.2.id.num < (s.heldFrame w).id.num) _ _
      (by simp) fun acc hacc _ hentry m hm => ?_
    obtain ⟨j, hj, rfl⟩ := List.mem_map.mp hentry
    rcases mem_worsePending hm with hold | ⟨hpend, rfl⟩
    · exact hacc m hold
    · exact h.lowest j (hbefore j hj) hpend
  have hkept : ∀ acc, acc = some (w, s.heldFrame w) →
      (after.map (snapshotEntry s)).foldl worsePending acc = some (w, s.heldFrame w) := by
    intro acc hacc
    refine List.foldlRecOn (motive := fun acc => acc = some (w, s.heldFrame w)) _ _ hacc ?_
    rintro _ rfl _ hm
    obtain ⟨j, hj, rfl⟩ := List.mem_map.mp hm
    by_cases hpend : s.codeAt j = 0b1100#4
    · exact worsePending_of_le hpend (h.largest j (hlt j (by simp [hsplit, hj])) hpend)
    · exact worsePending_of_not_pending hpend _
  rw [Machine.worstPending, snapshotOf_eq, hsplit, List.map_append, List.foldl_append, List.map_cons, List.foldl_cons,
    worsePending_of_lt h.pending hsmaller, hkept _ rfl]

end

theorem EvictionTarget.started {s : State} {w : Fin 16} {f : Frame} (h : EvictionTarget s w f) : EvictionTarget s.started w f :=
  ⟨h.transmit, h.none_inactive, h.pending, h.largest, h.lowest, h.smaller⟩

/-- The CS word of a mailbox that held `cs` once its frame is sent (48_peripheral_agent.md R212, R214). -/
def sentCs (cs : Word) (ts : BitVec 16) : Word := withTimestamp (withCode cs 0b1000) ts

@[simp] theorem codeOf_sentCs (cs : Word) (ts : BitVec 16) : codeOf (sentCs cs ts) = 0b1000#4 := by
  simp [sentCs]

/-- The turn in which the peripheral sends a pending mailbox (48_peripheral_agent.md R212). -/
theorem gap_txComplete {s : State} {i : Fin 16} {ts : BitVec 16} {rest : List (List Event)}
    (hs : s.schedule = [.txComplete i ts] :: rest) (hrun : s.mode = .running) (hpend : s.codeAt i = 0b1100#4)
    (horder : s.params.hwTxOrder = .any) :
    gap s = { s with
      mb := put s.mb i { s.mb.get i with cs := sentCs (s.mb.get i).cs ts }
      iflag := raiseFlag s.iflag i
      schedule := rest } := by
  rw [gap_single hs (enabled_txComplete hrun hpend horder ts)]
  rfl

/-- An abort whose mailbox the peripheral sends just before the code read ends there: the code is Tx(Inactive). -/
theorem mbabort_sent (c : AbortCaller) {s : State} {i : Fin 16} {ts : BitVec 16} {rest : List (List Event)}
    (hp : s.params.accessPermitted = true) (hs : s.schedule = [.txComplete i ts] :: rest) (hrun : s.mode = .running)
    (hpend : s.codeAt i = 0b1100#4) (horder : s.params.hwTxOrder = .any) :
    mbabort c i s = .err (.invalidAbort (.tx .inactive))
      { s with
        mb := put s.mb i { s.mb.get i with cs := sentCs (s.mb.get i).cs ts }
        iflag := s.iflag ||| 1#32 <<< i.val
        lockedMb := some i
        schedule := rest
        accesses := s.accesses ++ [.read (.mb i 0) (sentCs (s.mb.get i).cs ts)] } := by
  have hgap := gap_txComplete hs hrun hpend horder
  have hst : (gap s).stateAt i = some (.tx .inactive) := by
    rw [hgap]
    simp [State.stateAt, State.codeAt, decodeState]
  rw [mbabort_invalid hp _ hst (by decide), State.afterCsRead, hgap]
  simp [raiseFlag, flagMask]

/-- The state after TX's eight peeks, `rest` being what is left of the schedule. -/
def State.afterSnapshot (s : State) (rest : List (List Event)) : State :=
  { s with lockedMb := none, timer := Config.freeTimer (s.draws + 7), draws := s.draws + 8, schedule := rest,
           accesses := s.accesses ++ snapshotLog s }

/-- TX of a frame that evicts mailbox `w` is its eight peeks and its abort of `w` (43_transmit_arbiter.md R182). -/
theorem transmit_evicts {s : State} {w : Fin 16} {f : Frame} {rest : List (List Event)} (hp : s.params.accessPermitted = true)
    (hs : s.schedule = List.replicate 40 [] ++ rest) (h : EvictionTarget s w f) :
    transmit f s = installAfterAbort f w (mbabort (.tx f) w (s.afterSnapshot rest)) := by
  have hlog : snapshotAccesses s s.draws txIdx = snapshotLog s := by simp [snapshotAccesses, snapshotLog, txIdx]
  rw [transmit, peekAll_turns txIdx hp hs h.stateAt_ne_none, Res.bind_ok, hlog, txDecide, h.firstInactive]
  dsimp only
  rw [h.worstPending]
  exact if_pos h.smaller

end Sys2Proof.Machine

open Sys2Proof Sys2Proof.Machine

/-- Settles O28: MBWRITE decodes what its one CS read finds, and goes on to its writes only on a writable mailbox. -/
theorem mbwriteRefusalMutatesNothing : Obligations.MbwriteRefusalMutatesNothing := by
  rintro s i hdr f ⟨hb, hp⟩ hops hrole hidle g cs ends
  have hends : ∀ {e : Err}, mbwrite i hdr f s.started = .err e (s.started.afterCsRead i) → ends e := fun he =>
    (exec_mbwrite_ofNat hops i).trans (issue_of_csRead_err hb (by rw [returnUnit, he, Res.bind_err]))
  refine ⟨fun cur hcur hw => hends ?_, fun hcur => hends ?_⟩
  · exact mbwrite_refused (s := s.started) hp hrole hidle f ((gap_started_stateAt s i).trans hcur)
      (Bool.eq_false_iff.mpr (mt (writable_iff cur).mp hw))
  · rw [mbwrite_reserved (s := s.started) hp hrole hidle f ((gap_started_stateAt s i).trans hcur), gap_started_codeAt]
    rfl

/-- Settles O34: MBABORT and TX's own abort decode what the first CS read of the abort finds, and go on only on a pending
mailbox. -/
theorem mbabortChecksTheCode : Obligations.MbabortChecksTheCode := by
  constructor
  · rintro s i ⟨hb, hp⟩ g cs ends
    have hends : ∀ {e : Err}, mbabort .mbabort i s.started = .err e (s.started.afterCsRead i) → ends e := fun he =>
      (exec_mbabort_ofNat i s).trans (issue_of_csRead_err hb (by rw [returnMaybeFrame, he, Res.bind_err]))
    refine ⟨fun st hst hne => hends ?_, fun hst => hends ?_⟩
    · exact mbabort_invalid (s := s.started) hp _ ((gap_started_stateAt s i).trans hst) hne
    · rw [mbabort_reserved (s := s.started) hp _ ((gap_started_stateAt s i).trans hst), gap_started_codeAt]
      rfl
  · rintro s f w ts rest ⟨hb, hp⟩ hrun hops htarget horder hs sent
    have habort := mbabort_sent (.tx f) (s := s.started.afterSnapshot ([.txComplete w ts] :: rest)) hp rfl hrun
      htarget.pending horder
    rw [exec_tx_some hops, issue_of_err hb (by rw [returnMaybeFrame, transmit_evicts (s := s.started) hp hs htarget.started,
      habort, installAfterAbort, Res.bind_err, Res.bind_err]), State.finished, ← hb]
    rfl
end

section
/-! 42_mailbox_store.md R149 with 48_peripheral_agent.md R214: MBABORT of a pending mailbox up to the peripheral's answer, and from
the answer on. The frame it returns is the one the mailbox held, since neither the codes written meanwhile nor the timestamp of a
transmission are read as parts of a frame (42_mailbox_store.md R144, R150). -/

namespace Sys2Proof.Machine

/-! ### What `unpack` reads of a CS word -/

/-- Two CS words agree in what a frame is read from: DLC, RTR and IDE, bits 16 to 21 (10_state.md R24). -/
def SameFrameBits (cs cs' : Word) : Prop := ∀ k, 16 ≤ k → k < 22 → cs'.getLsbD k = cs.getLsbD k

theorem SameFrameBits.trans {a b c : Word} (h : SameFrameBits a b) (h' : SameFrameBits b c) : SameFrameBits a c :=
  fun k h1 h2 => (h' k h1 h2).trans (h k h1 h2)

theorem sameFrameBits_withCode (cs : Word) (p : BitVec 4) : SameFrameBits cs (withCode cs p) := fun k _ _ => by
  rw [getLsbD_withCode, if_neg (by omega)]

theorem sameFrameBits_withTimestamp (cs : Word) (ts : BitVec 16) : SameFrameBits cs (withTimestamp cs ts) := fun k _ _ => by
  rw [getLsbD_withTimestamp, if_neg (by omega)]

section
variable {cs cs' : Word} (h : SameFrameBits cs cs')
include h

theorem SameFrameBits.payloadLength : payloadLength cs' = payloadLength cs := by
  have hdlc : cs'.extractLsb' 16 4 = cs.extractLsb' 16 4 := by
    apply BitVec.eq_of_getLsbD_eq
    intro k hk
    simp [hk, h (16 + k) (by omega) (by omega)]
  rw [Machine.payloadLength, hdlc, Machine.payloadLength]

theorem SameFrameBits.identOf (idw : Word) : identOf cs' idw = identOf cs idw := by
  rw [Machine.identOf, h 21 (by decide) (by decide), Machine.identOf]

/-- The frame is read from those bits and the other words. -/
theorem SameFrameBits.unpack_frame (st st' : BufferState) (idw w2 w3 : Word) :
    (unpack cs' st' idw w2 w3).2 = (unpack cs st idw w2 w3).2 := by
  simp only [unpack, h 20 (by decide) (by decide), h.identOf, h.payloadLength]

end

/-- A mailbox whose CS word alone has changed, but in none of those bits, holds the frame it held. -/
theorem State.heldFrame_of_sameFrameBits {s t : State} {i : Fin 16} {cs : Word} (ht : t.mb.get i = { s.mb.get i with cs := cs })
    (h : SameFrameBits (s.mb.get i).cs cs) : t.heldFrame i = s.heldFrame i := by
  rw [State.heldFrame, ht]
  exact h.unpack_frame _ _ _ _ _

/-- Of two codes written one after the other the last one stands. -/
theorem withCode_withCode (cs : Word) (p q : BitVec 4) : withCode (withCode cs p) q = withCode cs q := by
  apply BitVec.eq_of_getLsbD_eq
  intro k hk
  simp only [getLsbD_withCode]
  split_ifs <;> rfl

theorem sentCs_withCode (cs : Word) (p : BitVec 4) (ts : BitVec 16) : sentCs (withCode cs p) ts = sentCs cs ts := by
  rw [sentCs, withCode_withCode, sentCs]

/-! ### A flag cleared and raised -/

theorem raiseFlag_clear (f : Word) (i : Fin 16) : raiseFlag (f &&& ~~~(1#32 <<< i.val)) i = f ||| 1#32 <<< i.val := by
  apply BitVec.eq_of_getLsbD_eq
  intro k hk
  simp only [raiseFlag, flagMask, BitVec.getLsbD_or, BitVec.getLsbD_and, BitVec.getLsbD_not, hk]
  cases f.getLsbD k <;> cases (1#32 <<< i.val).getLsbD k <;> rfl

theorem clear_raised (f : Word) (i : Fin 16) : (f ||| 1#32 <<< i.val) &&& ~~~(1#32 <<< i.val) = f &&& ~~~(1#32 <<< i.val) := by
  apply BitVec.eq_of_getLsbD_eq
  intro k hk
  simp only [BitVec.getLsbD_or, BitVec.getLsbD_and, BitVec.getLsbD_not, hk]
  cases f.getLsbD k <;> cases (1#32 <<< i.val).getLsbD k <;> rfl

theorem flagSet_cleared (f : Word) (i : Fin 16) : flagSet (f &&& ~~~(1#32 <<< i.val)) i = false := by
  simpa [iflagWrite, flagMask] using flagSet_iflagWrite f i i

/-! ### MBABORT's pseudocode -/

/-- The state after an abort's code read and flag clear, `rest` being what is left of the schedule. -/
def State.afterFlagClear (s : State) (i : Fin 16) (rest : List (List Event)) : State :=
  { s with
    iflag := s.iflag &&& ~~~(1#32 <<< i.val)
    lockedMb := some i
    schedule := rest
    accesses := s.accesses ++ [.read (.mb i 0) (s.mb.get i).cs, .write .iflag1 (flagMask i)] }

section
variable {s : State} {i : Fin 16} (hp : s.params.accessPermitted = true)
include hp

/-- MBABORT of a pending mailbox goes on to its Abort write (42_mailbox_store.md R149). -/
theorem mbabort_pending (c : AbortCaller) {rest : List (List Event)} (hs : s.schedule = [] :: [] :: rest)
    (hpend : s.codeAt i = 0b1100#4) :
    mbabort c i s = (writeReg (.mb i 0) (withCode (s.mb.get i).cs 0b1001) (s.afterFlagClear i rest)).bind
      fun _ s => abortFrom c i 0 s := by
  have hgap := gap_empty hs
  have hst : (gap s).stateAt i = some (.tx .dataRemote) := by
    rw [hgap]
    exact stateAt_of_pending hpend
  rw [mbabort, bind_readCs_some hp hst, if_neg (not_not.mpr rfl), State.afterCsRead, hgap, writeReg_eq _ _ (by exact hp),
    gap_empty (by rfl)]
  simp [State.logged, State.afterFlagClear, iflagWrite, flagMask]

/-- The flag spin that finds its flag goes on to the re-read. -/
theorem abortFrom_flagged (c : AbortCaller) (n : Nat) (hflag : flagSet (gap s).iflag i = true) :
    abortFrom c i n s = abortOutcome (readFrom (.abort c) i 0
      { gap s with accesses := s.accesses ++ [.read .iflag1 (gap s).iflag] }) := by
  rw [abortFrom, readReg_eq _ hp, doRead_iflag1, Res.bind_ok, if_pos hflag, gap_logged]

/-- Where the peripheral takes no further step and the mailbox is not busy, the abort ends in the re-read. -/
theorem abortFrom_answered (c : AbortCaller) (n : Nat) {st : BufferState} (hflag : flagSet (gap s).iflag i = true)
    (hq : (gap s).quiet) (hst : (gap s).stateAt i = some st) (hidle : st.isBusy = false) :
    abortFrom c i n s = abortOutcome (.ok ((gap s).message i st)
      (State.afterMbread { gap s with accesses := s.accesses ++ [.read .iflag1 (gap s).iflag] } i)) := by
  rw [abortFrom_flagged hp c n hflag]
  exact congrArg abortOutcome (readFrom_idle (by exact (gap_params s).symm ▸ hp) (by exact hq) _ _ (by exact hst) hidle)

end

/-! ### The Abort write (48_peripheral_agent.md R227) and the answer (R214) -/

/-- The state after the Abort write into mailbox `i`, `cs` being the word written; `asked` says whether that requests an abort. -/
def State.afterAbortWrite (s : State) (i : Fin 16) (cs : Word) (asked : Bool) : State :=
  { s with
    mb := put s.mb i { s.mb.get i with cs := cs }
    abortReq := put s.abortReq i asked
    rxStage := put s.rxStage i none
    accesses := s.accesses ++ [.write (.mb i 0) cs] }

theorem State.afterAbortWrite_codeAt (s : State) (i : Fin 16) (cs : Word) (asked : Bool) :
    (s.afterAbortWrite i cs asked).codeAt i = codeOf cs := by
  simp [State.codeAt, State.afterAbortWrite]

theorem State.afterAbortWrite_abortReq (s : State) (i : Fin 16) (cs : Word) (asked : Bool) :
    (s.afterAbortWrite i cs asked).abortReq.get i = asked := by
  simp [State.afterAbortWrite]

/-- An Abort write takes effect as an abort request if the mailbox is pending when it happens, or its abort is requested already. -/
theorem writeReg_abort {s : State} {i : Fin 16} (hp : s.params.accessPermitted = true) {cs : Word} (hcs : codeOf cs = 0b1001#4) :
    writeReg (.mb i 0) cs s =
      .ok () ((gap s).afterAbortWrite i cs ((gap s).codeAt i == 0b1100#4 || (gap s).abortReq.get i)) := by
  rw [writeReg_eq _ _ hp, doWrite_cs]
  simp [State.afterAbortWrite, State.logged, State.setCs, State.setMailbox, csWriteHidden, hcs]

/-- The peripheral's answer to an abort request (48_peripheral_agent.md R214). -/
theorem gap_abortResolve {s : State} {i : Fin 16} {sent : Bool} {ts : BitVec 16} {rest : List (List Event)}
    (hs : s.schedule = [.abortResolve i sent ts] :: rest) (hrun : s.mode = .running) (hcode : s.codeAt i = 0b1001#4)
    (hasked : s.abortReq.get i = true) :
    gap s = { s with
      mb := put s.mb i { s.mb.get i with cs := if sent then sentCs (s.mb.get i).cs ts else (s.mb.get i).cs }
      iflag := raiseFlag s.iflag i
      abortReq := put s.abortReq i false
      schedule := rest } := by
  have hen : enabled (.abortResolve i sent ts) s = true := by simp [enabled, State.running, hrun, hcode, hasked]
  rw [gap_single hs hen]
  cases sent with
  | true => rfl
  | false =>
    have hput : put s.mb i { s.mb.get i with cs := (s.mb.get i).cs } = s.mb := put_get _ _
    simp [effect, abortResolveEffect, State.flagRaised, hput]

/-- MBABORT of a pending mailbox is its flag spin once the Abort code is written; `u` is the state the Abort write finds. -/
theorem mbabort_to_flagSpin {s u : State} {i : Fin 16} (hp : s.params.accessPermitted = true) (c : AbortCaller)
    {rest : List (List Event)} (hs : s.schedule = [] :: [] :: rest) (hpend : s.codeAt i = 0b1100#4)
    (hu : gap (s.afterFlagClear i rest) = u) :
    mbabort c i s = abortFrom c i 0
      (u.afterAbortWrite i (withCode (s.mb.get i).cs 0b1001) (u.codeAt i == 0b1100#4 || u.abortReq.get i)) := by
  rw [mbabort_pending hp c hs hpend,
    writeReg_abort (cs := withCode (s.mb.get i).cs 0b1001) (by exact hp) (codeOf_withCode _ _), hu, Res.bind_ok]

/-- The flag spin of an abort whose request the peripheral answers before the first flag read: the frame held is returned if it
was not sent (42_mailbox_store.md R149, 48_peripheral_agent.md R214). -/
theorem abortFrom_resolved {s : State} {i : Fin 16} (hp : s.params.accessPermitted = true) (c : AbortCaller) (n : Nat)
    {sent : Bool} {ts : BitVec 16} {rest : List (List Event)} (hs : s.schedule = [.abortResolve i sent ts] :: rest)
    (hrest : ∀ es ∈ rest, es = []) (hrun : s.mode = .running) (hcode : s.codeAt i = 0b1001#4)
    (hasked : s.abortReq.get i = true) {cs : Word} (hcs : cs = if sent then sentCs (s.mb.get i).cs ts else (s.mb.get i).cs) :
    abortFrom c i n s = .ok (if sent then none else some (s.heldFrame i))
      { s with
        mb := put s.mb i { s.mb.get i with cs := cs }
        iflag := raiseFlag s.iflag i &&& ~~~(1#32 <<< i.val)
        lockedMb := none
        abortReq := put s.abortReq i false
        timer := Config.freeTimer s.draws
        draws := s.draws + 1
        schedule := rest.drop 6
        accesses := s.accesses ++ [.read .iflag1 (raiseFlag s.iflag i)] ++ readLog s.draws i { s.mb.get i with cs := cs } } := by
  have hgap := gap_abortResolve hs hrun hcode hasked
  rw [← hcs] at hgap
  have hflag : flagSet (gap s).iflag i = true := by
    rw [hgap]
    simp [flagSet_raiseFlag]
  have hq : (gap s).quiet := by
    rw [hgap]
    exact hrest
  have hcode' : (gap s).codeAt i = codeOf cs := by
    rw [hgap]
    simp [State.codeAt]
  cases sent with
  | true =>
    have hst : (gap s).stateAt i = some (.tx .inactive) := by
      rw [State.stateAt, hcode', hcs, if_pos rfl, codeOf_sentCs]
      rfl
    rw [abortFrom_answered hp c n hflag hq hst rfl, hgap]
    simp [abortOutcome, State.message, State.afterMbread, unpack]
  | false =>
    obtain rfl : cs = (s.mb.get i).cs := hcs
    have hst : (gap s).stateAt i = some (.tx .abort) := by
      rw [State.stateAt, hcode', show codeOf (s.mb.get i).cs = 0b1001#4 from hcode]
      rfl
    rw [abortFrom_answered hp c n hflag hq hst rfl, hgap]
    simp [abortOutcome, State.message, State.afterMbread, unpack, State.heldFrame]

/-- MBABORT of a pending mailbox where the peripheral answers before the first flag read (42_mailbox_store.md R149,
48_peripheral_agent.md R214). -/
theorem mbabort_answered {s : State} {i : Fin 16} (hp : s.params.accessPermitted = true) (c : AbortCaller) (sent : Bool)
    (ts : BitVec 16) {rest : List (List Event)} (hs : s.schedule = [] :: [] :: [] :: [.abortResolve i sent ts] :: rest)
    (hrest : ∀ es ∈ rest, es = []) (hrun : s.mode = .running) (hpend : s.codeAt i = 0b1100#4) :
    mbabort c i s = .ok (if sent then none else some (s.heldFrame i))
      { s with
        mb := put s.mb i { s.mb.get i with
          cs := if sent then sentCs (s.mb.get i).cs ts else withCode (s.mb.get i).cs 0b1001 }
        iflag := s.iflag &&& ~~~(1#32 <<< i.val)
        lockedMb := none
        abortReq := put s.abortReq i false
        rxStage := put s.rxStage i none
        timer := Config.freeTimer s.draws
        draws := s.draws + 1
        schedule := rest.drop 6
        accesses := s.accesses ++ [.read (.mb i 0) (s.mb.get i).cs, .write .iflag1 (flagMask i),
            .write (.mb i 0) (withCode (s.mb.get i).cs 0b1001), .read .iflag1 (s.iflag ||| 1#32 <<< i.val)] ++
          readLog s.draws i { s.mb.get i with
            cs := if sent then sentCs (s.mb.get i).cs ts else withCode (s.mb.get i).cs 0b1001 } } := by
  have hclear : gap (s.afterFlagClear i ([] :: [.abortResolve i sent ts] :: rest)) =
      s.afterFlagClear i ([.abortResolve i sent ts] :: rest) := gap_empty rfl
  have hasked : ((s.afterFlagClear i ([.abortResolve i sent ts] :: rest)).codeAt i == 0b1100#4 ||
      (s.afterFlagClear i ([.abortResolve i sent ts] :: rest)).abortReq.get i) = true := by
    have hcode : (s.afterFlagClear i ([.abortResolve i sent ts] :: rest)).codeAt i = 0b1100#4 := hpend
    rw [hcode]
    rfl
  rw [mbabort_to_flagSpin hp c hs hpend hclear, hasked]
  have hcode : ((s.afterFlagClear i ([.abortResolve i sent ts] :: rest)).afterAbortWrite i
      (withCode (s.mb.get i).cs 0b1001) true).codeAt i = 0b1001#4 := by
    exact (State.afterAbortWrite_codeAt _ _ _ _).trans (codeOf_withCode _ _)
  rw [abortFrom_resolved (cs := if sent then sentCs (s.mb.get i).cs ts else withCode (s.mb.get i).cs 0b1001)
    (by exact hp) c 0 (by rfl) hrest (by exact hrun) hcode (State.afterAbortWrite_abortReq _ _ _ _)]
  · rw [State.heldFrame_of_sameFrameBits (s := s) (by exact get_put_self _ _ _) (sameFrameBits_withCode _ _)]
    simp [State.afterAbortWrite, State.afterFlagClear, raiseFlag_clear, clear_raised]
  · cases sent <;> simp [State.afterAbortWrite, State.afterFlagClear, sentCs_withCode]

/-- The state after the accesses `log` of a quiet run that change nothing but the record and the schedule. -/
def State.advanced (s : State) (log : List Access) : State :=
  { s with schedule := s.schedule.drop log.length, accesses := s.accesses ++ log }

/-- The flag spin of an abort whose flag is set already, on a mailbox that holds the Abort code, with a peripheral that takes no
step. -/
theorem abortFrom_flagged_abort {s : State} {i : Fin 16} (hp : s.params.accessPermitted = true) (hq : s.quiet) (c : AbortCaller)
    (n : Nat) (hflag : flagSet s.iflag i = true) (hcode : s.codeAt i = 0b1001#4) :
    abortFrom c i n s = .ok (some (s.heldFrame i)) ((s.advanced [.read .iflag1 s.iflag]).afterMbread i) := by
  have hgap := gap_quiet hq
  have hst : s.stateAt i = some (.tx .abort) := by rw [State.stateAt, hcode]; rfl
  rw [abortFrom_answered (st := .tx .abort) hp c n (by rw [hgap]; exact hflag) (by rw [hgap]; exact quiet_tail hq)
    (by rw [hgap]; exact hst) rfl, hgap, State.advanced, List.length_singleton, List.drop_one]
  rfl

/-- MBABORT of a mailbox that is sent between its flag clear and its Abort write: nothing is asked of the peripheral, the flag it
has raised ends the spin, and the frame is returned all the same (42_mailbox_store.md R149, 70_reset_and_hazards.md R284). -/
theorem mbabort_after_send {s : State} {i : Fin 16} (hp : s.params.accessPermitted = true) (c : AbortCaller) (ts : BitVec 16)
    {rest : List (List Event)} (hs : s.schedule = [] :: [] :: [.txComplete i ts] :: rest) (hrest : ∀ es ∈ rest, es = [])
    (hrun : s.mode = .running) (horder : s.params.hwTxOrder = .any) (hpend : s.codeAt i = 0b1100#4)
    (hfree : s.abortReq.get i = false) :
    mbabort c i s = .ok (some (s.heldFrame i))
      { s with
        mb := put s.mb i { s.mb.get i with cs := withCode (s.mb.get i).cs 0b1001 }
        iflag := s.iflag &&& ~~~(1#32 <<< i.val)
        lockedMb := none
        abortReq := put s.abortReq i false
        rxStage := put s.rxStage i none
        timer := Config.freeTimer s.draws
        draws := s.draws + 1
        schedule := rest.drop 7
        accesses := s.accesses ++ [.read (.mb i 0) (s.mb.get i).cs, .write .iflag1 (flagMask i),
            .write (.mb i 0) (withCode (s.mb.get i).cs 0b1001), .read .iflag1 (s.iflag ||| 1#32 <<< i.val)] ++
          readLog s.draws i { s.mb.get i with cs := withCode (s.mb.get i).cs 0b1001 } } := by
  have hsend := gap_txComplete (s := s.afterFlagClear i ([.txComplete i ts] :: rest)) rfl hrun hpend horder
  rw [mbabort_to_flagSpin hp c hs hpend hsend, abortFrom_flagged_abort (by exact hp) (by exact hrest)]
  · rw [State.heldFrame_of_sameFrameBits (s := s) (cs := withCode (s.mb.get i).cs 0b1001)
      (by simp [State.afterAbortWrite, State.afterFlagClear]) (sameFrameBits_withCode _ _)]
    simp [State.afterMbread, State.advanced, State.afterAbortWrite, State.afterFlagClear, raiseFlag_clear, clear_raised,
      State.codeAt, hfree]
  · simp [State.afterAbortWrite, State.afterFlagClear, flagSet_raiseFlag]
  · exact (State.afterAbortWrite_codeAt _ _ _ _).trans (codeOf_withCode _ _)

/-- An abort that goes on from a spin and finds its exit condition is in its re-read, `found` being the flag read that comes first
if it was in the flag spin (42_mailbox_store.md R149). -/
theorem resumeFrom_of_abortEnds {s : State} {p : SpinPos} {c : AbortCaller} {i : Fin 16} {found : List Access}
    (hp : s.params.accessPermitted = true) (hq : s.quiet) (h : abortEnds p c i found s) :
    ∃ n, resumeFrom p s = returnMaybeFrame (continueAbort c i (abortOutcome (readFrom (.abort c) i n
      (s.advanced found)))) := by
  rcases h with ⟨n, rfl, hflag, rfl⟩ | ⟨n, rfl, rfl⟩
  · refine ⟨0, ?_⟩
    have hgap := gap_quiet hq
    rw [resumeFrom, abortFrom_flagged hp c n (by rw [hgap]; exact hflag), hgap, State.advanced]
    simp
  · refine ⟨n, ?_⟩
    simp [resumeFrom, State.advanced]

theorem continueAbort_err (c : AbortCaller) (i : Fin 16) (e : Err) (s : State) : continueAbort c i (.err e s) = .err e s := by
  cases c <;> rfl

/-- The re-read of an abort surfaces every code but Abort and Inactive as an error (42_mailbox_store.md R149). -/
theorem abortOutcome_unreachable {m : Header × Frame} {st : BufferState} (hm : m.1.code = st) (habort : st ≠ .tx .abort)
    (hinactive : st ≠ .tx .inactive) (s : State) : abortOutcome (.ok m s) = .err (.unreachableState st) s := by
  subst hm
  rw [abortOutcome, Res.bind_ok]
  split
  · next hcode => exact absurd hcode habort
  · next hcode => exact absurd hcode hinactive
  · rfl

end Sys2Proof.Machine

open Sys2Proof Sys2Proof.Machine

/-- Settles O33: the answer to the request comes before the first flag read; from a spin the abort goes on in its re-read, whose
code decides how it ends. -/
theorem mbabortCompletes : Obligations.MbabortCompletes := by
  constructor
  · rintro s i sent ts rest ⟨hb, hp⟩ hrun hpend hs hrest m aborted cs
    rw [exec_mbabort_ofNat, issue_of_ok hb (by rw [returnMaybeFrame,
      mbabort_answered (s := s.started) hp _ sent ts hs hrest hrun hpend, Res.bind_ok]), State.finished, ← hb]
    rfl
  · intro s c i p found hb hends hp hq ends read
    obtain ⟨n, hresume⟩ := resumeFrom_of_abortEnds hp hq hends
    have hq' : (s.advanced found).quiet := quiet_drop hq found.length
    have hread : ∀ {st r}, s.stateAt i = some st → st.isBusy = false →
        (∀ u, finish (returnMaybeFrame (continueAbort c i (abortOutcome (.ok (s.message i st) u)))) = .next (u.finished r)) →
        read r := by
      intro st r hst hidle hr
      have hend : finish (returnMaybeFrame (continueAbort c i (abortOutcome (readFrom (.abort c) i n (s.advanced found))))) =
          .next (((s.advanced found).afterMbread i).finished r) := by
        rw [readFrom_idle (s := s.advanced found) hp hq' _ _ hst hidle]
        exact hr _
      refine (step_spinning hb).trans ((congrArg finish hresume).trans (hend.trans ?_))
      rw [State.afterMbread, State.advanced, State.finished, List.drop_drop]
      rfl
    refine ⟨fun hst hc => hread hst rfl fun u => hc ▸ rfl, fun hst hc => hread hst rfl fun u => hc ▸ rfl,
      fun st hst hidle habort hinactive => hread hst hidle fun u => ?_, fun hst => ?_⟩
    · rw [abortOutcome_unreachable (st := st) rfl habort hinactive, continueAbort_err]
      rfl
    · refine (step_spinning hb).trans ((congrArg finish hresume).trans ?_)
      rw [readFrom_reserved (s := s.advanced found) (.abort c) i n hp ((quiet_iff _).mp hq') hst, abortOutcome, Res.bind_err,
        continueAbort_err, drop_of_quiet hq', State.advanced, List.drop_drop]
      rfl

/-- Settles O35: the mailbox is no longer pending when the Abort code is written, so no abort is requested, and the flag the
transmission raised is taken for the answer. -/
theorem abortAfterSendReturnsASentFrame : Obligations.AbortAfterSendReturnsASentFrame := by
  rintro s i ts rest ⟨hb, hp⟩ hrun horder hpend hfree hs hrest
  rw [exec_mbabort_ofNat, issue_of_ok hb (by rw [returnMaybeFrame,
    mbabort_after_send (s := s.started) hp _ ts hs hrest hrun horder hpend hfree, Res.bind_ok])]
  refine ⟨_, rfl, rfl, by simp [State.codeAt], get_put_self _ _ _, flagSet_cleared _ _, fun r hr => ?_, fun j hj => ?_⟩
  · cases r with
    | mb j w =>
      have hj : i ≠ j := by
        rintro rfl
        have hw : ∀ w : Fin 4, w = 0 ∨ w = 1 ∨ w = 2 ∨ w = 3 := by decide
        simp [mailboxRegs, hw w] at hr
      exact congrArg (fun m : Mailbox => m.word w) (get_put_ne _ _ hj)
    | iflag1 => simp at hr
    | timer => simp at hr
    | _ => rfl
  · exact ⟨get_put_ne _ _ hj.symm, rfl, get_put_ne _ _ hj.symm⟩
end

section
/-! 42_mailbox_store.md R141 to R144, R150: the words of a frame read back as that frame, whatever the code and the timestamp with
them; so MBWRITE and then MBREAD give the frame written. -/

namespace Sys2Proof.Machine

/-! ### Fields of the words -/

@[simp] theorem prio_idWord (id : Identifier) (prio : BitVec 3) : (idWord id prio).extractLsb' 29 3 = prio := by
  apply BitVec.eq_of_getLsbD_eq
  intro k hk
  rw [BitVec.getLsbD_extractLsb']
  cases id with
  | base v =>
    have hv : v.getLsbD (29 + k - 18) = false := BitVec.getLsbD_of_ge _ _ (by omega)
    simp [getLsbD_idWord_base, hk, hv]
  | extended v =>
    simp [getLsbD_idWord_extended, hk]

/-- The identifier written is the one read (42_mailbox_store.md R141, R144). -/
theorem identOf_idWord {cs : Word} {id : Identifier} (h : cs.getLsbD 21 = id.isExtended) (prio : BitVec 3) :
    identOf cs (idWord id prio) = id := by
  rw [identOf, h]
  cases id with
  | base v =>
    have hv : (idWord (.base v) prio).extractLsb' 18 11 = v := by
      apply BitVec.eq_of_getLsbD_eq
      intro k hk
      simp [getLsbD_idWord_base, hk, show ¬ 29 ≤ 18 + k by omega]
    exact congrArg Identifier.base hv
  | extended v =>
    have hv : (idWord (.extended v) prio).extractLsb' 0 29 = v := by
      apply BitVec.eq_of_getLsbD_eq
      intro k hk
      simp [getLsbD_idWord_extended, hk, show ¬ 29 ≤ k by omega]
    exact congrArg Identifier.extended hv

/-! The bytes of a data word, the first-named in bits 31:24 (42_mailbox_store.md R143). -/

section
variable (b0 b1 b2 b3 : BitVec 8)

theorem wordOfBytes_byte0 : (wordOfBytes b0 b1 b2 b3).extractLsb' 24 8 = b0 := by
  rw [wordOfBytes, BitVec.extractLsb'_append_eq_of_le (by decide), BitVec.extractLsb'_append_eq_of_le (by decide),
    BitVec.extractLsb'_append_eq_of_le (by decide)]
  exact BitVec.extractLsb'_eq_self

theorem wordOfBytes_byte1 : (wordOfBytes b0 b1 b2 b3).extractLsb' 16 8 = b1 := by
  rw [wordOfBytes, BitVec.extractLsb'_append_eq_of_le (by decide), BitVec.extractLsb'_append_eq_of_le (by decide),
    BitVec.extractLsb'_append_eq_of_add_le (by decide)]
  exact BitVec.extractLsb'_eq_self

theorem wordOfBytes_byte2 : (wordOfBytes b0 b1 b2 b3).extractLsb' 8 8 = b2 := by
  rw [wordOfBytes, BitVec.extractLsb'_append_eq_of_le (by decide), BitVec.extractLsb'_append_eq_of_add_le (by decide)]
  exact BitVec.extractLsb'_eq_self

theorem wordOfBytes_byte3 : (wordOfBytes b0 b1 b2 b3).extractLsb' 0 8 = b3 := by
  rw [wordOfBytes, BitVec.extractLsb'_append_eq_of_add_le (by decide)]
  exact BitVec.extractLsb'_eq_self

end

/-- A byte of the data words is the byte they were put together from (42_mailbox_store.md R143). -/
theorem dataByte_wordOfBytes (b : Nat → BitVec 8) {k : Nat} (hk : k < 8) :
    dataByte (wordOfBytes (b 0) (b 1) (b 2) (b 3)) (wordOfBytes (b 4) (b 5) (b 6) (b 7)) k = b k := by
  interval_cases k
  · exact wordOfBytes_byte0 _ _ _ _
  · exact wordOfBytes_byte1 _ _ _ _
  · exact wordOfBytes_byte2 _ _ _ _
  · exact wordOfBytes_byte3 _ _ _ _
  · exact wordOfBytes_byte0 _ _ _ _
  · exact wordOfBytes_byte1 _ _ _ _
  · exact wordOfBytes_byte2 _ _ _ _
  · exact wordOfBytes_byte3 _ _ _ _

/-- The CS word and the data words carry the frame `f`, its identifier's number apart. -/
structure CarriesFrame (cs w2 w3 : Word) (f : Frame) : Prop where
  ide : cs.getLsbD 21 = f.id.isExtended
  rtr : cs.getLsbD 20 = f.isRemote
  length : ∀ id bytes, f = .data id bytes → payloadLength cs = bytes.length
  bytes : ∀ id bytes, f = .data id bytes → ∀ k (hk : k < bytes.length), dataByte w2 w3 k = bytes[k]

/-- Such words unpack to the frame. -/
theorem CarriesFrame.unpack_frame {cs w2 w3 : Word} {f : Frame} (h : CarriesFrame cs w2 w3 f) (st : BufferState) (prio : BitVec 3) :
    (unpack cs st (idWord f.id prio) w2 w3).2 = f := by
  simp only [unpack, h.rtr, identOf_idWord h.ide]
  cases f with
  | remote id => rfl
  | data id bytes =>
    have hlen := h.length id bytes rfl
    have hbytes := h.bytes id bytes rfl
    have hmap : (List.range bytes.length).map (dataByte w2 w3) = bytes :=
      List.ext_getElem (by simp) fun k hk hk' => by simpa using hbytes k hk'
    simp only [Frame.isRemote, Frame.id, hlen, hmap]
    rfl

theorem CarriesFrame.of_sameFrameBits {cs cs' w2 w3 : Word} {f : Frame} (h : CarriesFrame cs w2 w3 f)
    (hbits : SameFrameBits cs cs') : CarriesFrame cs' w2 w3 f where
  ide := (hbits 21 (by decide) (by decide)).trans h.ide
  rtr := (hbits 20 (by decide) (by decide)).trans h.rtr
  length id bytes hf := hbits.payloadLength.trans (h.length id bytes hf)
  bytes := h.bytes

/-- A DLC of at most 8 is the payload's length. -/
theorem payloadLength_of_dlc {cs : Word} {n : Nat} (h : cs.extractLsb' 16 4 = BitVec.ofNat 4 n) (hn : n ≤ 8) :
    payloadLength cs = n := by
  rw [payloadLength, h, BitVec.toNat_ofNat, Nat.mod_eq_of_lt (by omega), Nat.min_eq_left hn]

/-! ### What MBWRITE writes -/

theorem dlc_csWord (hdr : Header) (f : Frame) : (csWord hdr f).extractLsb' 16 4 = f.dlc := by
  apply BitVec.eq_of_getLsbD_eq
  intro k hk
  rw [BitVec.getLsbD_extractLsb', getLsbD_csWord]
  interval_cases k <;> simp

theorem timestamp_csWord (hdr : Header) (f : Frame) : (csWord hdr f).extractLsb' 0 16 = 0#16 := by
  apply BitVec.eq_of_getLsbD_eq
  intro k hk
  rw [BitVec.getLsbD_extractLsb', getLsbD_csWord]
  simp [hk, show ¬ 24 ≤ k by omega, show ¬ 16 ≤ k by omega, show k ≠ 29 by omega, show k ≠ 22 by omega,
    show k ≠ 21 by omega, show k ≠ 20 by omega]

theorem esi_csWord (hdr : Header) (f : Frame) : (csWord hdr f).getLsbD 29 = hdr.esi :=
  (getLsbD_csWord _ _ _).trans (by simp)

@[simp] theorem timestamp_withTimestamp (cs : Word) (ts : BitVec 16) : (withTimestamp cs ts).extractLsb' 0 16 = ts := by
  apply BitVec.eq_of_getLsbD_eq
  intro k hk
  rw [BitVec.getLsbD_extractLsb', getLsbD_withTimestamp]
  simp [hk]

/-- The words MBWRITE stores carry the frame written. -/
theorem written_carriesFrame (m : Mailbox) (hdr : Header) {f : Frame} (hf : f.wf = true) :
    CarriesFrame (csWord hdr f) (written m hdr f).d0 (written m hdr f).d1 f where
  ide := (getLsbD_csWord _ _ _).trans (by simp)
  rtr := (getLsbD_csWord _ _ _).trans (by simp)
  length := by
    rintro id bytes rfl
    exact payloadLength_of_dlc (dlc_csWord _ _) (of_decide_eq_true hf)
  bytes := by
    rintro id bytes rfl k hk
    have hk8 : k < 8 := hk.trans_le (of_decide_eq_true hf)
    exact (dataByte_wordOfBytes (byteOrZero bytes) hk8).trans (List.getD_eq_getElem _ _ hk)

/-- What MBWRITE stores reads back as the frame, the esi and the prio written, with the code and the timestamp found with them. -/
theorem unpack_written (m : Mailbox) (hdr : Header) {f : Frame} (hf : f.wf = true) {cs : Word}
    (hbits : SameFrameBits (csWord hdr f) cs) (hesi : cs.getLsbD 29 = hdr.esi) (st : BufferState) :
    unpack cs st (written m hdr f).idw (written m hdr f).d0 (written m hdr f).d1 =
      ({ esi := hdr.esi, code := st, timestamp := cs.extractLsb' 0 16, prio := hdr.prio }, f) := by
  refine Prod.ext ?_ (((written_carriesFrame m hdr hf).of_sameFrameBits hbits).unpack_frame st hdr.prio)
  simp only [unpack, written, hesi, prio_idWord]

/-! ### What MBWRITE's operand record spells -/

/-- A well-formed record spells a well-formed frame (30_encoding.md R86, 00_scope.md R11). -/
theorem wf_of_mbwriteOperands {o : MbwriteOperands} {hdr : Header} {f : Frame} (h : mbwriteOperands o = some (hdr, f)) :
    f.wf = true := by
  simp only [mbwriteOperands, Option.ite_none_right_eq_some, Option.some.injEq, Prod.mk.injEq, MbwriteOperands.wf,
    Bool.and_eq_true] at h
  obtain ⟨⟨-, hwf⟩, -, rfl⟩ := h
  cases hraw : o.frame with
  | remote id => rfl
  | data id bytes =>
    simp only [hraw, RawFrame.wf, Bool.and_eq_true, decide_eq_true_eq] at hwf
    obtain ⟨⟨-, hlen⟩, -⟩ := hwf
    simpa [RawFrame.narrow, Frame.wf] using hlen

/-! ### Runs of steps -/

theorem runSteps_succ {s t : State} (h : step s = .next t) (k : Nat) : runSteps (k + 1) s = runSteps k t := by
  have hstep : Sys2Proof.core.step s = .next t := h
  simp only [runSteps, Host.Core.run, hstep]
  rfl

theorem runSteps_one {s t : State} (h : step s = .next t) : runSteps 1 s = .next t := runSteps_succ h 0

section
variable {s : State} {i : Fin 16} {w : Word} {ops : OperandPort} {rest : List Request} (hr : s.ready) (hq : s.quiet)
  (hreqs : s.requests = .command w ops :: rest)
include hr hq hreqs

/-- What a command that is MBWRITE of a writable mailbox leaves for the next command. -/
theorem step_mbwrite (hw : decodeWord w = .ok (.mbwrite (BitVec.ofNat 8 i.val))) {hdr : Header} {f : Frame} {cur : BufferState}
    (hops : mbwriteOperands ops.mbwrite = some (hdr, f)) (hrole : hdr.code.role = roleOfIndex i)
    (hidle : hdr.code.isBusy = false) (hst : s.stateAt i = some cur)
    (hcur : cur = .tx .inactive ∨ cur = .tx .abort ∨ cur = .rx .inactive false) :
    ∃ t, step s = .next t ∧ t.result = some (.ok .unit) ∧ t.ready ∧ t.quiet ∧ t.requests = rest ∧
      t.mb.get i = written (s.mb.get i) hdr f :=
  ⟨_, (step_command hr.1 hreqs hw).trans
    (mbwriteCompletes { s with requests := rest, operands := ops } i hdr f cur hr hq hops hrole hidle hst hcur),
    rfl, hr, quiet_drop hq _, rfl, get_put_self _ _ _⟩

/-- What a command that is MBREAD of a mailbox that is not busy returns. -/
theorem step_mbread (hw : decodeWord w = .ok (.mbread (BitVec.ofNat 8 i.val))) {st : BufferState} (hst : s.stateAt i = some st)
    (hidle : st.isBusy = false) :
    ∃ t, step s = .next t ∧ t.result = some (.ok (.message (s.message i st).1 (s.message i st).2)) :=
  ⟨_, (step_command hr.1 hreqs hw).trans
    (mbreadCompletes { s with requests := rest, operands := ops } i st hr hq hst hidle), rfl⟩

end

end Sys2Proof.Machine

open Sys2Proof Sys2Proof.Machine

/-- Settles O46: the words carry the frame whatever CODE and TIME_STAMP are, and the two commands meet the statements of MBWRITE and
MBREAD. -/
theorem writeThenReadReturnsTheFrame : Obligations.WriteThenReadReturnsTheFrame := by
  constructor
  · intro hdr f m code ts st hf
    have hbits : SameFrameBits (csWord hdr f) (withTimestamp (withCode (csWord hdr f) code) ts) :=
      (sameFrameBits_withCode _ _).trans (sameFrameBits_withTimestamp _ _)
    have hesi : (withTimestamp (withCode (csWord hdr f) code) ts).getLsbD 29 = hdr.esi :=
      (getLsbD_withTimestamp _ _ _).trans ((getLsbD_withCode _ _ _).trans (esi_csWord _ _))
    exact (unpack_written m hdr hf hbits hesi st).trans (by rw [timestamp_withTimestamp])
  · rintro s i hdr f cur w r ops ops' rest hs hq hw hr hreqs hops hrole hidle hst hcur
    obtain ⟨t, hwrite, hresult, ht, htq, htreqs, hmb⟩ := step_mbwrite hs hq hreqs hw hops hrole hidle hst hcur
    have hcode : t.codeAt i = encodeState hdr.code := (codeAt_of_get hmb).trans (codeOf_csWord _ _)
    have hheld : t.stateAt i = some hdr.code := by rw [State.stateAt, hcode, decodeState_encodeState]
    obtain ⟨u, hread, hmessage⟩ := step_mbread ht htq htreqs hr hheld hidle
    refine ⟨t, u, runSteps_one hwrite, hresult, (runSteps_succ hwrite 1).trans (runSteps_one hread), ?_⟩
    have hunpack := unpack_written (s.mb.get i) hdr (wf_of_mbwriteOperands hops) (fun _ _ _ => rfl) (esi_csWord hdr f) hdr.code
    rw [timestamp_csWord] at hunpack
    rw [hmessage, State.message, hmb]
    exact congrArg (fun m => some (Result.ok (.message m.1 m.2))) hunpack
end

section
/-! 48_peripheral_agent.md R215 to R217, R225: a reception from its beginning to its end, and the mode requests that wait for it. -/

namespace Sys2Proof.Machine

/-! ### The words of a reception (R216) -/

/-- The CS word of a reception bit by bit: bits 28 to 23, CODE among them, are kept (log 11). -/
theorem getLsbD_receivedCs (cs : Word) (f : Frame) (ts : BitVec 16) (srr : Bool) (dlc : BitVec 4) (k : Nat) :
    (receivedCs cs f ts srr dlc).getLsbD k =
      ((cs.getLsbD k && decide (23 ≤ k ∧ k < 29)) || (srr && decide (k = 22)) || (f.id.isExtended && decide (k = 21)) ||
        (f.isRemote && decide (k = 20)) || (decide (16 ≤ k) && (receivedDlc f dlc).getLsbD (k - 16)) || ts.getLsbD k) := by
  have hkept : (cs &&& ((0x1F800000 : Nat) : Word)).getLsbD k = (cs.getLsbD k && decide (23 ≤ k ∧ k < 29)) := by
    rw [BitVec.getLsbD_and]
    by_cases hk : k < 32
    · interval_cases k <;> simp
    · simp [BitVec.getLsbD_of_ge _ _ (Nat.le_of_not_lt hk)]
  have hts : (ts.setWidth 32 : Word).getLsbD k = ts.getLsbD k := by
    rw [BitVec.getLsbD_setWidth]
    by_cases hk : k < 32
    · simp [hk]
    · simp [hk, BitVec.getLsbD_of_ge ts k (by omega)]
  simp only [receivedCs, BitVec.getLsbD_or, hkept, hts, getLsbD_place (receivedDlc f dlc) 16 k (by omega),
    getLsbD_bitAt _ 22 k (by omega), getLsbD_bitAt _ 21 k (by omega), getLsbD_bitAt _ 20 k (by omega)]

section
variable (cs : Word) (f : Frame) (ts : BitVec 16) (srr : Bool) (dlc : BitVec 4)

theorem esi_receivedCs : (receivedCs cs f ts srr dlc).getLsbD 29 = false := by
  rw [getLsbD_receivedCs, BitVec.getLsbD_of_ge (receivedDlc f dlc) _ (by decide), BitVec.getLsbD_of_ge ts _ (by decide)]
  simp

theorem timestamp_receivedCs : (receivedCs cs f ts srr dlc).extractLsb' 0 16 = ts := by
  apply BitVec.eq_of_getLsbD_eq
  intro k hk
  rw [BitVec.getLsbD_extractLsb', getLsbD_receivedCs]
  simp [hk, show ¬ 23 ≤ k by omega, show ¬ 16 ≤ k by omega, show k ≠ 22 by omega, show k ≠ 21 by omega,
    show k ≠ 20 by omega]

theorem timestamp_withCode (p : BitVec 4) : (withCode cs p).extractLsb' 0 16 = cs.extractLsb' 0 16 := by
  apply BitVec.eq_of_getLsbD_eq
  intro k hk
  rw [BitVec.getLsbD_extractLsb', BitVec.getLsbD_extractLsb', getLsbD_withCode, if_neg (by omega)]

theorem dlc_receivedCs : (receivedCs cs f ts srr dlc).extractLsb' 16 4 = receivedDlc f dlc := by
  apply BitVec.eq_of_getLsbD_eq
  intro k hk
  rw [BitVec.getLsbD_extractLsb', getLsbD_receivedCs, BitVec.getLsbD_of_ge ts _ (by omega)]
  interval_cases k <;> simp

/-- Whatever DLC the hardware chooses, the payload's length is read (42_mailbox_store.md R144). -/
theorem payloadLength_receivedCs {id : Identifier} {bytes : List (BitVec 8)} (hlen : bytes.length ≤ 8) :
    payloadLength (receivedCs cs (.data id bytes) ts srr dlc) = bytes.length := by
  have hdlc := dlc_receivedCs cs (.data id bytes) ts srr dlc
  by_cases h8 : bytes.length < 8
  · exact payloadLength_of_dlc (hdlc.trans (if_pos h8)) hlen
  · have hmin : ∀ d : BitVec 4, min (d ||| 0b1000).toNat 8 = 8 := by decide
    rw [payloadLength, hdlc, receivedDlc, if_neg h8, hmin]
    omega

/-- The data words a reception leaves in a mailbox that held `old` (R216). -/
def receivedWords (old : Mailbox) (p0 p1 : Word) : Word × Word :=
  match f with
  | .data _ bytes => receivedData bytes p0 p1
  | .remote _ => (old.d0, old.d1)

/-- The words a reception writes carry its frame. -/
theorem received_carriesFrame (old : Mailbox) (p0 p1 : Word) (hf : f.wf = true) :
    CarriesFrame (receivedCs cs f ts srr dlc) (receivedWords f old p0 p1).1 (receivedWords f old p0 p1).2 f where
  ide := by
    rw [getLsbD_receivedCs, BitVec.getLsbD_of_ge (receivedDlc f dlc) _ (by decide), BitVec.getLsbD_of_ge ts _ (by decide)]
    simp
  rtr := by
    rw [getLsbD_receivedCs, BitVec.getLsbD_of_ge (receivedDlc f dlc) _ (by decide), BitVec.getLsbD_of_ge ts _ (by decide)]
    simp
  length := by
    rintro id bytes rfl
    exact payloadLength_receivedCs _ _ _ _ (of_decide_eq_true hf)
  bytes := by
    rintro id bytes rfl k hk
    have hk8 : k < 8 := hk.trans_le (of_decide_eq_true hf)
    exact (dataByte_wordOfBytes (fun k => bytes.getD k (dataByte p0 p1 k)) hk8).trans (List.getD_eq_getElem _ _ hk)

end

/-! ### The three steps -/

/-- The receive state a reception ends in, by the code it began on (R215). -/
def receivedState (code : BitVec 4) : RxState := if code = 0b0100#4 then .full else .overrun

section
variable {s : State} {i : Fin 16}

theorem takeEvent_rxBegin {f : Frame} {ts : BitVec 16} (hen : enabled (.rxBegin i f ts) s = true) :
    takeEvent s (.rxBegin i f ts) =
      { s with
        mb := put s.mb i { s.mb.get i with cs := withCode (s.mb.get i).cs (s.codeAt i ||| 0b0001) }
        rxStage := put s.rxStage i
          (some { frame := f, ts := ts, final := receivedState (s.codeAt i), written := false }) } :=
  if_pos hen

/-- Without an acknowledgment a reception in progress goes on, in Running or where the model's own parameter allows it (log 23). -/
theorem receiving_of_unacknowledged (hl : lpmAck s.mcr = false) (hf : frzAck s.mcr = false)
    (h : s.params.rxFinishesUnderRequest = true ∨ modeOf s.mcr = .running) : s.receiving = true := by
  have hmode : modeOf s.mcr = .running ∨ modeOf s.mcr = .transitional := by
    simp only [modeOf, hl, hf, Bool.false_eq_true, if_false]
    split
    · exact .inl rfl
    · exact .inr rfl
  rcases hmode with hmode | hmode <;> simp_all [State.receiving, State.running, State.mode]

theorem takeEvent_rxWrite {m : RxMove} (hm : s.rxStage.get i = some m) (hgo : s.receiving = true) (hw : m.written = false)
    (prio : BitVec 3) (srr : Bool) (dlc : BitVec 4) (p0 p1 : Word) :
    takeEvent s (.rxWrite i prio srr dlc p0 p1) =
      { s with
        mb := put s.mb i
          { cs := receivedCs (s.mb.get i).cs m.frame m.ts srr dlc
            idw := idWord m.frame.id prio
            d0 := (receivedWords m.frame (s.mb.get i) p0 p1).1
            d1 := (receivedWords m.frame (s.mb.get i) p0 p1).2 }
        rxStage := put s.rxStage i (some { m with written := true }) } := by
  rw [takeEvent, if_pos (by simp [enabled, hm, hgo, hw])]
  simp only [effect, rxWriteEffect, hm]
  rfl

theorem takeEvent_rxEnd {m : RxMove} (hm : s.rxStage.get i = some m) (hgo : s.receiving = true) (hw : m.written = true) :
    takeEvent s (.rxEnd i) =
      { s with
        mb := put s.mb i { s.mb.get i with cs := withCode (s.mb.get i).cs (encodeState (.rx m.final false)) }
        iflag := raiseFlag s.iflag i
        rxStage := put s.rxStage i none } := by
  rw [takeEvent, if_pos (by simp [enabled, hm, hgo, hw])]
  simp only [effect, rxEndEffect, hm]
  rfl

end

/-! ### A whole reception -/

/-- A mailbox that held `old` once a reception into it has begun: its code is the busy variant (R215). -/
def begunMailbox (old : Mailbox) : Mailbox := { old with cs := withCode old.cs (codeOf old.cs ||| 0b0001) }

/-- The same once the words of the frame `f` are written (R216). -/
def storedMailbox (old : Mailbox) (f : Frame) (ts : BitVec 16) (prio : BitVec 3) (srr : Bool) (dlc : BitVec 4) (p0 p1 : Word) :
    Mailbox where
  cs := receivedCs (begunMailbox old).cs f ts srr dlc
  idw := idWord f.id prio
  d0 := (receivedWords f old p0 p1).1
  d1 := (receivedWords f old p0 p1).2

/-- The same once the reception has ended (R217). -/
def receivedMailbox (old : Mailbox) (f : Frame) (ts : BitVec 16) (prio : BitVec 3) (srr : Bool) (dlc : BitVec 4) (p0 p1 : Word) :
    Mailbox :=
  { storedMailbox old f ts prio srr dlc p0 p1 with
    cs := withCode (receivedCs (begunMailbox old).cs f ts srr dlc) (encodeState (.rx (receivedState (codeOf old.cs)) false)) }

theorem receivedWords_begunMailbox (old : Mailbox) (f : Frame) (p0 p1 : Word) :
    receivedWords f (begunMailbox old) p0 p1 = receivedWords f old p0 p1 := by
  cases f <;> rfl

theorem receivedWords_of_isRemote {f : Frame} (h : f.isRemote = true) (old : Mailbox) (p0 p1 : Word) :
    receivedWords f old p0 p1 = (old.d0, old.d1) := by
  cases f with
  | remote id => rfl
  | data id bytes => cases h

/-- The received mailbox reads back as the frame, the capture time and the PRIO bits written (42_mailbox_store.md R144). -/
theorem unpack_receivedMailbox (old : Mailbox) {f : Frame} (hf : f.wf = true) (ts : BitVec 16) (prio : BitVec 3) (srr : Bool)
    (dlc : BitVec 4) (p0 p1 : Word) (st : BufferState) :
    unpack (receivedMailbox old f ts prio srr dlc p0 p1).cs st (receivedMailbox old f ts prio srr dlc p0 p1).idw
        (receivedMailbox old f ts prio srr dlc p0 p1).d0 (receivedMailbox old f ts prio srr dlc p0 p1).d1 =
      ({ esi := false, code := st, timestamp := ts, prio := prio }, f) := by
  have hcarries := (received_carriesFrame (begunMailbox old).cs f ts srr dlc old p0 p1 hf).of_sameFrameBits
    (sameFrameBits_withCode _ (encodeState (.rx (receivedState (codeOf old.cs)) false)))
  refine Prod.ext ?_ (hcarries.unpack_frame st prio)
  have hesi : (receivedMailbox old f ts prio srr dlc p0 p1).cs.getLsbD 29 = false :=
    (getLsbD_withCode _ _ _).trans (esi_receivedCs _ _ _ _ _)
  have hts : (receivedMailbox old f ts prio srr dlc p0 p1).cs.extractLsb' 0 16 = ts :=
    (timestamp_withCode _ _).trans (timestamp_receivedCs _ _ _ _ _)
  have hprio : (receivedMailbox old f ts prio srr dlc p0 p1).idw.extractLsb' 29 3 = prio := prio_idWord _ _
  simp only [unpack, hesi, hts, hprio]

/-- The state while the reception of `f` into mailbox `i` is in progress, its words written or not, MCR being `mcr`. -/
def State.receivingInto (s : State) (i : Fin 16) (f : Frame) (ts : BitVec 16) (written : Bool) (mcr : Word) (m : Mailbox) : State :=
  { s with
    mcr := mcr
    mb := put s.mb i m
    rxStage := put s.rxStage i (some { frame := f, ts := ts, final := receivedState (s.codeAt i), written := written }) }

/-- The state after the reception, MCR being `mcr`. -/
def State.received (s : State) (i : Fin 16) (mcr : Word) (m : Mailbox) : State :=
  { s with mcr := mcr, mb := put s.mb i m, iflag := raiseFlag s.iflag i, rxStage := put s.rxStage i none }

section
variable {s : State} {i : Fin 16} {f : Frame} {ts : BitVec 16} {v : Word}

theorem receivingInto_rxStage (s : State) (i : Fin 16) (f : Frame) (ts : BitVec 16) (written : Bool) (v : Word) (m : Mailbox) :
    (s.receivingInto i f ts written v m).rxStage.get i =
      some { frame := f, ts := ts, final := receivedState (s.codeAt i), written := written } := by
  simp [State.receivingInto]

theorem rxBegin_receivingInto (hen : enabled (.rxBegin i f ts) s = true) (v : Word) :
    { takeEvent s (.rxBegin i f ts) with mcr := v } = s.receivingInto i f ts false v (begunMailbox (s.mb.get i)) := by
  rw [takeEvent_rxBegin hen]
  rfl

section
variable (prio : BitVec 3) (srr : Bool) (dlc : BitVec 4) (p0 p1 : Word) (hl : lpmAck v = false) (hf : frzAck v = false)
  (hgo : s.params.rxFinishesUnderRequest = true ∨ modeOf v = .running)
include hl hf hgo

theorem rxWrite_receivingInto (w : Word) :
    { takeEvent (s.receivingInto i f ts false v (begunMailbox (s.mb.get i))) (.rxWrite i prio srr dlc p0 p1) with mcr := w } =
      s.receivingInto i f ts true w (storedMailbox (s.mb.get i) f ts prio srr dlc p0 p1) := by
  rw [takeEvent_rxWrite (receivingInto_rxStage _ _ _ _ _ _ _) (receiving_of_unacknowledged hl hf hgo) rfl]
  simp [State.receivingInto, storedMailbox, receivedWords_begunMailbox]

theorem rxEnd_receivingInto :
    takeEvent (s.receivingInto i f ts true v (storedMailbox (s.mb.get i) f ts prio srr dlc p0 p1)) (.rxEnd i) =
      s.received i v (receivedMailbox (s.mb.get i) f ts prio srr dlc p0 p1) := by
  rw [takeEvent_rxEnd (receivingInto_rxStage _ _ _ _ _ _ _) (receiving_of_unacknowledged hl hf hgo) rfl]
  simp [State.receivingInto, State.received, storedMailbox, receivedMailbox, State.codeAt]

end

theorem noReception_iff (s : State) : s.noReception = true ↔ ∀ i, s.rxStage.get i = none := by
  refine ⟨rxStage_of_noReception, fun h => ?_⟩
  simp only [State.noReception, List.all_eq_true, Vector.mem_toList_iff, Vector.mem_iff_getElem]
  rintro _ ⟨k, hk, rfl⟩
  exact Option.isNone_iff_eq_none.mpr (h ⟨k, hk⟩)

/-- No mode request is acknowledged while a reception is in progress (R225). -/
theorem takeEvent_request_of_reception {m : RxMove} (hm : s.rxStage.get i = some m) :
    takeEvent s .lpmEnter = s ∧ takeEvent s .frzEnter = s := by
  have hbusy : s.noReception = false := by
    rw [Bool.eq_false_iff, Ne, noReception_iff]
    intro h
    simp [h i] at hm
  constructor <;> exact if_neg (by simp [enabled, hbusy])

/-- A low-power request is acknowledged with no reception in progress (R225). -/
theorem takeEvent_lpmEnter_mode (hnone : s.noReception = true) (hl : lpmAck s.mcr = false) (hreq : mdis s.mcr = true) :
    (takeEvent s .lpmEnter).mode = .disabled := by
  rw [takeEvent, if_pos (by simp [enabled, hnone, hl, hreq])]
  have hack : lpmAck (s.mcr ||| bitAt true 20) = true := by
    rw [lpmAck, BitVec.getLsbD_or, getLsbD_bitAt _ _ _ (by decide)]
    simp
  simp [effect, State.mode, modeOf, hack]

/-- A freeze request is acknowledged with no reception in progress (R225). -/
theorem takeEvent_frzEnter_mode (hnone : s.noReception = true) (hl : lpmAck s.mcr = false) (hf : frzAck s.mcr = false)
    (hdis : mdis s.mcr = false) (hfrz : frz s.mcr = true) (hhalt : halt s.mcr = true) :
    (takeEvent s .frzEnter).mode = .frozen := by
  rw [takeEvent, if_pos (by simp [enabled, hnone, hl, hf, hdis, hfrz, hhalt])]
  have hlow : lpmAck (s.mcr ||| bitAt true 24) = false := by
    rw [lpmAck, BitVec.getLsbD_or, getLsbD_bitAt _ _ _ (by decide), show s.mcr.getLsbD 20 = false from hl]
    simp
  have hack : frzAck (s.mcr ||| bitAt true 24) = true := by
    rw [frzAck, BitVec.getLsbD_or, getLsbD_bitAt _ _ _ (by decide)]
    simp
  simp [effect, State.mode, modeOf, hack, hlow]

end

end Sys2Proof.Machine

open Sys2Proof Sys2Proof.Machine

/-- Settles O15: each of the three steps is enabled where the one before it leaves the reception, and the words the last one leaves
unpack to the frame; a mode request waits for that one. -/
theorem receptionDeliversTheFrame : Obligations.ReceptionDeliversTheFrame := by
  intro s i f ts prio srr dlc p0 p1 v w hen hlv hfv hlw hfw hgo begun stored t r
  have hbegin := hen
  simp only [enabled, Bool.and_eq_true] at hbegin
  obtain ⟨⟨⟨⟨-, -⟩, hnone⟩, -⟩, hf⟩ := hbegin
  have hbegun : begun = _ := rxBegin_receivingInto hen v
  have hstored : stored = s.receivingInto i f ts true w (storedMailbox (s.mb.get i) f ts prio srr dlc p0 p1) := by
    rw [show stored = { takeEvent begun (.rxWrite i prio srr dlc p0 p1) with mcr := w } from rfl, hbegun]
    exact rxWrite_receivingInto prio srr dlc p0 p1 hlv hfv (hgo.imp_right And.left) w
  have ht : t = s.received i w (receivedMailbox (s.mb.get i) f ts prio srr dlc p0 p1) := by
    rw [show t = takeEvent stored (.rxEnd i) from rfl, hstored]
    exact rxEnd_receivingInto prio srr dlc p0 p1 hlw hfw (hgo.imp_right And.right)
  have hmb : t.mb.get i = receivedMailbox (s.mb.get i) f ts prio srr dlc p0 p1 := by
    rw [ht]
    exact get_put_self _ _ _
  have hmcr : t.mcr = w := by rw [ht]; rfl
  have hidle : t.noReception = true := by
    rw [noReception_iff] at hnone ⊢
    intro j
    rw [ht, State.received, get_put, hnone j, ite_self]
  have hwait := takeEvent_request_of_reception (s := stored) (i := i) (by rw [hstored]; exact receivingInto_rxStage _ _ _ _ _ _ _)
  refine ⟨?_, ?_, fun hremote => ?_, ?_, fun k _ => ?_, hwait.1, hwait.2, fun hdis => ?_, fun hdis hfrz hhalt => ?_⟩
  · rw [State.stateAt, codeAt_of_get hmb, receivedMailbox, codeOf_withCode, decodeState_encodeState]
    rfl
  · rw [hmb]
    exact unpack_receivedMailbox _ hf _ _ _ _ _ _ _
  · rw [hmb, receivedMailbox, storedMailbox, receivedWords_of_isRemote hremote]
    exact ⟨rfl, rfl⟩
  · rw [hmb, ht]
    rfl
  · rw [ht]
    simp [State.received, raiseFlag, getLsbD_flagMask]
  · exact takeEvent_lpmEnter_mode hidle (hmcr ▸ hlw) (hmcr ▸ hdis)
  · exact takeEvent_frzEnter_mode hidle (hmcr ▸ hlw) (hmcr ▸ hfw) (hmcr ▸ hdis) (hmcr ▸ hfrz) (hmcr ▸ hhalt)
end

section
/-! 43_transmit_arbiter.md R180 to R187: TXQUICK and TX. Both end in MBWRITE of the frame into a transmit mailbox that is Tx(Inactive)
or, after TX's abort, Tx(Abort); before it come CS reads (TXQUICK) or peeks (TX), which choose the mailbox. -/

namespace Sys2Proof.Machine

/-! ### Installing the frame -/

/-- The state after MBWRITE of `f` with TX_HDR into the transmit mailbox `i`, with a peripheral that takes no step
(42_mailbox_store.md R145, 43_transmit_arbiter.md R180). -/
def State.installed (s : State) (i : Fin 16) (f : Frame) : State :=
  { s with
    mb := put s.mb i (written (s.mb.get i) txHdr f)
    iflag := s.iflag &&& ~~~(1#32 <<< i.val)
    lockedMb := some i
    abortReq := put s.abortReq i false
    rxStage := put s.rxStage i none
    schedule := s.schedule.drop (1 + (writeLog i txHdr f).length)
    accesses := s.accesses ++ .read (.mb i 0) (s.mb.get i).cs :: writeLog i txHdr f }

section
variable {s : State} (hp : s.params.accessPermitted = true) (hq : s.quiet) {i : Fin 16} (hi : i.val < 8)
  (hst : s.stateAt i = some (.tx .abort) ∨ s.stateAt i = some (.tx .inactive))
include hp hq hi hst

/-- A transmit mailbox that is Tx(Inactive) or Tx(Abort) takes the frame; the CS write of a pending code arms no late completion and
withdraws an abort request (48_peripheral_agent.md R227). -/
theorem mbwrite_installed (f : Frame) : mbwrite i txHdr f s = .ok () (s.installed i f) := by
  have hrole : txHdr.code.role = roleOfIndex i := (if_pos hi).symm
  obtain ⟨cur, hcur, hw⟩ : ∃ cur, s.stateAt i = some cur ∧ writable cur = true :=
    hst.elim (fun h => ⟨_, h, rfl⟩) fun h => ⟨_, h, rfl⟩
  rw [mbwrite_quiet i txHdr f cur hp ((quiet_iff s).mp hq) hrole rfl hcur hw, drop_of_quiet hq, csWriteHidden_abortReq,
    csWriteHidden_lateTx, codeOf_csWord, if_neg (by rintro ⟨-, -, hpending, -⟩; exact hpending rfl)]
  rfl

theorem installAfterAbort_installed (f : Frame) (ev : Option Frame) :
    installAfterAbort f i (.ok ev s) = .ok ev (s.installed i f) := by
  rw [installAfterAbort, Res.bind_ok, mbwrite_installed hp hq hi hst, Res.bind_ok]

end

/-! ### The transmit mailboxes, ascending -/

/-- Mailbox `j` is not free: its code decodes, to a state other than Tx(Inactive) (43_transmit_arbiter.md R181, R182). -/
def State.Taken (s : State) (j : Fin 16) : Prop := ∃ st, s.stateAt j = some st ∧ st ≠ .tx .inactive

/-- The transmit mailboxes cut at mailbox `i`. -/
theorem txIdx_cut {i : Fin 16} (hi : i.val < 8) :
    txIdx = (List.finRange 16).take i.val ++ i :: txIdx.drop (i.val + 1) := by
  revert i
  decide

theorem lt_of_mem_txIdx {j : Fin 16} (hj : j ∈ txIdx) : j.val < 8 := by
  revert j
  decide

theorem lt_of_mem_take {i j : Fin 16} (hj : j ∈ (List.finRange 16).take i.val) : j < i := by
  obtain ⟨k, hk, rfl⟩ := List.mem_take_iff_getElem.mp hj
  rw [List.getElem_finRange, Fin.lt_def]
  exact (Nat.lt_min.mp hk).1

/-! ### TXQUICK's pass -/

/-- The state after CS reads of the mailboxes `l`, with a peripheral that takes no step. -/
def State.scanned (s : State) (l : List (Fin 16)) : State :=
  { s with
    lockedMb := l.getLast?.or s.lockedMb
    schedule := s.schedule.drop l.length
    accesses := s.accesses ++ l.map fun j => .read (.mb j 0) (s.mb.get j).cs }

theorem State.scanned_nil (s : State) : s.scanned [] = s := by simp [State.scanned]

theorem State.scanned_scanned (s : State) (l l' : List (Fin 16)) : (s.scanned l).scanned l' = s.scanned (l ++ l') := by
  simp [State.scanned, Option.or_assoc]

section
variable {s : State} (hp : s.params.accessPermitted = true) (hq : s.quiet)
include hp hq

theorem readCode_scanned {i : Fin 16} {st : BufferState} (hst : s.stateAt i = some st) :
    readCode i s = .ok st (s.scanned [i]) := by
  have hcode : decodeState (codeOf (s.mb.get i).cs) = some st := hst
  rw [readCode, readCs_eq hp, Res.bind_ok, State.afterCsRead, gap_quiet hq, decodeOrRaise_some hcode]
  simp [State.scanned]

/-- Mailboxes that are not free are passed over (43_transmit_arbiter.md R181). -/
theorem txquickScan_append (f : Frame) (l rest : List (Fin 16)) (hl : ∀ j ∈ l, s.Taken j) :
    txquickScan f (l ++ rest) s = txquickScan f rest (s.scanned l) := by
  induction l generalizing s with
  | nil => rw [List.nil_append, State.scanned_nil]
  | cons j l ih =>
    obtain ⟨⟨st, hj, hbusy⟩, hl⟩ := List.forall_mem_cons.mp hl
    rw [List.cons_append, txquickScan, readCode_scanned hp hq hj, Res.bind_ok, if_neg hbusy,
      ih (s := s.scanned [j]) hp (quiet_drop hq _) hl, State.scanned_scanned, List.singleton_append]

/-- The first free mailbox takes the frame (43_transmit_arbiter.md R181). -/
theorem txquickScan_free {i : Fin 16} (hi : i.val < 8) (hst : s.stateAt i = some (.tx .inactive)) (f : Frame)
    (rest : List (Fin 16)) : txquickScan f (i :: rest) s = .ok () ((s.scanned [i]).installed i f) := by
  rw [txquickScan, readCode_scanned hp hq hst, Res.bind_ok, if_pos rfl,
    mbwrite_installed (s := s.scanned [i]) hp (quiet_drop hq _) hi (.inr hst)]

theorem txquickScan_installs {i : Fin 16} (hi : i.val < 8) (hbefore : ∀ j, j < i → s.Taken j)
    (hst : s.stateAt i = some (.tx .inactive)) (f : Frame) :
    txquickScan f txIdx s = .ok () ((s.scanned ((List.finRange 16).take (i.val + 1))).installed i f) := by
  have htake : (List.finRange 16).take (i.val + 1) = (List.finRange 16).take i.val ++ [i] := by
    rw [← List.take_append_getElem (by simp), List.getElem_finRange]
    rfl
  rw [txIdx_cut hi, txquickScan_append hp hq _ _ _ fun j hj => hbefore j (lt_of_mem_take hj),
    txquickScan_free (s := s.scanned _) hp (quiet_drop hq _) hi hst, State.scanned_scanned, htake]

theorem txquickScan_exhausted (hfull : ∀ j : Fin 16, j.val < 8 → s.Taken j) (f : Frame) :
    txquickScan f txIdx s = .err .bufferExhausted (s.scanned txIdx) :=
  txquickScan_append hp hq f txIdx [] fun j hj => hfull j (lt_of_mem_txIdx hj)

end

end Sys2Proof.Machine

open Sys2Proof Sys2Proof.Machine

/-- Settles O37: the pass reads the mailboxes before the free one and that one, and MBWRITE reads it again. -/
theorem txquickCompletes : Obligations.TxquickCompletes := by
  rintro s f i ⟨hb, hp⟩ hq hops hi hbefore hst
  have hlast : ((List.finRange 16).take (i.val + 1)).length = i.val + 1 := by simp
  rw [exec_txquick_some hops, issue_of_ok hb (by rw [returnUnit,
    txquickScan_installs (s := s.started) hp hq hi hbefore hst, Res.bind_ok]), State.finished, ← hb, State.installed,
    State.scanned, List.drop_drop, hlast, ← Nat.add_assoc]
  rfl

/-- Settles O38: the pass reads every transmit mailbox and ends. -/
theorem txquickExhausted : Obligations.TxquickExhausted := by
  rintro s f ⟨hb, hp⟩ hq hops hfull
  rw [exec_txquick_some hops, issue_of_err hb (by rw [returnUnit, txquickScan_exhausted (s := s.started) hp hq hfull,
    Res.bind_err]), State.finished, ← hb]
  rfl
end

section
/-! 43_transmit_arbiter.md R186: TXQUICK commands one after another, from eight free mailboxes, each filling the next one. -/

namespace Sys2Proof.Machine

/-- One step more at the end of a run. -/
theorem runSteps_step {s t u : State} {k : Nat} (h : runSteps k s = .next t) (hstep : step t = .next u) :
    runSteps (k + 1) s = .next u := by
  induction k generalizing s with
  | zero =>
    obtain rfl : s = t := Host.Outcome.next.inj h
    exact runSteps_one hstep
  | succ k ih =>
    cases hs : step s with
    | next v =>
      rw [runSteps_succ hs] at h ⊢
      exact ih h
    | fault r => cases r
    | refused r =>
      have hcore : Sys2Proof.core.step s = .refused r := hs
      simp [runSteps, Host.Core.run, hcore] at h

section
variable {s : State} {ops : OperandPort} {rest : List Request} (hr : s.ready) (hq : s.quiet)
  (hreqs : s.requests = .command 0x00000008 ops :: rest) {f : Frame} (hops : frameOperand ops.frame = some f)
include hr hq hreqs hops

/-- What a TXQUICK command that finds a free mailbox leaves for the next command. -/
theorem step_txquick {i : Fin 16} (hi : i.val < 8) (hbefore : ∀ j, j < i → s.Taken j)
    (hst : s.stateAt i = some (.tx .inactive)) :
    ∃ u, step s = .next u ∧ u.result = some (.ok .unit) ∧ u.ready ∧ u.quiet ∧ u.requests = rest ∧
      u.mb = put s.mb i (written (s.mb.get i) txHdr f) :=
  ⟨_, (step_command hr.1 hreqs (by decide)).trans
    (txquickCompletes { s with requests := rest, operands := ops } f i hr hq hops hi hbefore hst),
    rfl, hr, quiet_drop hq _, rfl, rfl⟩

/-- What a TXQUICK command that finds no free mailbox leaves. -/
theorem step_txquick_exhausted (hfull : ∀ j : Fin 16, j.val < 8 → s.Taken j) :
    ∃ u, step s = .next u ∧ u.result = some (.err .bufferExhausted) ∧ u.mb = s.mb ∧ u.iflag = s.iflag :=
  ⟨_, (step_command hr.1 hreqs (by decide)).trans
    (txquickExhausted { s with requests := rest, operands := ops } f hr hq hops hfull), rfl, rfl, rfl⟩

end

/-- The requests that submit the frames `fs`, by one TXQUICK command each. -/
def txquickRequests (ops : Frame → OperandPort) (fs : List Frame) : List Request :=
  fs.map fun f => .command 0x00000008 (ops f)

/-- `t` comes after `k` of the TXQUICK commands for the frames `fs`, from the state `s`: the transmit mailboxes below `k` are
pending, the others as in `s`. -/
structure FilledUpTo (s : State) (ops : Frame → OperandPort) (fs : List Frame) (rest : List Request) (k : Nat) (t : State) :
    Prop where
  ready : t.ready
  quiet : t.quiet
  requests : t.requests = txquickRequests ops (fs.drop k) ++ rest
  pending : ∀ j : Fin 16, j.val < k → t.codeAt j = 0b1100#4
  untouched : ∀ j : Fin 16, k ≤ j.val → t.mb.get j = s.mb.get j

section
variable {s t : State} {ops : Frame → OperandPort} {fs : List Frame} {rest : List Request} {k : Nat}
  (h : FilledUpTo s ops fs rest k t)
include h

/-- The next request is TXQUICK of the next frame. -/
theorem FilledUpTo.requests_eq (hlt : k < fs.length) :
    t.requests = .command 0x00000008 (ops fs[k]) :: (txquickRequests ops (fs.drop (k + 1)) ++ rest) := by
  rw [h.requests, List.drop_eq_getElem_cons hlt]
  rfl

theorem FilledUpTo.taken {j : Fin 16} (hj : j.val < k) : t.Taken j :=
  ⟨_, stateAt_of_pending (h.pending j hj), by decide⟩

/-- With mailbox `k` free, its frame goes there. -/
theorem FilledUpTo.step_fills (hops : ∀ f ∈ fs, frameOperand (ops f).frame = some f) (hlt : k < fs.length) (hk : k < 8)
    {i : Fin 16} (hi : i.val = k) (hfree : s.codeAt i = 0b1000#4) :
    ∃ u, step t = .next u ∧ u.result = some (.ok .unit) ∧ u.mb.get i = written (s.mb.get i) txHdr fs[k] ∧
      FilledUpTo s ops fs rest (k + 1) u := by
  have hsame := h.untouched i hi.ge
  have hst : t.stateAt i = some (.tx .inactive) := by
    rw [State.stateAt, codeAt_of_get hsame, show codeOf (s.mb.get i).cs = 0b1000#4 from hfree]
    rfl
  obtain ⟨u, hstep, hresult, hu, huq, hureqs, hmb⟩ := step_txquick h.ready h.quiet (h.requests_eq hlt)
    (hops _ (List.getElem_mem hlt)) (i := i) (by omega) (fun j hj => h.taken (hi ▸ hj)) hst
  have hself : u.mb.get i = written (s.mb.get i) txHdr fs[k] := by rw [hmb, get_put_self, hsame]
  have hother : ∀ {j}, i ≠ j → u.mb.get j = t.mb.get j := fun hij => by rw [hmb, get_put_ne _ _ hij]
  refine ⟨u, hstep, hresult, hself, hu, huq, hureqs, fun j hj => ?_, fun j hj => ?_⟩
  · by_cases hij : i = j
    · subst hij
      exact (codeAt_of_get hself).trans (codeOf_csWord _ _)
    · have hj' : j.val < k := by omega
      exact (codeAt_of_get (hother hij)).trans (h.pending j hj')
  · have hij : i ≠ j := by
      rintro rfl
      omega
    exact (hother hij).trans (h.untouched j (by omega))

end

/-- Up to eight TXQUICK commands fill as many mailboxes, in order. -/
theorem exists_filledUpTo {s : State} {ops : Frame → OperandPort} {fs : List Frame} {rest : List Request} (hr : s.ready)
    (hq : s.quiet) (hops : ∀ f ∈ fs, frameOperand (ops f).frame = some f)
    (hreqs : s.requests = txquickRequests ops fs ++ rest) (hfree : ∀ j : Fin 16, j.val < 8 → s.codeAt j = 0b1000#4) {k : Nat}
    (hk : k ≤ 8) (hlen : k ≤ fs.length) : ∃ t, runSteps k s = .next t ∧ FilledUpTo s ops fs rest k t := by
  induction k with
  | zero => exact ⟨s, rfl, hr, hq, hreqs, fun _ hj => absurd hj (Nat.not_lt_zero _), fun _ _ => rfl⟩
  | succ k ih =>
    obtain ⟨t, hrun, ht⟩ := ih (by omega) (by omega)
    obtain ⟨u, hstep, -, -, hu⟩ := ht.step_fills hops hlen hk (i := ⟨k, by omega⟩) rfl (hfree _ hk)
    exact ⟨u, runSteps_step hrun hstep, hu⟩

end Sys2Proof.Machine

open Sys2Proof Sys2Proof.Machine

/-- Settles O39, by induction on the commands: each finds the mailboxes before its own pending and its own still free, and the ninth
finds all eight pending. -/
theorem eightTransmissionsThenExhausted : Obligations.EightTransmissionsThenExhausted := by
  intro s fs ops rest hr hq hlen hops hreqs hfree
  have hfilled : ∀ {k}, k ≤ 8 → ∃ t, runSteps k s = .next t ∧ FilledUpTo s ops fs rest k t := fun hk =>
    exists_filledUpTo hr hq hops hreqs hfree hk (by omega)
  constructor
  · intro k hk
    have hlt : k.val < fs.length := by omega
    obtain ⟨t, hrun, ht⟩ := hfilled hk.le
    obtain ⟨u, hstep, hresult, hmb, hu⟩ := ht.step_fills hops hlt hk rfl (hfree k hk)
    exact ⟨u, fs[k.val], runSteps_step hrun hstep, hresult, List.getElem?_eq_getElem hlt, hmb,
      fun j hj => hu.untouched j hj⟩
  · have hlt : 8 < fs.length := by omega
    obtain ⟨t, hrun, ht⟩ := hfilled le_rfl
    obtain ⟨u, hstep, hresult, hmb, hflags⟩ := step_txquick_exhausted ht.ready ht.quiet (ht.requests_eq hlt)
      (hops _ (List.getElem_mem hlt)) fun j hj => ht.taken hj
    exact ⟨t, u, hrun, runSteps_step hrun hstep, hresult, hmb, hflags⟩
end

section
/-! 43_transmit_arbiter.md R182 to R185, R187: TX's snapshot by eight peeks, its decision on it, and the eviction. -/

namespace Sys2Proof.Machine

/-! ### The snapshot -/

/-- TX in a quiet run is its decision on the snapshot of the mailboxes as they are (43_transmit_arbiter.md R182). -/
theorem transmit_decides {s : State} (hp : s.params.accessPermitted = true) (hq : s.quiet)
    (hst : ∀ j : Fin 16, j.val < 8 → s.stateAt j ≠ none) (f : Frame) :
    transmit f s = txDecide f (snapshotOf s txIdx) (s.afterSnapshot (s.schedule.drop 40)) := by
  have hlog : snapshotAccesses s s.draws txIdx = snapshotLog s := by simp [snapshotAccesses, snapshotLog, txIdx]
  rw [transmit, peekAll_quiet txIdx hp ((quiet_iff s).mp hq) fun j hj => hst j (lt_of_mem_txIdx hj), Res.bind_ok, hlog,
    drop_of_quiet hq]
  rfl

theorem firstInactive_eq_some {s : State} {i : Fin 16} (hi : i.val < 8) (hst : s.stateAt i = some (.tx .inactive))
    (hbefore : ∀ j, j < i → s.Taken j) : firstInactive (snapshotOf s txIdx) = some i := by
  have hfound : (snapshotOf s txIdx).find? (fun m => m.2.1.code == .tx .inactive) = some (snapshotEntry s i) := by
    rw [snapshotOf_eq, txIdx_cut hi, List.map_append, List.map_cons]
    refine List.find?_eq_some_iff_append.mpr ⟨by simp [snapshotEntry_code, hst], _, _, rfl, ?_⟩
    rw [List.forall_mem_map]
    intro j hj
    obtain ⟨st, hj, hne⟩ := hbefore j (lt_of_mem_take hj)
    simpa [snapshotEntry_code, hj] using hne
  rw [firstInactive, hfound]
  rfl

theorem firstInactive_eq_none {s : State} (hfull : ∀ j : Fin 16, j.val < 8 → s.Taken j) :
    firstInactive (snapshotOf s txIdx) = none := by
  rw [firstInactive, Option.map_eq_none_iff, List.find?_eq_none, snapshotOf_eq, List.forall_mem_map]
  intro j hj
  obtain ⟨st, hst, hne⟩ := hfull j (lt_of_mem_txIdx hj)
  simpa [snapshotEntry_code, hst] using hne

/-- The worst pending mailbox of a snapshot is a pending one, with the frame it holds. -/
theorem mem_worstPending {s : State} {l : List (Fin 16)} {m : Fin 16 × Frame} (hm : m ∈ worstPending (snapshotOf s l)) :
    ∃ j ∈ l, s.codeAt j = 0b1100#4 ∧ m = (j, s.heldFrame j) := by
  revert m
  rw [worstPending, snapshotOf_eq]
  refine List.foldlRecOn (motive := fun acc => ∀ {m : Fin 16 × Frame}, m ∈ acc →
    ∃ j ∈ l, s.codeAt j = 0b1100#4 ∧ m = (j, s.heldFrame j)) _ _ (by simp) fun acc hacc _ hentry m hm => ?_
  obtain ⟨j, hj, rfl⟩ := List.mem_map.mp hentry
  rcases mem_worsePending hm with hold | hnew
  · exact hacc hold
  · exact ⟨j, hj, hnew⟩

/-! ### The decision (43_transmit_arbiter.md R182, R184) -/

theorem transmit_places {s : State} (hp : s.params.accessPermitted = true) (hq : s.quiet) {i : Fin 16} (hi : i.val < 8)
    (hdec : ∀ j : Fin 16, j.val < 8 → s.stateAt j ≠ none) (hbefore : ∀ j, j < i → s.stateAt j ≠ some (.tx .inactive))
    (hst : s.stateAt i = some (.tx .inactive)) (f : Frame) :
    transmit f s = .ok none ((s.afterSnapshot (s.schedule.drop 40)).installed i f) := by
  have hfirst : firstInactive (snapshotOf s txIdx) = some i := by
    refine firstInactive_eq_some hi hst fun j hj => ?_
    obtain ⟨st, hj'⟩ := Option.ne_none_iff_exists'.mp (hdec j (Nat.lt_trans hj hi))
    exact ⟨st, hj', fun hfree => hbefore j hj (hfree ▸ hj')⟩
  rw [transmit_decides hp hq hdec, txDecide, hfirst]
  dsimp only
  rw [mbwrite_installed (s := s.afterSnapshot _) hp (quiet_drop hq _) hi (.inr hst), Res.bind_ok]

theorem transmit_exhausted {s : State} (hp : s.params.accessPermitted = true) (hq : s.quiet) {f : Frame}
    (hfull : ∀ j : Fin 16, j.val < 8 → s.Taken j)
    (hle : ∀ j : Fin 16, j.val < 8 → s.codeAt j = 0b1100#4 → (s.heldFrame j).id.num ≤ f.id.num) :
    transmit f s = .err .bufferExhausted (s.afterSnapshot (s.schedule.drop 40)) := by
  have hdec : ∀ j : Fin 16, j.val < 8 → s.stateAt j ≠ none := fun j hj hnone => by
    obtain ⟨st, hst, -⟩ := hfull j hj
    cases hnone.symm.trans hst
  rw [transmit_decides hp hq hdec, txDecide, firstInactive_eq_none hfull]
  dsimp only
  cases hworst : worstPending (snapshotOf s txIdx) with
  | none => rfl
  | some m =>
    obtain ⟨j, hj, hpend, rfl⟩ := mem_worstPending hworst
    exact if_neg (Nat.not_lt.mpr (hle j (lt_of_mem_txIdx hj) hpend))

/-! ### The eviction -/

/-- The state after an abort of mailbox `i` that has ended, the CS word being `cs` then, `rest` what is left of the schedule and `log`
the accesses. -/
def State.afterAbort (s : State) (i : Fin 16) (cs : Word) (rest : List (List Event)) (log : List Access) : State :=
  { s with
    mb := put s.mb i { s.mb.get i with cs := cs }
    iflag := s.iflag &&& ~~~(1#32 <<< i.val)
    lockedMb := none
    abortReq := put s.abortReq i false
    rxStage := put s.rxStage i none
    timer := Config.freeTimer s.draws
    draws := s.draws + 1
    schedule := rest
    accesses := log }

theorem State.afterAbort_stateAt (s : State) (i : Fin 16) (cs : Word) (rest : List (List Event)) (log : List Access) :
    (s.afterAbort i cs rest log).stateAt i = decodeState (codeOf cs) := by
  rw [State.stateAt, codeAt_of_get (get_put_self _ _ _)]

theorem clear_cleared (f : Word) (i : Fin 16) :
    f &&& ~~~(1#32 <<< i.val) &&& ~~~(1#32 <<< i.val) = f &&& ~~~(1#32 <<< i.val) := by
  rw [BitVec.and_assoc, BitVec.and_self]

/-- Installing a frame after an abort leaves what installing it at once leaves, but for the timer and what is recorded. -/
theorem State.installed_afterAbort (s : State) (i : Fin 16) (cs : Word) (rest : List (List Event)) (log : List Access) (f : Frame) :
    (s.afterAbort i cs rest log).installed i f =
      { s.installed i f with
        timer := Config.freeTimer s.draws
        draws := s.draws + 1
        schedule := rest.drop (1 + (writeLog i txHdr f).length)
        accesses := log ++ .read (.mb i 0) cs :: writeLog i txHdr f } := by
  simp [State.installed, State.afterAbort, clear_cleared, written]

/-- The same after MBREAD. -/
theorem State.installed_afterMbread (s : State) (i : Fin 16) (f : Frame) :
    (s.afterMbread i).installed i f =
      { s.installed i f with
        timer := Config.freeTimer s.draws
        draws := s.draws + 1
        schedule := s.schedule.drop (7 + (writeLog i txHdr f).length)
        accesses := s.accesses ++ readLog s.draws i (s.mb.get i) ++ .read (.mb i 0) (s.mb.get i).cs :: writeLog i txHdr f } := by
  simp [State.installed, State.afterMbread, clear_cleared, ← Nat.add_assoc]

/-- The answered abort leaves the Abort code, or Tx(Inactive) if the frame was sent (48_peripheral_agent.md R214). -/
theorem mbabort_afterAbort {s : State} {i : Fin 16} (hp : s.params.accessPermitted = true) (c : AbortCaller) (sent : Bool)
    (ts : BitVec 16) {rest : List (List Event)} (hs : s.schedule = [] :: [] :: [] :: [.abortResolve i sent ts] :: rest)
    (hrest : ∀ es ∈ rest, es = []) (hrun : s.mode = .running) (hpend : s.codeAt i = 0b1100#4) :
    ∃ cs log, (decodeState (codeOf cs) = some (.tx .abort) ∨ decodeState (codeOf cs) = some (.tx .inactive)) ∧
      mbabort c i s = .ok (if sent then none else some (s.heldFrame i)) (s.afterAbort i cs (rest.drop 6) log) := by
  refine ⟨_, _, ?_, mbabort_answered hp c sent ts hs hrest hrun hpend⟩
  cases sent with
  | true => exact .inr (by rw [if_pos rfl, codeOf_sentCs]; rfl)
  | false => exact .inl (by rw [if_neg Bool.false_ne_true, codeOf_withCode]; rfl)

/-- TX of a frame that evicts mailbox `w`, whose abort the peripheral answers before the first flag read, installs the frame there
and returns what the abort returns (43_transmit_arbiter.md R182, R185). -/
theorem transmit_installs_after_abort {s : State} {w : Fin 16} {f : Frame} {sent : Bool} {ts : BitVec 16}
    {rest : List (List Event)} (hp : s.params.accessPermitted = true) (hrun : s.mode = .running) (h : EvictionTarget s w f)
    (hs : s.schedule = List.replicate 43 [] ++ [.abortResolve w sent ts] :: rest) (hrest : ∀ es ∈ rest, es = []) :
    ∃ cs rest' log, transmit f s = .ok (if sent then none else some (s.heldFrame w))
      (((s.afterSnapshot rest').afterAbort w cs (rest.drop 6) log).installed w f) := by
  obtain ⟨cs, log, hcode, habort⟩ := mbabort_afterAbort
    (s := s.afterSnapshot ([] :: [] :: [] :: [.abortResolve w sent ts] :: rest)) hp (.tx f) sent ts rfl hrest hrun h.pending
  have hturns : s.schedule = List.replicate 40 [] ++ [] :: [] :: [] :: [.abortResolve w sent ts] :: rest := hs
  refine ⟨cs, [] :: [] :: [] :: [.abortResolve w sent ts] :: rest, log, ?_⟩
  rw [transmit_evicts hp hturns h, habort]
  exact installAfterAbort_installed (by exact hp) (fun es hes => hrest es (List.mem_of_mem_drop hes)) h.transmit
    (by rwa [State.afterAbort_stateAt]) f _

/-- An abort of TX that goes on from a spin and finds mailbox `i` Abort or Inactive installs the frame. -/
theorem continueAbort_installed {s : State} {i : Fin 16} (hp : s.params.accessPermitted = true) (hq : s.quiet) (hi : i.val < 8)
    (hst : s.stateAt i = some (.tx .abort) ∨ s.stateAt i = some (.tx .inactive)) (f : Frame) (n : Nat) :
    continueAbort (.tx f) i (abortOutcome (readFrom (.abort (.tx f)) i n s)) =
      .ok (if s.stateAt i = some (.tx .abort) then some (s.heldFrame i) else none) ((s.afterMbread i).installed i f) := by
  have hinstall : ∀ ev, installAfterAbort f i (.ok ev (s.afterMbread i)) = .ok ev ((s.afterMbread i).installed i f) := fun ev =>
    installAfterAbort_installed (s := s.afterMbread i) hp (quiet_drop hq _) hi hst f ev
  rcases hst with hst | hst <;> rw [readFrom_idle hp hq _ _ hst rfl, hst]
  · exact hinstall _
  · exact hinstall _

end Sys2Proof.Machine

open Sys2Proof Sys2Proof.Machine

/-- Settles O40: the snapshot's first free mailbox is the one that takes the frame. -/
theorem txPlacesTheFrame : Obligations.TxPlacesTheFrame := by
  rintro s f i ⟨hb, hp⟩ hq hops hi hdec hbefore hst
  rw [exec_tx_some hops, issue_of_ok hb (by rw [returnMaybeFrame,
    transmit_places (s := s.started) hp hq hi hdec hbefore hst, Res.bind_ok]), State.finished, ← hb, State.installed,
    State.afterSnapshot, List.drop_drop, ← Nat.add_assoc]
  rfl

/-- Settles O41: the peripheral answers the abort before its first flag read, or the abort goes on from its spin, and the mailbox it
leaves takes the frame. -/
theorem txEvictsTheWorstPending : Obligations.TxEvictsTheWorstPending := by
  constructor
  · rintro s f w sent ts rest ⟨hb, hp⟩ hrun hops htarget hs hrest
    obtain ⟨cs, rest', log, htransmit⟩ := transmit_installs_after_abort (s := s.started) hp hrun htarget.started hs hrest
    rw [State.installed_afterAbort] at htransmit
    rw [exec_tx_some hops, issue_of_ok hb (by rw [returnMaybeFrame, htransmit, Res.bind_ok])]
    exact ⟨_, rfl, rfl, rfl, rfl, rfl, rfl, rfl, rfl, rfl, rfl, rfl, rfl, rfl, rfl, rfl, rfl⟩
  · intro s f w p found hb hends hw hp hq hst
    obtain ⟨n, hresume⟩ := resumeFrom_of_abortEnds hp hq hends
    have hinstall := continueAbort_installed (s := s.advanced found) hp (quiet_drop hq _) hw hst f n
    rw [step_spinning hb, resume, hresume, hinstall, State.installed_afterMbread, returnMaybeFrame, Res.bind_ok, finish_ok,
      State.finished, State.advanced, List.drop_drop, ← Nat.add_assoc]
    rfl

/-- Settles O42: the worst pending mailbox, if there is one, holds a frame that is not larger. -/
theorem txRefusesLowerPriority : Obligations.TxRefusesLowerPriority := by
  rintro s f ⟨hb, hp⟩ hq hops hfull hle
  rw [exec_tx_some hops, issue_of_err hb (by rw [returnMaybeFrame,
    transmit_exhausted (s := s.started) hp hq hfull hle, Res.bind_err]), State.finished, ← hb]
  rfl
end

section
/-! 44_receive_scanner.md R200 to R202: RX with no receive flag set, and RX commands one after another, each taking the first flag. -/

namespace Sys2Proof.Machine

/-! ### No receive flag -/

/-- No receive mailbox is flagged where bits 15:8 of IFLAG1 are 0. -/
theorem firstFlagged_eq_none {f : Word} (hf : f.extractLsb' 8 8 = 0#8) : firstFlagged f = none := by
  have hmem : ∀ i ∈ rxIdx, ∃ k < 8, i.val = 8 + k := by decide
  refine List.find?_eq_none.mpr fun i hi => ?_
  obtain ⟨k, hk, hik⟩ := hmem i hi
  have hbit : (f.extractLsb' 8 8).getLsbD k = false := by rw [hf, BitVec.getLsbD_zero]
  simpa [BitVec.getLsbD_extractLsb', hk, flagSet, hik] using hbit

/-- RX that finds no receive mailbox flagged raises BufferExhausted after that one read, whatever the peripheral does before it. -/
theorem receive_exhausted {s : State} (hp : s.params.accessPermitted = true) (hnone : firstFlagged (gap s).iflag = none) :
    receive s = .err .bufferExhausted ((gap s).logged (.read .iflag1 (gap s).iflag)) := by
  simp only [receive, readReg_eq _ hp, doRead_iflag1, Res.bind_ok, hnone, raise_eq]

/-! ### One command and the next -/

/-- What a command that is RX, with its first flag at a mailbox `i` that is not busy, leaves for the next command. -/
theorem step_rx {s : State} {i : Fin 16} {st : BufferState} {ops : OperandPort} {rest : List Request} (hr : s.ready)
    (hq : s.quiet) (hreqs : s.requests = .command 0x0000000A ops :: rest) (hi : 8 ≤ i.val) (hflag : flagSet s.iflag i = true)
    (hbefore : ∀ j : Fin 16, 8 ≤ j.val → j < i → flagSet s.iflag j = false) (hst : s.stateAt i = some st)
    (hidle : st.isBusy = false) :
    ∃ t, step s = .next t ∧ t.result = some (.ok (.frame (s.heldFrame i))) ∧ t.ready ∧ t.quiet ∧ t.requests = rest ∧
      t.mb = s.mb ∧ ∀ k, t.iflag.getLsbD k = (s.iflag.getLsbD k && !decide (k = i.val)) :=
  ⟨_, (step_command hr.1 hreqs (by decide)).trans
    (rxCompletes.1 { s with requests := rest, operands := ops } i st hr hq hi hflag hbefore hst hidle),
    rfl, hr, quiet_drop hq _, rfl, rfl, fun k => getLsbD_clearBit s.iflag i.val k (by omega)⟩

end Sys2Proof.Machine

open Sys2Proof Sys2Proof.Machine

/-- Settles O44: RX's one read finds no receive flag, whatever the peripheral did before it. -/
theorem rxEmpty : Obligations.RxEmpty := by
  rintro s ⟨hb, hp⟩ hf
  have hnone : firstFlagged (gap s.started).iflag = none := by
    rw [gap_started]
    exact firstFlagged_eq_none hf
  rw [exec_rx, issue_of_err hb (by rw [returnFrame, receive_exhausted (s := s.started) hp hnone, Res.bind_err]),
    State.finished, ← (gap_block s).trans hb, gap_started]
  rfl

/-- Settles O45: mailbox 10 is the first flagged one, and after its RX, which clears flag 10 alone, mailbox 13 is. -/
theorem rxTakesTheFirstFlagFirst : Obligations.RxTakesTheFirstFlagFirst := by
  intro s ops ops' rest st st' hr hq hreqs h10 h13 h8 h9 h11 h12 hst hidle hst' hidle'
  have hbefore10 : ∀ j : Fin 16, 8 ≤ j.val → j < 10 → flagSet s.iflag j = false := fun j hj hlt => by
    obtain rfl | rfl : j = 8 ∨ j = 9 := by omega
    · exact h8
    · exact h9
  obtain ⟨t, hstep, hresult, ht, htq, htreqs, hmb, hbits⟩ := step_rx hr hq hreqs (by decide) h10 hbefore10 hst hidle
  have hflag : ∀ j : Fin 16, flagSet t.iflag j = (flagSet s.iflag j && !decide (j.val = 10)) := fun j => hbits j.val
  have hbefore13 : ∀ j : Fin 16, 8 ≤ j.val → j < 13 → flagSet t.iflag j = false := fun j hj hlt => by
    obtain hlt | rfl | rfl | rfl : j < 10 ∨ j = 10 ∨ j = 11 ∨ j = 12 := by omega
    · rw [hflag, hbefore10 j hj hlt, Bool.false_and]
    · exact (hflag 10).trans (Bool.and_false _)
    · rw [hflag, h11, Bool.false_and]
    · rw [hflag, h12, Bool.false_and]
  have ht13 : flagSet t.iflag 13 = true := (hflag 13).trans ((Bool.and_true _).trans h13)
  have hst13 : t.stateAt 13 = some st' := by rwa [State.stateAt, State.codeAt, hmb]
  have hheld : t.heldFrame 13 = s.heldFrame 13 := by rw [State.heldFrame, hmb, State.heldFrame]
  obtain ⟨u, hstep', hresult', -, -, -, hmb', hbits'⟩ := step_rx ht htq htreqs (by decide) ht13 hbefore13 hst13 hidle'
  exact ⟨t, u, runSteps_one hstep, (runSteps_succ hstep 1).trans (runSteps_one hstep'), hresult, hheld ▸ hresult',
    fun k _ => hbits k, fun k _ => (hbits' k).trans (congrArg (· && _) (hbits k)), hmb, hmb'.trans hmb⟩
end

section
/-! 48_peripheral_agent.md R210, R212 to R214, R219, R222 to R225, R227: when each peripheral step is enabled, the state it leaves, and
the words and flags of that state bit by bit; then the hidden effects of the block's CS writes. -/

namespace Sys2Proof.Machine

/-! ### A scheduled step -/

section
variable {s : State} {e : Event}

theorem takeEvent_of_enabled (h : enabled e s = true) : takeEvent s e = effect e s := if_pos h

theorem takeEvent_of_not_enabled (h : ¬ enabled e s = true) : takeEvent s e = s := if_neg h

/-- A step whose guard is known happens or does not. -/
theorem takeEvent_eq_ite {guard : Prop} [Decidable guard] (h : enabled e s = true ↔ guard) :
    takeEvent s e = if guard then effect e s else s := by
  simp only [takeEvent, h]

end

/-! ### The guards -/

section
variable (s : State) (i : Fin 16)

theorem running_iff : s.running = true ↔ s.mode = .running := beq_iff_eq

/-- The transmit order as R213 words it: nothing, or no pending mailbox that goes before. -/
theorem orderAllows_iff : s.orderAllows i = true ↔ (s.params.hwTxOrder = .lowestIdFirst →
    ¬ ∃ j, j ≠ i ∧ s.codeAt j = 0b1100#4 ∧ (s.arbAt j < s.arbAt i ∨ (s.arbAt j = s.arbAt i ∧ j < i))) := by
  unfold State.orderAllows
  split
  · next h => simp [h]
  · next h => simp [h, or_iff_not_imp_left]

theorem arbAt_eq : s.arbAt i = if (s.mb.get i).cs.getLsbD 21 then ((s.mb.get i).idw.extractLsb' 0 29).toNat
    else ((s.mb.get i).idw.extractLsb' 18 11).toNat * 2 ^ 18 := by
  rw [State.arbAt, arbValue, Nat.shiftLeft_eq]

theorem enabled_txComplete_iff (ts : BitVec 16) : enabled (.txComplete i ts) s = true ↔
    s.mode = .running ∧ s.codeAt i = 0b1100#4 ∧ s.orderAllows i = true := by
  simp [enabled, running_iff, and_assoc]

theorem enabled_abortResolve_iff (sent : Bool) (ts : BitVec 16) : enabled (.abortResolve i sent ts) s = true ↔
    s.mode = .running ∧ s.codeAt i = 0b1001#4 ∧ s.abortReq.get i = true := by
  simp [enabled, running_iff, and_assoc]

theorem enabled_answerHavoc_iff (m : Mailbox) : enabled (.answerHavoc i m) s = true ↔
    s.mode = .running ∧ (s.codeAt i = 0b1110#4 ∨ s.codeAt i = 0b1010#4 ∨ s.codeAt i = 0b1011#4) := by
  simp [enabled, running_iff, answerCode, or_assoc]

theorem enabled_busError_iff (c : BitVec 4) (b : Bool) : enabled (.busError i c b) s = true ↔
    s.mode = .running ∧ s.params.havocOnBusError = true := by
  simp [enabled, running_iff]

theorem enabled_lateTx_iff : enabled (.lateTx i) s = true ↔ s.mode = .running ∧ s.lateTx.get i = true := by
  simp [enabled, running_iff]

theorem enabled_lateDrop_iff : enabled (.lateDrop i) s = true ↔ s.mode = .running ∧ s.lateTx.get i = true :=
  enabled_lateTx_iff s i

theorem enabled_lpmEnter_iff : enabled .lpmEnter s = true ↔
    mdis s.mcr = true ∧ lpmAck s.mcr = false ∧ ∀ j, s.rxStage.get j = none := by
  simp [enabled, noReception_iff, and_assoc]

theorem enabled_lpmExit_iff : enabled .lpmExit s = true ↔ mdis s.mcr = false ∧ lpmAck s.mcr = true := by
  simp [enabled]

theorem enabled_frzEnter_iff : enabled .frzEnter s = true ↔ lpmAck s.mcr = false ∧ mdis s.mcr = false ∧ frz s.mcr = true ∧
    halt s.mcr = true ∧ frzAck s.mcr = false ∧ ∀ j, s.rxStage.get j = none := by
  simp [enabled, noReception_iff, and_assoc]

theorem enabled_frzExit_iff : enabled .frzExit s = true ↔
    frzAck s.mcr = true ∧ (frz s.mcr = false ∨ halt s.mcr = false ∨ mdis s.mcr = true) := by
  simp [enabled, or_assoc]

theorem enabled_softRstDone_iff (m c f r : Word) : enabled (.softRstDone m c f r) s = true ↔
    softRst s.mcr = true ∧ lpmAck s.mcr = false := by
  simp [enabled]

end

/-- The modes in which a bus step may happen (R210): Running, and for the end of a reception in progress Transitional as well where the
model's own parameter is set (log 23). -/
theorem mode_of_enabled {s : State} {e : Event} (hbus : e.isMode = false) (h : enabled e s = true) : s.mode = .running ∨
    (s.params.rxFinishesUnderRequest = true ∧ e.finishesReception = true ∧ s.mode = .transitional) := by
  have hreceiving : s.receiving = true → s.mode = .running ∨
      (s.params.rxFinishesUnderRequest = true ∧ s.mode = .transitional) := by
    simp [State.receiving, running_iff]
  cases e with
  | lpmEnter | lpmExit | frzEnter | frzExit | softRstDone m c f r => cases hbus
  | rxWrite i prio srr dlc p0 p1 => exact (hreceiving (Bool.and_eq_true_iff.mp h).1).imp_right fun k => ⟨k.1, rfl, k.2⟩
  | rxEnd i => exact (hreceiving (Bool.and_eq_true_iff.mp h).1).imp_right fun k => ⟨k.1, rfl, k.2⟩
  | _ =>
    simp only [enabled, Bool.and_eq_true, running_iff] at h
    simp only [h, true_or]

/-! ### The words and flags a step leaves -/

/-- The CS word of a frame sent, bit by bit: CODE is Tx(Inactive), TIME_STAMP the capture (R212). -/
theorem getLsbD_sentCs (cs : Word) (ts : BitVec 16) (k : Nat) : (sentCs cs ts).getLsbD k =
    if 24 ≤ k ∧ k < 28 then (0b1000#4).getLsbD (k - 24) else if k < 16 then ts.getLsbD k else cs.getLsbD k := by
  rw [sentCs, getLsbD_withTimestamp, getLsbD_withCode]
  split_ifs
  · omega
  all_goals rfl

theorem getLsbD_raiseFlag (f : Word) (i : Fin 16) (k : Nat) :
    (raiseFlag f i).getLsbD k = (f.getLsbD k || decide (k = i.val)) := by
  rw [raiseFlag, BitVec.getLsbD_or, getLsbD_flagMask]

/-- MCR after a soft reset bit by bit (R225). -/
theorem getLsbD_mcrAfterSoftReset (mcr any : Word) {k : Nat} (hk : k < 32) : (mcrAfterSoftReset mcr any).getLsbD k =
    if k = 31 ∨ k = 20 then mcr.getLsbD k else if k = 30 ∨ k = 28 then true else if k = 25 then false else any.getLsbD k := by
  rw [mcrAfterSoftReset, BitVec.getLsbD_or, BitVec.getLsbD_or, BitVec.getLsbD_and, BitVec.getLsbD_and]
  interval_cases k <;> simp

/-! ### The effects -/

/-- What ABORT_RESOLVE leaves: the frame was sent, or the mailbox is as it was (R214). -/
theorem effect_abortResolve (i : Fin 16) (sent : Bool) (ts : BitVec 16) (s : State) : effect (.abortResolve i sent ts) s =
    { s with
      mb := put s.mb i { s.mb.get i with cs := if sent then sentCs (s.mb.get i).cs ts else (s.mb.get i).cs }
      iflag := raiseFlag s.iflag i
      abortReq := put s.abortReq i false } := by
  cases sent with
  | true => rfl
  | false =>
    have hput : put s.mb i { s.mb.get i with cs := (s.mb.get i).cs } = s.mb := put_get _ _
    simp only [Bool.false_eq_true, if_false, hput]
    rfl

/-- What BUS_ERROR leaves (R223). -/
theorem effect_busError (i : Fin 16) (c : BitVec 4) (b : Bool) (s : State) : effect (.busError i c b) s =
    { s with
      mb := put s.mb i { s.mb.get i with cs := withCode (s.mb.get i).cs c }
      iflag := if b then raiseFlag s.iflag i else s.iflag } := by
  cases b <;> rfl

/-- A mode step but SOFTRST_DONE changes MCR alone (R225). -/
theorem effect_mode_eq {e : Event} (hmode : e.isMode = true) (hsoft : ∀ m c f r, e ≠ .softRstDone m c f r) (s : State) :
    effect e s = { s with mcr := (effect e s).mcr } := by
  cases e with
  | softRstDone m c f r => exact absurd rfl (hsoft m c f r)
  | lpmEnter | lpmExit | frzEnter | frzExit => rfl
  | _ => cases hmode

/-- `t` is `s` with bit `k` of MCR at `b`. -/
def SetsMcrBit (s t : State) (k : Nat) (b : Bool) : Prop :=
  t = { s with mcr := t.mcr } ∧ ∀ j, j < 32 → t.mcr.getLsbD j = if j = k then b else s.mcr.getLsbD j

theorem setsMcrBit_true (s : State) {k : Nat} (hk : k < 32) : SetsMcrBit s { s with mcr := s.mcr ||| bitAt true k } k true := by
  refine ⟨rfl, fun j _ => ?_⟩
  rw [BitVec.getLsbD_or, getLsbD_bitAt _ _ _ hk]
  split_ifs with hj <;> simp [hj]

theorem setsMcrBit_false (s : State) {k : Nat} (hk : k < 32) : SetsMcrBit s { s with mcr := clearBit s.mcr k } k false := by
  refine ⟨rfl, fun j _ => ?_⟩
  rw [getLsbD_clearBit _ _ _ hk]
  split_ifs with hj <;> simp [hj]

/-- A mode step that acknowledges by one bit of MCR sets it exactly where its guard holds. -/
theorem setsMcrBit_takeEvent {s : State} {e : Event} {k : Nat} {b : Bool} {guard : Prop} [Decidable guard]
    (hguard : enabled e s = true ↔ guard) (heffect : SetsMcrBit s (effect e s) k b) :
    if guard then SetsMcrBit s (takeEvent s e) k b else takeEvent s e = s := by
  rw [takeEvent_eq_ite hguard]
  split_ifs
  · exact heffect
  · rfl

/-! ### The mailbox lock (R219) -/

/-- Without LOCK_BLOCKS_HW no guard reads the lock. -/
theorem enabled_withLock {s : State} (h : s.params.lockBlocksHw = false) (l : Option (Fin 16)) (e : Event) :
    enabled e { s with lockedMb := l } = enabled e s := by
  cases e with
  | rxBegin i f ts =>
    have hlock : ∀ l, State.lockAllows { s with lockedMb := l } i = true := fun l => by simp [State.lockAllows, h]
    simp only [enabled, hlock]
    rfl
  | _ => rfl

/-- No effect reads the lock. -/
theorem effect_withLock (s : State) (l : Option (Fin 16)) (e : Event) :
    effect e { s with lockedMb := l } = { effect e s with lockedMb := (effect e { s with lockedMb := l }).lockedMb } := by
  cases e with
  | abortResolve i sent ts => simp only [effect_abortResolve]
  | busError i c b => simp only [effect_busError]
  | rxWrite i prio srr dlc p0 p1 =>
    simp only [effect, rxWriteEffect]
    split <;> rfl
  | rxEnd i =>
    simp only [effect, rxEndEffect]
    split <;> rfl
  | _ => rfl

/-- No step but SOFTRST_DONE changes the lock. -/
theorem effect_lockedMb_eq {e : Event} (hsoft : ∀ m c f r, e ≠ .softRstDone m c f r) (s : State) :
    (effect e s).lockedMb = s.lockedMb := by
  cases e with
  | softRstDone m c f r => exact absurd rfl (hsoft m c f r)
  | abortResolve i sent ts => rw [effect_abortResolve]
  | busError i c b => rw [effect_busError]
  | rxWrite i prio srr dlc p0 p1 =>
    simp only [effect, rxWriteEffect]
    split <;> rfl
  | rxEnd i =>
    simp only [effect, rxEndEffect]
    split <;> rfl
  | _ => rfl

/-! ### A block write to a mailbox word -/

/-- Writing a word of a mailbox leaves every other word of the window. -/
theorem sameRegsBut_setWord (s : State) (i : Fin 16) (w : Fin 4) (v : Word) :
    sameRegsBut [.mb i w] s (s.setMailbox i ((s.mb.get i).setWord w v)) := by
  intro r hr
  cases r with
  | mb j w' =>
    by_cases hj : i = j
    · subst hj
      have hw : w ≠ w' := by
        rintro rfl
        exact hr (List.mem_singleton.mpr rfl)
      simp [peekReg, Mailbox.word_setWord, hw]
    · simp [peekReg, hj]
  | _ => rfl

/-- A deactivated frame may still complete where it was pending, or its abort requested, while Running (R227). -/
theorem csWriteHidden_lateTx_get (i : Fin 16) (v : Word) (s : State) : (csWriteHidden i v s).lateTx.get i =
    (s.lateTx.get i || (decide (s.mode = .running) && (decide (s.codeAt i = 0b1100#4) || s.abortReq.get i) &&
      decide (codeOf v ≠ 0b1100#4 ∧ codeOf v ≠ 0b1001#4))) := by
  rw [csWriteHidden_lateTx]
  split
  · next h => simp [h]
  · next h => simp_all

/-- A write to words 1 to 3 of a mailbox stores the word, after the peripheral's turn, and does no more (R227). -/
theorem writeReg_payload {s : State} (hp : s.params.accessPermitted = true) (i : Fin 16) {w : Fin 4} (hw : w ≠ 0) (v : Word) :
    writeReg (.mb i w) v s = .ok () { gap s with
      mb := put (gap s).mb i (((gap s).mb.get i).setWord w v)
      accesses := s.accesses ++ [.write (.mb i w) v] } := by
  rw [writeReg_eq _ _ hp, doWrite, writeEffect_payload i hw, State.logged, State.setMailbox, gap_accesses]
  exact nofun

end Sys2Proof.Machine

open Sys2Proof Sys2Proof.Machine

/-- Settles O11: a CS write is `csWriteHidden` and the word, after the peripheral's turn; words 1 to 3 have no hidden effect. -/
theorem csWriteHiddenEffects : Obligations.CsWriteHiddenEffects := by
  intro s i v hp
  refine ⟨?_, fun w hw => writeReg_payload hp i hw v⟩
  rw [writeReg_eq _ _ hp, doWrite_cs]
  have hact : ActsAt i (gap s) ((csWriteHidden i v (gap s)).setCs i v) := csWrite_actsAt i v _ _
  have hcode : ((csWriteHidden i v (gap s)).setCs i v).codeAt i = codeOf v := State.setCs_codeAt_self _ _ _
  have hcs : (((csWriteHidden i v (gap s)).setCs i v).mb.get i).cs = v := by simp
  refine ⟨_, rfl, sameRegsBut_setWord (gap s) i 0 v, hcs, hact.hidden, ⟨hact.requests, hact.operands, hact.params⟩, rfl, ?_,
    csWriteHidden_lateTx_get i v (gap s), get_put_self _ _ _, fun hnew hrun horder ts => ?_⟩
  · exact (congrArg (·.get i) (csWriteHidden_abortReq i v (gap s))).trans (get_put_self _ _ _)
  · exact enabled_txComplete hrun (hcode.trans hnew) horder ts

/-- Settles O12: a bus step is enabled in the modes of `mode_of_enabled` alone, and the mode steps left change MCR alone. -/
theorem busStepsOnlyWhileRunning : Obligations.BusStepsOnlyWhileRunning := by
  have hstopped : ∀ (s : State) (e : Event), (s.mode = .frozen ∨ s.mode = .disabled) → e.isMode = false →
      takeEvent s e = s := by
    refine fun s e hmode hbus => takeEvent_of_not_enabled fun h => ?_
    rcases mode_of_enabled hbus h with hrun | ⟨-, -, htrans⟩
    · simp [hrun] at hmode
    · simp [htrans] at hmode
  refine ⟨fun s e hmode hbus hparam => takeEvent_of_not_enabled fun h => ?_, hstopped, fun s e hmode hsoft => ?_⟩
  · rcases mode_of_enabled hbus h with hrun | ⟨hfinishes, he, -⟩
    · exact hmode hrun
    · simp [hfinishes, he] at hparam
  · have hmcr : ∃ mcr, takeEvent s e = { s with mcr := mcr } := by
      cases hbus : e.isMode with
      | false => exact ⟨s.mcr, hstopped s e hmode hbus⟩
      | true =>
        rcases takeEvent_cases s e with h | ⟨-, h⟩
        · exact ⟨s.mcr, h⟩
        · exact ⟨_, h.trans (effect_mode_eq hbus hsoft s)⟩
    obtain ⟨mcr, h⟩ := hmcr
    rw [h]
    exact ⟨rfl, rfl, rfl, rfl, rfl, rfl⟩

/-- Settles O13: the guard is TX_COMPLETE's with the order spelled out, and its effect is `sentCs` and the flag. -/
theorem txCompleteStep : Obligations.TxCompleteStep := by
  intro s i ts t arb guard
  have harb : s.arbAt = arb := funext (arbAt_eq s)
  have hguard : enabled (.txComplete i ts) s = true ↔ guard := by
    rw [enabled_txComplete_iff, orderAllows_iff, harb]
  refine ⟨fun h => takeEvent_of_not_enabled (mt hguard.mp h), fun h => ?_⟩
  have ht : t = { s with
      mb := put s.mb i { s.mb.get i with cs := sentCs (s.mb.get i).cs ts }, iflag := raiseFlag s.iflag i } :=
    takeEvent_of_enabled (hguard.mpr h)
  rw [ht, get_put_self]
  exact ⟨rfl, fun k _ => getLsbD_sentCs _ _ k, fun k _ => getLsbD_raiseFlag _ _ k⟩

/-- Settles O14, by ABORT_RESOLVE's guard and the two cases of what it leaves. -/
theorem abortResolveStep : Obligations.AbortResolveStep := by
  intro s i sent ts t guard
  have hguard : enabled (.abortResolve i sent ts) s = true ↔ guard := enabled_abortResolve_iff s i sent ts
  refine ⟨fun h => takeEvent_of_not_enabled (mt hguard.mp h), fun h => ?_⟩
  have ht : t = _ := (takeEvent_of_enabled (hguard.mpr h)).trans (effect_abortResolve i sent ts s)
  rw [ht, get_put_self]
  refine ⟨rfl, ?_, ?_, fun k _ => getLsbD_raiseFlag _ _ k⟩
  · rintro rfl
    rfl
  · rintro rfl k -
    exact getLsbD_sentCs _ _ k

/-- Settles O17: four of the steps set or clear one bit of MCR, and SOFTRST_DONE's MCR is `mcrAfterSoftReset`. -/
theorem modeStepsAcknowledgeRequests : Obligations.ModeStepsAcknowledgeRequests := by
  intro s noStage bit sets
  refine ⟨setsMcrBit_takeEvent (enabled_lpmEnter_iff s) (setsMcrBit_true s (by decide)),
    setsMcrBit_takeEvent (enabled_lpmExit_iff s) (setsMcrBit_false s (by decide)),
    setsMcrBit_takeEvent (enabled_frzEnter_iff s) (setsMcrBit_true s (by decide)),
    setsMcrBit_takeEvent (enabled_frzExit_iff s) (setsMcrBit_false s (by decide)), fun m c f r => ?_⟩
  split_ifs with h
  · rw [takeEvent_of_enabled ((enabled_softRstDone_iff s m c f r).mpr h)]
    exact ⟨rfl, fun j hj => getLsbD_mcrAfterSoftReset s.mcr m hj⟩
  · exact takeEvent_of_not_enabled (mt (enabled_softRstDone_iff s m c f r).mp h)

/-- Settles O16: RX_BEGIN's guard alone reads the lock, under LOCK_BLOCKS_HW, and SOFTRST_DONE alone writes it. -/
theorem lockHoldsOffReceptions : Obligations.LockHoldsOffReceptions := by
  refine ⟨fun s i f ts hblocks hlock => ?_, fun s l e hblocks => ?_, fun s e hsoft => ?_⟩
  · exact takeEvent_of_not_enabled (by simp [enabled, State.lockAllows, hblocks, hlock])
  · simp only [takeEvent, enabled_withLock hblocks]
    split
    · exact effect_withLock s l e
    · rfl
  · rcases takeEvent_cases s e with h | ⟨-, h⟩
    · rw [h]
    · rw [h, effect_lockedMb_eq hsoft]

/-- Settles O18, by the guard and the effect of each of the four steps. -/
theorem havocAndLateSteps : Obligations.HavocAndLateSteps := by
  refine fun s i => ⟨fun m => takeEvent_eq_ite (enabled_answerHavoc_iff s i m), fun c b => ?_,
    takeEvent_eq_ite (enabled_lateTx_iff s i), takeEvent_eq_ite (enabled_lateDrop_iff s i)⟩
  intro t guard
  have hguard : enabled (.busError i c b) s = true ↔ guard := enabled_busError_iff s i c b
  refine ⟨fun h => takeEvent_of_not_enabled (mt hguard.mp h), fun h => ?_⟩
  have ht : t = _ := (takeEvent_of_enabled (hguard.mpr h)).trans (effect_busError i c b s)
  rw [ht, get_put_self]
  exact ⟨rfl, fun k _ => getLsbD_withCode _ _ k⟩
end

section
/-! 60_exceptions.md R241, R243, R244: the checks of an index operand and of MBWRITE's header, before any access. -/

namespace Sys2Proof.Machine

theorem withIndex_outOfRange {α : Type} {idx : BitVec 8} (h : 16 ≤ idx.toNat) (f : Fin 16 → State → Res α) (s : State) :
    withIndex idx f s = .err (.indexOutOfRange idx) s := by
  rw [withIndex, dif_neg (Nat.not_lt.mpr h), raise_eq]

theorem mbwriteOperands_wellFormed {o : MbwriteOperands} (h : o.wf = true) :
    mbwriteOperands o = some (o.header.narrow, o.frame.narrow) :=
  if_pos h

/-- The operations that check the index `idx`: MBWRITE does where its record is well-formed (60_exceptions.md R244). -/
def ChecksIndex (s : State) (idx : BitVec 8) : Instr → Prop
  | .mbread j | .mbpeek j | .mbinact j | .mbabort j => j = idx
  | .mbwrite j => j = idx ∧ s.operands.mbwrite.wf = true
  | _ => False

/-- Such an operation raises IndexOutOfRange before any access. -/
theorem exec_index_outOfRange {s : State} (hb : s.block = .idle) {idx : BitVec 8} (hidx : 16 ≤ idx.toNat) {i : Instr}
    (h : ChecksIndex s idx i) :
    exec i s = .next { s with accesses := [], result := some (.err (.indexOutOfRange idx)) } := by
  cases i with
  | mbread j =>
    obtain rfl : j = idx := h
    simp only [exec, execMbread]
    exact issue_raises hb (by rw [withIndex_outOfRange hidx]; rfl)
  | mbpeek j =>
    obtain rfl : j = idx := h
    simp only [exec, execMbpeek]
    exact issue_raises hb (by rw [withIndex_outOfRange hidx]; rfl)
  | mbinact j =>
    obtain rfl : j = idx := h
    simp only [exec, execMbinact]
    exact issue_raises hb (by rw [withIndex_outOfRange hidx]; rfl)
  | mbabort j =>
    obtain rfl : j = idx := h
    simp only [exec, execMbabort]
    exact issue_raises hb (by rw [withIndex_outOfRange hidx]; rfl)
  | mbwrite j =>
    obtain ⟨rfl, hwf⟩ : j = idx ∧ s.operands.mbwrite.wf = true := h
    simp only [exec, execMbwrite]
    refine issue_raises hb ?_
    rw [State.started_operands, mbwriteOperands_wellFormed hwf]
    exact congrArg returnUnit (withIndex_outOfRange hidx _ _)
  | _ => exact h.elim

/-- MBWRITE with a header of the other role, or busy, raises InvalidHeaderCode before any access. -/
theorem mbwrite_invalidHeader {i : Fin 16} {hdr : Header} (h : hdr.code.role ≠ roleOfIndex i ∨ hdr.code.isBusy = true)
    (f : Frame) (s : State) : mbwrite i hdr f s = .err (.invalidHeaderCode hdr.code) s :=
  if_pos h

end Sys2Proof.Machine

open Sys2Proof Sys2Proof.Machine

/-- Settles O26: an index out of range, or a header that does not fit, raises before the first access. -/
theorem indexAndHeaderChecksComeFirst : Obligations.IndexAndHeaderChecksComeFirst := by
  intro s hb
  constructor
  · intro idx hidx ends
    have hends : ∀ {i : Instr}, ChecksIndex s idx i → ends i := exec_index_outOfRange hb hidx
    exact ⟨hends rfl, hends rfl, hends rfl, hends rfl, fun hwf => hends ⟨rfl, hwf⟩⟩
  · intro i hwf code hcode
    have hheader : code.role ≠ roleOfIndex i ∨ code.isBusy = true := hcode.imp_right fun ⟨r, hr⟩ => hr ▸ rfl
    rw [exec_mbwrite_ofNat (mbwriteOperands_wellFormed hwf)]
    exact issue_raises hb (congrArg returnUnit (mbwrite_invalidHeader (hdr := s.operands.mbwrite.header.narrow) hheader _ _))
end

section
/-! 60_exceptions.md R249, R250: what a re-read that does not find a spin's exit condition comes to, whatever the peripheral does before
it; then the spin re-read by re-read with a peripheral that takes no step, and the first re-read of each operation that spins. -/

namespace Sys2Proof.Machine

/-! ### A re-read that misses its exit condition -/

/-- The lock after the re-read of a spin: a CS read locks its mailbox (20_memory.md R65). -/
def SpinPos.lock : SpinPos → Option (Fin 16) → Option (Fin 16)
  | .readBusy _ i _, _ => some i
  | .abortFlag _ _ _, l => l
  | .boot _ _ _ _, l => l

/-- The state after the peripheral's turn and the re-read of the spin at `p`. -/
def State.reread (s : State) (p : SpinPos) : State :=
  { gap s with lockedMb := p.lock (gap s).lockedMb, accesses := s.accesses ++ [spinRead p (gap s)] }

theorem reread_params (p : SpinPos) (s : State) : (s.reread p).params = s.params := gap_params s

/-- The state a Timeout at `p` leaves once the bound is reached: MBREAD's reads TIMER first (60_exceptions.md R249). -/
def State.timedOut (s : State) (p : SpinPos) : State :=
  match p with
  | .readBusy _ _ _ => (gap s).drawTimer.logged (timerLog s.draws)
  | .abortFlag _ _ _ => s
  | .boot _ _ _ _ => s

/-- What the top of the loop at `p` comes to where its re-read misses the exit condition. -/
def missed {α : Type} (p : SpinPos) (s : State) : Res α :=
  if spinExpired s.params (p.count + 1) then .err .timeout ((s.reread p).timedOut p) else .wait p.again (s.reread p)

/-- Nothing of the operation follows a miss. -/
@[simp] theorem missed_bind {α β : Type} (p : SpinPos) (s : State) (f : α → State → Res β) :
    (missed p s : Res α).bind f = missed p s := by
  unfold missed
  split <;> rfl

theorem finish_missed_of_expired {p : SpinPos} {s : State} (h : spinExpired s.params (p.count + 1) = true) :
    finish (missed p s) = .next (((s.reread p).timedOut p).finished (.err .timeout)) := by
  rw [missed, if_pos h, finish_err]

theorem finish_missed_of_not_expired {p : SpinPos} {s : State} (h : spinExpired s.params (p.count + 1) = false) :
    finish (missed p s) = .next ((s.reread p).suspended p.again) := by
  rw [missed, h, if_neg Bool.false_ne_true, finish_wait]

section
variable {s : State} (hp : s.params.accessPermitted = true)
include hp

/-- The TIMER read that releases the lock (70_reset_and_hazards.md R280). -/
theorem unlock_eq : unlock s = .ok () ((gap s).drawTimer.logged (timerLog s.draws)) := by
  rw [unlock, readReg_eq _ hp, doRead_timer, Res.bind_ok, gap_draws, timerLog]

theorem readFrom_missed (c : ReadCaller) (i : Fin 16) (n : Nat) (h : stuckAt (.readBusy c i n) (gap s)) :
    readFrom c i n s = missed (.readBusy c i n) s := by
  obtain ⟨st, hst, hbusy⟩ := h
  have hcode : decodeState (codeOf ((gap s).mb.get i).cs) = some st := hst
  have hread : s.afterCsRead i = s.reread (.readBusy c i n) := rfl
  have hunlock := unlock_eq (s := s.reread (.readBusy c i n)) (reread_params _ s ▸ hp)
  simp only [readFrom, readCs_eq hp, Res.bind_ok, hcode, hbusy, Bool.not_true, Bool.false_eq_true, if_false, hread, reread_params,
    hunlock, raise_eq]
  rfl

theorem abortFrom_missed (c : AbortCaller) (i : Fin 16) (n : Nat) (h : stuckAt (.abortFlag c i n) (gap s)) :
    abortFrom c i n s = missed (.abortFlag c i n) s := by
  have hflag : flagSet (gap s).iflag i = false := h
  have hread : (gap s).logged (.read .iflag1 (gap s).iflag) = s.reread (.abortFlag c i n) := gap_logged s _
  simp only [abortFrom, readReg_eq _ hp, doRead_iflag1, Res.bind_ok, hflag, Bool.false_eq_true, if_false, hread, reread_params,
    raise_eq]
  rfl

theorem poll_missed (b : BootPoll) (n : Nat) (bt : Timing) (st : Settings) (k : State → Res Unit)
    (h : stuckAt (.boot b n bt st) (gap s)) : poll b n bt st k s = missed (.boot b n bt st) s := by
  have hdone : pollDone b (gap s).mcr = false := h
  have hread : (gap s).logged (.read .mcr (gap s).mcr) = s.reread (.boot b n bt st) := gap_logged s _
  simp only [poll, readReg_eq _ hp, doRead_mcr, Res.bind_ok, hdone, Bool.false_eq_true, if_false, hread, reread_params,
    raise_eq]
  rfl

/-- Whatever the operation, what it resumes ends with the miss. -/
theorem resumeFrom_missed {p : SpinPos} (h : stuckAt p (gap s)) : resumeFrom p s = missed p s := by
  have habort : ∀ (c : AbortCaller) (i : Fin 16), returnMaybeFrame (continueAbort c i (missed p s)) = missed p s := by
    intro c i
    cases c with
    | mbabort => exact missed_bind p s _
    | tx f => simp only [continueAbort, installAfterAbort, returnMaybeFrame, missed_bind]
  cases p with
  | readBusy c i n =>
    cases c with
    | mbread => rw [resumeFrom, readFrom_missed hp _ _ _ h, returnMessage, missed_bind]
    | rx => rw [resumeFrom, readFrom_missed hp _ _ _ h, returnFrame, missed_bind]
    | abort c => rw [resumeFrom, readFrom_missed hp _ _ _ h, abortOutcome, missed_bind, habort]
  | abortFlag c i n => rw [resumeFrom, abortFrom_missed hp _ _ _ h, habort]
  | boot b n bt st => rw [resumeFrom, poll_missed hp _ _ _ _ _ h, returnUnit, missed_bind]

/-- A step of a spin that misses its exit condition is a miss and no more. -/
theorem step_missed {p : SpinPos} (hb : s.block = .spinning p) (h : stuckAt p (gap s)) : step s = finish (missed p s) := by
  rw [step_spinning hb, resume, resumeFrom_missed hp h]

end

section
variable (p : SpinPos) (s : State)

/-- The re-read writes no register. -/
theorem reread_regs : sameRegsBut [] (gap s) (s.reread p) := fun r _ => by cases r <;> rfl

theorem timedOut_accesses : (s.timedOut p).accesses = s.accesses ++ timeoutLog p s := by
  cases p with
  | readBusy c i n => simp [State.timedOut, timeoutLog]
  | _ => simp [State.timedOut, timeoutLog]

/-- The TIMER read of MBREAD's Timeout leaves no lock. -/
theorem timedOut_lockedMb (h : ∃ c i n, p.again = .readBusy c i n) : (s.timedOut p).lockedMb = none := by
  cases p with
  | readBusy c i n => rfl
  | _ => simp [SpinPos.again] at h

theorem timeoutLog_of_draws {t : State} (h : t.draws = s.draws) : timeoutLog p t = timeoutLog p s := by
  cases p with
  | readBusy c i n => exact congrArg (fun n => [timerLog n]) h
  | _ => rfl

end

/-! ### A spin with a peripheral that takes no step -/

theorem sameRegsBut.trans {l l' : List Reg} {s t u : State} (h : sameRegsBut l s t) (h' : sameRegsBut l' t u) (hsub : l' ⊆ l) :
    sameRegsBut l s u :=
  fun r hr => (h' r (mt (@hsub r) hr)).trans (h r hr)

theorem gap_regs {s : State} (hq : s.quiet) : sameRegsBut [] s (gap s) := by
  rw [gap_quiet hq]
  exact fun r _ => by cases r <;> rfl

theorem gap_drop {s : State} (hq : s.quiet) : gap s = { s with schedule := s.schedule.drop 1 } := by
  rw [gap_quiet hq, List.drop_one]

theorem gap_still_quiet {s : State} (hq : s.quiet) : (gap s).quiet := by
  rw [gap_quiet hq]
  exact quiet_tail hq

/-- The registers that a Timeout at `p` changes: MBREAD's reads TIMER. -/
def SpinPos.timeoutRegs : SpinPos → List Reg
  | .readBusy _ _ _ => [.timer]
  | .abortFlag _ _ _ => []
  | .boot _ _ _ _ => []

theorem timeoutRegs_subset (p : SpinPos) : p.timeoutRegs ⊆ [.timer] := by
  cases p <;> simp [SpinPos.timeoutRegs]

/-- Every other register a Timeout leaves. -/
theorem timedOut_regs {s : State} (hq : s.quiet) (p : SpinPos) : sameRegsBut p.timeoutRegs s (s.timedOut p) := by
  intro r hr
  cases p with
  | readBusy c i n =>
    refine Eq.trans ?_ (gap_regs hq r List.not_mem_nil)
    cases r with
    | timer => exact absurd (List.mem_singleton.mpr rfl) hr
    | _ => rfl
  | _ => rfl

section
variable {s t : State} (h : sameRegsBut [] s t) (p : SpinPos)
include h

/-- Whether a spin is stuck is read off the registers. -/
theorem stuckAt_of_sameRegs (hstuck : stuckAt p s) : stuckAt p t := by
  cases p with
  | readBusy c i n =>
    have hcs : (t.mb.get i).cs = (s.mb.get i).cs := h (.mb i 0) List.not_mem_nil
    rw [stuckAt, State.stateAt, State.codeAt, hcs]
    exact hstuck
  | abortFlag c i n =>
    have hflag : t.iflag = s.iflag := h .iflag1 List.not_mem_nil
    rw [stuckAt, hflag]
    exact hstuck
  | boot b n bt st =>
    have hmcr : t.mcr = s.mcr := h .mcr List.not_mem_nil
    rw [stuckAt, hmcr]
    exact hstuck

theorem spinRead_of_sameRegs : spinRead p t = spinRead p s := by
  cases p with
  | readBusy c i n => exact congrArg (Access.read (.mb i 0)) (h (.mb i 0) List.not_mem_nil)
  | abortFlag c i n => exact congrArg (Access.read .iflag1) (h .iflag1 List.not_mem_nil)
  | boot b n bt st => exact congrArg (Access.read .mcr) (h .mcr List.not_mem_nil)

end

/-- The same spin with `k` more re-reads counted. -/
def SpinPos.after (k : Nat) : SpinPos → SpinPos
  | .readBusy c i n => .readBusy c i (n + k)
  | .abortFlag c i n => .abortFlag c i (n + k)
  | .boot b n bt st => .boot b (n + k) bt st

section
variable (p : SpinPos) (k : Nat) (s : State)

theorem after_zero : p.after 0 = p := by cases p <;> rfl
theorem again_after : (p.after k).again = p.after (k + 1) := by cases p <;> rfl
theorem timeoutLog_again : timeoutLog p.again s = timeoutLog p s := by cases p <;> rfl
theorem count_after : (p.after k).count = p.count + k := by cases p <;> rfl
theorem stuckAt_after (h : stuckAt p s) : stuckAt (p.after k) s := by cases p <;> exact h
theorem spinRead_after : spinRead (p.after k) s = spinRead p s := by cases p <;> rfl
theorem timeoutLog_after : timeoutLog (p.after k) s = timeoutLog p s := by cases p <;> rfl

end

/-- `t` is what `k` re-reads that missed the exit condition of the spin at `p` make of `s`. -/
structure SpunFrom (s : State) (p : SpinPos) (k : Nat) (t : State) : Prop where
  block : t.block = .spinning (p.after k)
  quiet : t.quiet
  regs : sameRegsBut [] s t
  params : t.params = s.params
  result : t.result = s.result
  requests : t.requests = s.requests
  draws : t.draws = s.draws
  accesses : t.accesses = s.accesses ++ List.replicate k (spinRead p s)

/-- One more re-read that goes on. -/
theorem SpunFrom.reread {s t : State} {p : SpinPos} {k : Nat} (h : SpunFrom s p k t) :
    SpunFrom s p (k + 1) ((t.reread (p.after k)).suspended (p.after (k + 1))) := by
  have hgap : sameRegsBut [] s (gap t) := h.regs.trans (gap_regs h.quiet) (List.nil_subset _)
  refine ⟨rfl, gap_still_quiet h.quiet, hgap.trans (reread_regs (p.after k) t) (List.nil_subset _), (gap_params t).trans h.params,
    (gap_result t).trans h.result, (gap_requests t).trans h.requests, (gap_draws t).trans h.draws, ?_⟩
  change t.accesses ++ [spinRead (p.after k) (gap t)] = _
  rw [h.accesses, spinRead_after, spinRead_of_sameRegs hgap, List.replicate_succ', List.append_assoc]

section
variable {s t : State} {p : SpinPos} {k : Nat} (hp : s.params.accessPermitted = true) (hstuck : stuckAt p s)
include hp hstuck

/-- The next re-read misses as well, and finds what the others found. -/
theorem SpunFrom.step_missed (h : SpunFrom s p k t) : step t = finish (missed (p.after k) t) :=
  Machine.step_missed (h.params ▸ hp) h.block
    (stuckAt_of_sameRegs (h.regs.trans (gap_regs h.quiet) (List.nil_subset _)) _ (stuckAt_after _ _ _ hstuck))

/-- While no re-read reaches the bound, the spin goes on. -/
theorem exists_spunFrom (hb : s.block = .spinning p) (hq : s.quiet)
    (hbound : ∀ j < k, spinExpired s.params (p.count + j + 1) = false) : ∃ t, runSteps k s = .next t ∧ SpunFrom s p k t := by
  induction k with
  | zero => exact ⟨s, rfl, hb.trans (by rw [after_zero]), hq, fun _ _ => rfl, rfl, rfl, rfl, rfl, by simp⟩
  | succ k ih =>
    obtain ⟨t, hrun, ht⟩ := ih fun j hj => hbound j (Nat.lt_succ_of_lt hj)
    have hnot : spinExpired t.params ((p.after k).count + 1) = false := by
      rw [ht.params, count_after]
      exact hbound k (Nat.lt_succ_self k)
    refine ⟨_, runSteps_step hrun ?_, ht.reread⟩
    rw [ht.step_missed hp hstuck, finish_missed_of_not_expired hnot, again_after]

/-- The re-read that reaches the bound raises Timeout. -/
theorem SpunFrom.times_out (h : SpunFrom s p k t) (hbound : spinExpired s.params (p.count + k + 1) = true) :
    ∃ u, step t = .next u ∧ u.block = .idle ∧ u.result = some (.err .timeout) ∧ sameRegsBut [.timer] s u ∧
      u.accesses = s.accesses ++ List.replicate (k + 1) (spinRead p s) ++ timeoutLog p s := by
  have hexpired : spinExpired t.params ((p.after k).count + 1) = true := by rw [h.params, count_after, hbound]
  have hlast := h.reread
  have hregs : sameRegsBut [.timer] s (t.reread (p.after k)) := fun r _ => hlast.regs r List.not_mem_nil
  refine ⟨_, (h.step_missed hp hstuck).trans (finish_missed_of_expired hexpired), rfl, rfl,
    hregs.trans (timedOut_regs (s := t.reread (p.after k)) hlast.quiet _) (timeoutRegs_subset _), ?_⟩
  refine (timedOut_accesses _ _).trans (congrArg₂ (· ++ ·) hlast.accesses ?_)
  exact (timeoutLog_after _ _ _).trans (timeoutLog_of_draws _ _ hlast.draws)

end

/-! ### The first re-read of an operation -/

/-- How a spin that is reached at `p` begins, or ends at once, with the bound at `b`: the operation's step is `o`, `log` its accesses
up to the first re-read and `changed` the registers it may have changed (60_exceptions.md R249). -/
def FirstReread (s : State) (b : Nat) (o : Host.Outcome State Fault Refusal) (p : SpinPos) (changed : List Reg)
    (log : List Access) : Prop :=
  ∃ t, o = .next t ∧ sameRegsBut changed s t ∧
    (if b ≤ 1 then t.block = .idle ∧ t.result = some (.err .timeout) ∧ t.accesses = log ++ timeoutLog p s ∧
        ((∃ c i n, p = .readBusy c i n) → t.lockedMb = none)
      else t.block = .spinning p ∧ t.result = none ∧ t.accesses = log)

theorem spinExpired_of_bound {p : Config.Params} {b : Nat} (h : p.spinBound = some b) (n : Nat) :
    spinExpired p n = decide (b ≤ n) := by
  rw [spinExpired, h]

/-- An operation whose first re-read is made in the state `u` and misses. -/
theorem firstReread_of_missed {s u : State} {b : Nat} {o : Host.Outcome State Fault Refusal} {p : SpinPos} {changed : List Reg}
    {log : List Access} (ho : o = finish (missed p u)) (hcount : p.count = 0) (hbound : u.params.spinBound = some b)
    (hq : u.quiet) (hregs : sameRegsBut changed s u) (htimer : p.timeoutRegs ⊆ changed) (hresult : u.result = none)
    (htimeout : timeoutLog p u = timeoutLog p s) (hlog : u.accesses ++ [spinRead p u] = log) :
    FirstReread s b o p.again changed log := by
  have hreread : sameRegsBut changed s (u.reread p) :=
    (hregs.trans (gap_regs hq) (List.nil_subset _)).trans (reread_regs p u) (List.nil_subset _)
  have haccesses : (u.reread p).accesses = log := by
    rw [← hlog, ← spinRead_of_sameRegs (gap_regs hq)]
    rfl
  have hexpired : spinExpired u.params (p.count + 1) = decide (b ≤ 1) := by rw [spinExpired_of_bound hbound, hcount]
  by_cases hb : b ≤ 1
  · refine ⟨_, ho.trans (finish_missed_of_expired (hexpired.trans (decide_eq_true hb))),
      hreread.trans (timedOut_regs (s := u.reread p) (gap_still_quiet hq) p) htimer, ?_⟩
    rw [if_pos hb]
    refine ⟨rfl, rfl, (timedOut_accesses _ _).trans (congrArg₂ (· ++ ·) haccesses ?_), timedOut_lockedMb p _⟩
    rw [timeoutLog_of_draws p u (t := u.reread p) (gap_draws u), htimeout, timeoutLog_again]
  · refine ⟨_, ho.trans (finish_missed_of_not_expired (hexpired.trans (decide_eq_false hb))), hreread, ?_⟩
    rw [if_neg hb]
    exact ⟨rfl, (gap_result u).trans hresult, haccesses⟩

/-- The state in which an abort of mailbox `i` makes its first flag read (42_mailbox_store.md R149). -/
def State.abortAsked (s : State) (i : Fin 16) : State :=
  (s.afterFlagClear i (s.schedule.drop 3)).afterAbortWrite i (withCode (s.mb.get i).cs 0b1001) true

/-- The accesses of an abort of mailbox `i` up to its first flag read (42_mailbox_store.md R149). -/
def abortLog (s : State) (i : Fin 16) : List Access :=
  [.read (.mb i 0) (s.mb.get i).cs, .write .iflag1 (flagMask i), .write (.mb i 0) (withCode (s.mb.get i).cs 0b1001),
    .read .iflag1 (s.iflag &&& ~~~(1#32 <<< i.val))]

/-- Up to its first flag read an abort changes the flags and the CS word. -/
theorem abortAsked_regs (s : State) (i : Fin 16) : sameRegsBut [.iflag1, .mb i 0] s (s.abortAsked i) := by
  intro r hr
  cases r with
  | mb j w => exact word_get_put_cs s.mb (by simpa using hr) _
  | iflag1 => simp at hr
  | _ => rfl

/-- Setting bit 31 keeps the acknowledge bits, so the write stores the word (10_state.md R30). -/
theorem mcrWrite_disable (m : Word) : mcrWrite m (m ||| 0x80000000) = m ||| 0x80000000 := by
  apply BitVec.eq_of_getLsbD_eq
  intro k hk
  rw [getLsbD_mcrWrite, BitVec.getLsbD_or]
  split_ifs with h
  · rcases h with rfl | rfl <;> simp
  · rfl

section
variable {s : State} (hp : s.params.accessPermitted = true) (hq : s.quiet)
include hp hq

/-- RX with its first flag at mailbox `i` goes on to MBREAD of that mailbox (44_receive_scanner.md R200). -/
theorem receive_flagged {i : Fin 16} (hflag : firstFlagged s.iflag = some i) :
    receive s = readFrom .rx i 0 (s.advanced [.read .iflag1 s.iflag]) := by
  rw [receive, readReg_eq _ hp, gap_quiet hq, doRead_iflag1, Res.bind_ok]
  dsimp only
  rw [hflag, State.advanced, List.length_singleton, List.drop_one]
  rfl

/-- An abort of a pending mailbox goes on to its flag spin, with the abort asked (42_mailbox_store.md R149). -/
theorem mbabort_asked (c : AbortCaller) {i : Fin 16} (hpend : s.codeAt i = 0b1100#4) :
    mbabort c i s = abortFrom c i 0 (s.abortAsked i) := by
  have hgap := gap_drop hq
  have hst : (gap s).stateAt i = some (.tx .dataRemote) := by
    rw [hgap]
    exact stateAt_of_pending hpend
  have hclear : writeReg .iflag1 (flagMask i) (s.afterCsRead i) = .ok () (s.afterFlagClear i (s.schedule.drop 2)) := by
    rw [State.afterCsRead, hgap, writeReg_eq _ _ (by exact hp), gap_drop (by exact quiet_drop hq 1), doWrite_iflag1]
    simp [State.logged, State.afterFlagClear, iflagWrite, flagMask]
  have hturn : gap (s.afterFlagClear i (s.schedule.drop 2)) = s.afterFlagClear i (s.schedule.drop 3) := by
    rw [gap_drop (by exact quiet_drop hq 2), State.afterFlagClear, List.drop_drop]
    rfl
  have hcode : (s.afterFlagClear i (s.schedule.drop 3)).codeAt i = 0b1100#4 := hpend
  rw [mbabort, bind_readCs_some hp hst, if_neg (not_not.mpr rfl), hclear, Res.bind_ok, show (gap s).mb = s.mb by rw [hgap],
    writeReg_abort (cs := withCode (s.mb.get i).cs 0b1001) (by exact hp) (codeOf_withCode _ _), hturn, hcode, Res.bind_ok]
  rfl

/-- TX of a frame that evicts mailbox `w` goes on to the flag spin of its abort (43_transmit_arbiter.md R182). -/
theorem transmit_asks {w : Fin 16} {f : Frame} (h : EvictionTarget s w f) :
    transmit f s = installAfterAbort f w (abortFrom (.tx f) w 0 ((s.afterSnapshot (s.schedule.drop 40)).abortAsked w)) := by
  have hdec : ∀ j : Fin 16, j.val < 8 → s.stateAt j ≠ none := fun j hj hnone => by
    obtain ⟨st, hst, -⟩ := h.none_inactive j hj
    cases hnone.symm.trans hst
  have habort := mbabort_asked (s := s.afterSnapshot (s.schedule.drop 40)) hp (quiet_drop hq 40) (.tx f) h.pending
  rw [transmit_decides hp hq hdec, txDecide, h.firstInactive, ← habort]
  dsimp only
  rw [h.worstPending]
  exact if_pos h.smaller

/-- The state in which INIT makes the first re-read of its first poll (70_reset_and_hazards.md R272, R273). -/
def State.disableAsked (s : State) : State :=
  { s with
    mcr := s.mcr ||| 0x80000000
    schedule := s.schedule.drop 2
    accesses := s.accesses ++ [.read .mcr s.mcr, .write .mcr (s.mcr ||| 0x80000000)] }

/-- INIT that passes its checks goes on to its first poll, with disable asked (70_reset_and_hazards.md R271 to R273). -/
theorem boot_asked {st : Settings} {clocks : ClockInfo} {bt : Timing}
    (hbt : checkedTiming { sel := st.clockSource, clocks := clocks, targetHz := st.canFrequency } = .ok bt)
    (hfifo : st.rxFifo = false) : boot st clocks s = poll .disable1 0 bt st (afterDisable1 bt st) s.disableAsked := by
  have hask : requestDisable s = .ok () s.disableAsked := by
    rw [requestDisable, modifyReg, readReg_eq _ hp, gap_drop hq, doRead_mcr, Res.bind_ok, writeReg_eq _ _ (by exact hp),
      gap_drop (by exact quiet_drop hq 1), doWrite_mcr]
    dsimp only [State.logged]
    rw [show bitAt true 31 = 0x80000000 from rfl, mcrWrite_disable, List.drop_drop, List.append_assoc]
    rfl
  rw [boot, hbt, ofExcept, Res.bind_ok, hfifo, if_neg Bool.false_ne_true, hask, Res.bind_ok]

end

/-! ### Each operation's first re-read -/

section
variable {s : State} (hr : s.ready) (hq : s.quiet) {b : Nat} (hbound : s.params.spinBound = some b)
include hr hq hbound

theorem mbread_firstReread {i : Fin 16} (hbusy : ∃ st, s.stateAt i = some st ∧ st.isBusy = true) :
    FirstReread s b (exec (.mbread (BitVec.ofNat 8 i.val)) s) (.readBusy .mbread i 1) [.timer]
      [.read (.mb i 0) (s.mb.get i).cs] := by
  refine firstReread_of_missed (u := s.started) (p := .readBusy .mbread i 0) ?_ rfl hbound hq (fun _ _ => rfl)
    (timeoutRegs_subset _) rfl rfl rfl
  have hstuck := stuckAt_of_sameRegs (s := s.started) (gap_regs hq) (.readBusy .mbread i 0) hbusy
  rw [exec_mbread_ofNat, issue_idle _ hr.1, readFrom_missed (s := s.started) hr.2 _ _ _ hstuck, returnMessage, missed_bind]

theorem rx_firstReread {i : Fin 16} (hbusy : ∃ st, s.stateAt i = some st ∧ st.isBusy = true)
    (hflag : firstFlagged s.iflag = some i) :
    FirstReread s b (exec .rx s) (.readBusy .rx i 1) [.timer] [.read .iflag1 s.iflag, .read (.mb i 0) (s.mb.get i).cs] := by
  have hqu : (s.started.advanced [.read .iflag1 s.iflag]).quiet := quiet_drop hq 1
  refine firstReread_of_missed (u := s.started.advanced [.read .iflag1 s.iflag]) (p := .readBusy .rx i 0) ?_ rfl hbound hqu
    (fun r _ => by cases r <;> rfl) (timeoutRegs_subset _) rfl rfl rfl
  have hstuck := stuckAt_of_sameRegs (gap_regs hqu) (.readBusy .rx i 0) hbusy
  rw [exec_rx, issue_idle _ hr.1, receive_flagged (s := s.started) hr.2 hq hflag, State.started_iflag,
    readFrom_missed (by exact hr.2) _ _ _ hstuck, returnFrame, missed_bind]

theorem mbabort_firstReread {i : Fin 16} (hpend : s.codeAt i = 0b1100#4) :
    FirstReread s b (exec (.mbabort (BitVec.ofNat 8 i.val)) s) (.abortFlag .mbabort i 1) [.iflag1, .mb i 0] (abortLog s i) := by
  have hqu : (s.started.abortAsked i).quiet := quiet_drop hq 3
  refine firstReread_of_missed (u := s.started.abortAsked i) (p := .abortFlag .mbabort i 0) ?_ rfl hbound hqu
    (abortAsked_regs s.started i) (List.nil_subset _) rfl rfl rfl
  have hstuck := stuckAt_of_sameRegs (gap_regs hqu) (.abortFlag .mbabort i 0) (flagSet_cleared s.iflag i)
  rw [exec_mbabort_ofNat, issue_idle _ hr.1, mbabort_asked (s := s.started) hr.2 hq _ hpend,
    abortFrom_missed (by exact hr.2) _ _ _ hstuck, returnMaybeFrame, missed_bind]

theorem tx_firstReread {f : Frame} {w : Fin 16} (hops : frameOperand s.operands.frame = some f) (htarget : EvictionTarget s w f) :
    FirstReread s b (exec .tx s) (.abortFlag (.tx f) w 1) [.iflag1, .mb w 0, .timer] (snapshotLog s ++ abortLog s w) := by
  have hqu : ((s.started.afterSnapshot (s.schedule.drop 40)).abortAsked w).quiet :=
    quiet_drop (s := s.started.afterSnapshot (s.schedule.drop 40)) (quiet_drop hq 40) 3
  have hpeeks : sameRegsBut [.iflag1, .mb w 0, .timer] s (s.started.afterSnapshot (s.schedule.drop 40)) := by
    intro r hr
    cases r with
    | timer => simp at hr
    | _ => rfl
  refine firstReread_of_missed (u := (s.started.afterSnapshot (s.schedule.drop 40)).abortAsked w) (p := .abortFlag (.tx f) w 0)
    ?_ rfl hbound hqu (hpeeks.trans (abortAsked_regs _ w) (by simp)) (List.nil_subset _) rfl rfl (List.append_assoc _ _ _)
  have hstuck := stuckAt_of_sameRegs (gap_regs hqu) (.abortFlag (.tx f) w 0) (flagSet_cleared s.iflag w)
  rw [exec_tx_some hops, issue_idle _ hr.1, transmit_asks (s := s.started) hr.2 hq htarget.started, State.started_schedule,
    abortFrom_missed (by exact hr.2) _ _ _ hstuck, installAfterAbort, missed_bind, returnMaybeFrame, missed_bind]

theorem execInit_firstReread {st : Settings} {clocks : ClockInfo} {bt : Timing}
    (hbt : checkedTiming { sel := st.clockSource, clocks := clocks, targetHz := st.canFrequency } = .ok bt)
    (hfifo : st.rxFifo = false) (hack : lpmAck s.mcr = false) :
    FirstReread s b (execInit st clocks s) (.boot .disable1 1 bt st) [.mcr]
      [.read .mcr s.mcr, .write .mcr (s.mcr ||| 0x80000000), .read .mcr (s.mcr ||| 0x80000000)] := by
  have hqu : s.started.disableAsked.quiet := quiet_drop hq 2
  have hregs : sameRegsBut [.mcr] s s.started.disableAsked := by
    intro r hr
    cases r with
    | mcr => simp at hr
    | _ => rfl
  refine firstReread_of_missed (u := s.started.disableAsked) (p := .boot .disable1 0 bt st) ?_ rfl hbound hqu hregs
    (List.nil_subset _) rfl rfl rfl
  have hack' : lpmAck (s.mcr ||| 0x80000000) = false := by simpa [lpmAck] using hack
  have hstuck := stuckAt_of_sameRegs (gap_regs hqu) (.boot .disable1 0 bt st) hack'
  rw [execInit, issue_idle _ hr.1, boot_asked (s := s.started) hr.2 hq hbt hfifo, poll_missed (by exact hr.2) _ _ _ _ _ hstuck,
    returnUnit, missed_bind]

end

end Sys2Proof.Machine

open Sys2Proof Sys2Proof.Machine

/-- Settles O55: without a bound a re-read that misses goes on with the spin and does nothing else; with a peripheral that takes no
step the next one misses as well. -/
theorem hangStaysInItsSpin : Obligations.HangStaysInItsSpin := by
  intro s p hb hp hbound
  have hnever : ∀ n, spinExpired s.params n = false := fun n => by rw [spinExpired, hbound]
  constructor
  · intro hstuck
    exact ⟨_, (step_missed hp hb hstuck).trans (finish_missed_of_not_expired (hnever _)), rfl, gap_result s,
      gap_requests s, reread_regs p s, rfl⟩
  · intro hq hstuck k
    obtain ⟨t, hrun, ht⟩ := exists_spunFrom (k := k) hp hstuck hb hq fun _ _ => hnever _
    exact ⟨t, _, hrun, ht.block, ht.result, ht.requests, ht.regs, ht.accesses⟩

/-- Settles O56: a re-read that misses raises Timeout exactly where it reaches the bound, in a spin's first step as in a resumed one. -/
theorem spinTimesOutAtTheBound : Obligations.SpinTimesOutAtTheBound := by
  constructor
  · intro s p b hb hp hbound hlt
    have hexpired := spinExpired_of_bound hbound
    refine ⟨fun hstuck => ⟨fun hbelow => ?_, fun hat => ?_⟩, fun hq hstuck => ⟨fun k hk => ?_, ?_⟩⟩
    · have hnot : spinExpired s.params (p.count + 1) = false :=
        (hexpired _).trans (decide_eq_false (by omega))
      exact ⟨_, (step_missed hp hb hstuck).trans (finish_missed_of_not_expired hnot), rfl, reread_regs p s, rfl⟩
    · have hnow : spinExpired s.params (p.count + 1) = true :=
        (hexpired _).trans (decide_eq_true (by omega))
      refine ⟨_, (step_missed hp hb hstuck).trans (finish_missed_of_expired hnow), rfl, rfl, ?_,
        fun ⟨c, i, n, h⟩ => timedOut_lockedMb _ _ ⟨c, i, n + 1, h ▸ rfl⟩⟩
      exact (timedOut_accesses _ _).trans (congrArg _ (timeoutLog_of_draws p s (gap_draws s)))
    · obtain ⟨t, hrun, ht⟩ := exists_spunFrom (k := k) hp hstuck hb hq fun j hj =>
        (hexpired _).trans (decide_eq_false (by omega))
      exact ⟨t, _, hrun, ht.block⟩
    · obtain ⟨k, rfl⟩ : ∃ k, b = p.count + k + 1 := ⟨b - p.count - 1, by omega⟩
      obtain ⟨t, hrun, ht⟩ := exists_spunFrom (k := k) hp hstuck hb hq fun j hj =>
        (hexpired _).trans (decide_eq_false (by omega))
      obtain ⟨u, hstep, hu⟩ := ht.times_out hp hstuck ((hexpired _).trans (decide_eq_true (Nat.le_refl _)))
      rw [Nat.add_assoc, Nat.add_sub_cancel_left]
      exact ⟨u, runSteps_step hrun hstep, hu⟩
  · intro s b hr hq hbound first log
    refine ⟨fun i st hst hbusy => ?_, fun i st hst hbusy hi hflag hbefore => ?_, fun i hpend => ?_, fun f w hops htarget => ?_,
      fun st clocks rest bt hreqs hbt hfifo hack => ?_⟩
    · exact mbread_firstReread hr hq hbound ⟨st, hst, hbusy⟩
    · exact rx_firstReread hr hq hbound ⟨st, hst, hbusy⟩ (firstFlagged_eq_some hi hflag hbefore)
    · exact mbabort_firstReread hr hq hbound hpend
    · exact tx_firstReread hr hq hbound hops htarget
    · rw [step_idle_cons hr.1 hreqs]
      exact execInit_firstReread (s := { s with requests := rest }) hr hq hbound hbt hfifo hack
end

section
/-! 70_reset_and_hazards.md R277 to R280: how a piece of pseudocode may end, said for every schedule of the peripheral; from it
the write order of MBWRITE, the lock released by MBREAD and MBPEEK, and the checks INIT makes before its first access. -/

namespace Sys2Proof.Machine

/-! ### How a piece of pseudocode may end -/

/-- What holds where a piece of pseudocode ends, for each way it may end: with a value, with an error or in a spin. `Res.All` is
the case of one property for all three. -/
def Res.Ends {α : Type} (onOk : α → State → Prop) (onErr : State → Prop) (onWait : SpinPos → State → Prop) : Res α → Prop
  | .ok a s => onOk a s
  | .err _ s => onErr s
  | .wait p s => onWait p s
  | .refused _ => True

section
variable {α β : Type} {Q : α → State → Prop} {Q' : β → State → Prop} {E : State → Prop} {W : SpinPos → State → Prop}

/-- Two pieces in sequence: the second starts where the first may end with a value. -/
theorem Res.Ends.bind {r : Res α} {f : α → State → Res β} (h : r.Ends Q E W) (hf : ∀ a t, Q a t → (f a t).Ends Q' E W) :
    (r.bind f).Ends Q' E W := by
  cases r with
  | ok a t => exact hf a t h
  | err e t => exact h
  | wait p t => exact h
  | refused r => exact trivial

theorem Res.Ends.mono {r : Res α} {P : α → State → Prop} (h : r.Ends Q E W) (hQ : ∀ a t, Q a t → P a t) : r.Ends P E W := by
  cases r with
  | ok a t => exact hQ a t h
  | err e t => exact h
  | wait p t => exact h
  | refused r => exact trivial

/-- A read ends with the value found after the peripheral's turn, or is refused. -/
theorem readReg_ends {Q : Word → State → Prop} {r : Reg} {s : State}
    (h : Q (peekReg r (readEffect r (gap s)))
      ((readEffect r (gap s)).logged (.read r (peekReg r (readEffect r (gap s)))))) : (readReg r s).Ends Q E W := by
  cases hp : s.params.accessPermitted with
  | true => rw [readReg_eq r hp]; exact h
  | false => rw [readReg_forbidden r hp]; trivial

/-- A write ends with its effect made after the peripheral's turn, or is refused. -/
theorem writeReg_ends {Q : Unit → State → Prop} {r : Reg} {v : Word} {s : State}
    (h : Q () ((writeEffect r v (gap s)).logged (.write r v))) : (writeReg r v s).Ends Q E W := by
  cases hp : s.params.accessPermitted with
  | true =>
    rw [writeReg_eq r v hp]
    cases r with
    | timer => trivial
    | _ => exact h
  | false => rw [writeReg_forbidden r v hp]; trivial

/-- An access never raises and never spins. -/
theorem readReg_ends_any (r : Reg) (s : State) : (readReg r s).Ends (fun _ _ => True) E W := readReg_ends trivial

theorem writeReg_ends_any (r : Reg) (v : Word) (s : State) : (writeReg r v s).Ends (fun _ _ => True) E W := writeReg_ends trivial

/-- Decoding a code gives the buffer state of its pattern, or raises; it makes no access. -/
theorem decodeOrRaise_ends (c : BitVec 4) {s : State} (hE : E s) :
    (decodeOrRaise c s).Ends (fun st t => decodeState c = some st ∧ t = s) E W := by
  cases hc : decodeState c with
  | some st => rw [decodeOrRaise_some hc]; exact ⟨rfl, rfl⟩
  | none => rw [decodeOrRaise_none hc]; exact hE

/-- What an operation returns to its caller is made of the value, in the state its pseudocode came to. -/
theorem returnUnit_ends {P : State → Prop} {r : Res Unit} (h : r.Ends (fun _ => P) E W) :
    (returnUnit r).Ends (fun _ => P) E W := h.bind fun _ _ h => h

theorem returnMessage_ends {P : State → Prop} {r : Res (Header × Frame)} (h : r.Ends (fun _ => P) E W) :
    (returnMessage r).Ends (fun _ => P) E W := h.bind fun _ _ h => h

theorem returnFrame_ends {P : State → Prop} {r : Res (Header × Frame)} (h : r.Ends (fun _ => P) E W) :
    (returnFrame r).Ends (fun _ => P) E W := h.bind fun _ _ h => h

/-- `t` is what a step leaves whose pseudocode ends so: its value, its error or its spin recorded. -/
def EndedAs (onOk : Value → State → Prop) (onErr : State → Prop) (onWait : SpinPos → State → Prop) (t : State) : Prop :=
  (∃ v u, onOk v u ∧ t = u.finished (.ok v)) ∨ (∃ e u, onErr u ∧ t = u.finished (.err e)) ∨
    ∃ p u, onWait p u ∧ t = u.suspended p

theorem finish_ends {Q : Value → State → Prop} {r : Res Value} {t : State} (h : r.Ends Q E W) (ht : finish r = .next t) :
    EndedAs Q E W t := by
  cases r with
  | ok v u => exact .inl ⟨v, u, h, by simpa using ht.symm⟩
  | err e u => exact .inr (.inl ⟨e, u, h, by simpa using ht.symm⟩)
  | wait p u => exact .inr (.inr ⟨p, u, h, by simpa using ht.symm⟩)
  | refused r => simp at ht

theorem issue_ends {Q : Value → State → Prop} {body : State → Res Value} {s t : State} (h : (body s.started).Ends Q E W)
    (ht : issue body s = .next t) : EndedAs Q E W t := by
  cases hb : s.block with
  | idle => exact finish_ends h (issue_idle body hb ▸ ht)
  | spinning p => simp [issue_spinning _ hb] at ht

end

/-! ### The accesses of MBWRITE (R278, R279) -/

section
variable {E : State → Prop} {W : SpinPos → State → Prop} {i : Fin 16} {s : State} {log : List Access}

theorem readReg_ends_log (r : Reg) (h : s.accesses = log) :
    (readReg r s).Ends (fun v t => t.accesses = log ++ [.read r v]) E W :=
  readReg_ends (by rw [State.logged_accesses, readEffect_accesses, gap_accesses, h])

theorem writeReg_ends_log (r : Reg) (v : Word) (h : s.accesses = log) :
    (writeReg r v s).Ends (fun _ t => t.accesses = log ++ [.write r v]) E W :=
  writeReg_ends (by rw [State.logged_accesses, writeEffect_accesses, gap_accesses, h])

/-- The writes of a frame: flag, ID word, data words of a data frame, CS word (42_mailbox_store.md R145). -/
theorem writeFrame_ends_log (i : Fin 16) (hdr : Header) (f : Frame) (h : s.accesses = log) :
    (writeFrame i hdr f s).Ends (fun _ t => t.accesses = log ++ writeLog i hdr f) E W := by
  refine (writeReg_ends_log _ _ h).bind fun _ s h => (writeReg_ends_log _ _ h).bind fun _ s h => ?_
  cases f with
  | data id bytes =>
    exact ((writeReg_ends_log _ _ h).bind fun _ _ h => writeReg_ends_log _ _ h).bind fun _ s h =>
      (writeReg_ends_log _ _ h).mono fun _ t h => by rw [h]; simp [writeLog]
  | remote id => exact (writeReg_ends_log _ _ h).mono fun _ t h => by rw [h]; simp [writeLog]

/-- MBWRITE that gets to its end has read a writable code, then written its frame. -/
theorem mbwrite_ends_log (i : Fin 16) (hdr : Header) (f : Frame) (s : State) :
    (mbwrite i hdr f s).Ends (fun _ t => ∃ cs cur, decodeState (codeOf cs) = some cur ∧ writable cur = true ∧
      t.accesses = s.accesses ++ .read (.mb i 0) cs :: writeLog i hdr f) (fun _ => True) W := by
  unfold mbwrite
  split
  · trivial
  · refine (readReg_ends_log (.mb i 0) rfl).bind fun cs s h => (decodeOrRaise_ends _ trivial).bind fun cur t ⟨hcur, ht⟩ => ?_
    subst ht
    split
    · next hw =>
      exact (writeFrame_ends_log i hdr f h).mono fun _ t h => ⟨cs, cur, hcur, hw, by rw [h, List.append_assoc]; rfl⟩
    · trivial

/-! ### The TIMER read that ends MBREAD and MBPEEK (R280) -/

/-- The last access was a TIMER read, and no mailbox is locked. -/
def State.Unlocked (s : State) : Prop := s.lockedMb = none ∧ ∃ v, s.accesses.getLast? = some (.read .timer v)

theorem unlock_ends (s : State) : (unlock s).Ends (fun _ => State.Unlocked) E W :=
  Res.Ends.bind (readReg_ends ⟨rfl, _, List.getLast?_concat⟩) fun _ _ h => h

/-- MBREAD ends, with a value or an error, right after its TIMER read. -/
theorem readFrom_ends (c : ReadCaller) (i : Fin 16) (n : Nat) (s : State) :
    (readFrom c i n s).Ends (fun _ => State.Unlocked) State.Unlocked fun _ _ => True := by
  refine (readReg_ends_any _ _).bind fun cs s _ => ?_
  split
  · exact (unlock_ends s).bind fun _ _ h => h
  · split
    · refine (readReg_ends_any _ _).bind fun _ _ _ =>
        (readReg_ends_any _ _).bind fun _ _ _ =>
        (readReg_ends_any _ _).bind fun _ _ _ =>
        (writeReg_ends_any _ _ _).bind fun _ _ _ => ?_
      exact (unlock_ends _).bind fun _ _ h => h
    · split
      · exact (unlock_ends s).bind fun _ _ h => h
      · trivial

/-- MBPEEK decodes after its TIMER read. -/
theorem mbpeek_ends (i : Fin 16) (s : State) :
    (mbpeek i s).Ends (fun _ => State.Unlocked) State.Unlocked fun _ _ => True := by
  refine (readReg_ends_any _ _).bind fun _ _ _ =>
    (readReg_ends_any _ _).bind fun _ _ _ =>
    (readReg_ends_any _ _).bind fun _ _ _ =>
    (readReg_ends_any _ _).bind fun _ _ _ => ?_
  exact (unlock_ends _).bind fun _ _ h => (decodeOrRaise_ends _ h).bind fun _ _ ⟨_, ht⟩ => ht ▸ h

/-- A step that ends an operation whose pseudocode ends unlocked leaves no lock. -/
theorem unlocked_of_ended {t : State} (h : EndedAs (fun _ => State.Unlocked) State.Unlocked (fun _ _ => True) t)
    (hidle : t.block = .idle) : t.Unlocked := by
  rcases h with ⟨_, u, hu, rfl⟩ | ⟨_, u, hu, rfl⟩ | ⟨p, u, _, rfl⟩
  · exact hu
  · exact hu
  · cases hidle

end

/-! ### The checks of INIT (R277) -/

section
variable {st : Settings} {clocks : ClockInfo}

theorem boot_of_timing_error {e : Err}
    (h : checkedTiming { sel := st.clockSource, clocks := clocks, targetHz := st.canFrequency } = .error e) (s : State) :
    boot st clocks s = .err e s := by
  rw [boot, h]
  rfl

theorem boot_of_timing {bt : Timing}
    (h : checkedTiming { sel := st.clockSource, clocks := clocks, targetHz := st.canFrequency } = .ok bt) (s : State) :
    boot st clocks s = if st.rxFifo then .err .unsupportedSetting s
      else (requestDisable s).bind fun _ s => poll .disable1 0 bt st (afterDisable1 bt st) s := by
  rw [boot, h]
  rfl

end

end Sys2Proof.Machine

open Sys2Proof Sys2Proof.Machine

/-- Settles O48: MBWRITE's value is reached by one path alone, whose accesses are recorded in their order. -/
theorem codeWordIsWrittenLast : Obligations.CodeWordIsWrittenLast := by
  intro s t i hdr f hops ht hok
  rw [exec_mbwrite_ofNat hops] at ht
  have hends := returnUnit_ends (mbwrite_ends_log (W := fun _ _ => False) i hdr f s.started)
  rcases issue_ends hends ht with ⟨_, u, ⟨cs, cur, hcur, hw, hlog⟩, rfl⟩ | ⟨_, u, _, rfl⟩ | ⟨_, _, hno, _⟩
  · exact ⟨cs, cur, hcur, (writable_iff cur).mp hw, hlog⟩
  · cases hok
  · exact hno.elim

/-- Settles O49: every way MBREAD and MBPEEK end goes through `unlock`, and no access comes after it. -/
theorem readsEndByReleasingTheLock : Obligations.ReadsEndByReleasingTheLock := by
  constructor
  · intro s t i ins hins ht hidle
    rcases hins with rfl | rfl
    · rw [exec_mbread_ofNat] at ht
      exact unlocked_of_ended (issue_ends (returnMessage_ends (readFrom_ends _ _ _ _)) ht) hidle
    · rw [exec_mbpeek_ofNat] at ht
      exact unlocked_of_ended (issue_ends (returnMessage_ends (mbpeek_ends _ _)) ht) hidle
  · intro s t i n c hc hb ht hidle
    rw [step_spinning hb] at ht
    rcases hc with rfl | rfl
    · exact unlocked_of_ended (finish_ends (returnMessage_ends (readFrom_ends _ _ _ _)) ht) hidle
    · exact unlocked_of_ended (finish_ends (returnFrame_ends (readFrom_ends _ _ _ _)) ht) hidle

/-- Settles O51: the timing and `rx_fifo` are checked before the first request to the peripheral. -/
theorem initFailsFast : Obligations.InitFailsFast := by
  intro s st clocks rest hb hreqs timing ends
  have hends : ∀ e, (∀ u, boot st clocks u = .err e u) → ends e := by
    intro e he
    have hissue : execInit st clocks { s with requests := rest } = _ := issue_raises hb (congrArg returnUnit (he _))
    exact (step_idle_cons hb hreqs).trans hissue
  exact ⟨fun e he => hends e (boot_of_timing_error he),
    fun bt hbt hfifo => hends _ fun u => (boot_of_timing hbt u).trans (if_pos hfifo)⟩
end

section
/-! 48_peripheral_agent.md R225: what a peripheral that takes none but mode steps does to the state between two accesses, and the
accesses of INIT among such steps: what is known of MCR and of the rest of the state goes through them. -/

namespace Sys2Proof.Machine

/-! ### What mode steps do (R225) -/

/-- A property that each enabled mode step keeps is kept by a turn of the peripheral in which there are no others. -/
theorem gap_of_modeSteps {P : State → Prop} {s : State} (hm : s.onlyModeSteps)
    (he : ∀ t e, e.isMode = true → enabled e t = true → P t → P (effect e t)) (h : P { s with schedule := s.schedule.tail }) :
    P (gap s) := by
  have key : ∀ (es : List Event) (t : State), (∀ e ∈ es, e.isMode = true) → P t → P (es.foldl takeEvent t) := by
    intro es
    induction es with
    | nil => exact fun _ _ ht => ht
    | cons e es ih =>
      intro t hes ht
      obtain ⟨hmode, hrest⟩ := List.forall_mem_cons.mp hes
      refine ih _ hrest ?_
      rcases takeEvent_cases t e with h' | ⟨hen, h'⟩ <;> rw [h']
      · exact ht
      · exact he t e hmode hen ht
  unfold gap
  split
  · next hnil => rwa [hnil, List.tail_nil, ← hnil] at h
  · next es rest hcons =>
    rw [hcons] at h
    exact key es _ (hm es (hcons ▸ List.mem_cons_self)) h

theorem State.onlyModeSteps.gap {s : State} (hm : s.onlyModeSteps) : (Machine.gap s).onlyModeSteps := by
  refine gap_of_modeSteps (P := State.onlyModeSteps) hm (fun t e _ _ ht => ?_) fun es hes => hm es (List.mem_of_mem_tail hes)
  intro es hes
  exact ht es ((effect_blockSide e t).2 ▸ hes)

theorem State.onlyModeSteps.writeEffect {s : State} (hm : s.onlyModeSteps) (r : Reg) (v : Word) :
    (writeEffect r v s).onlyModeSteps := by
  cases r with
  | mb i w =>
    simp only [Machine.writeEffect]
    split <;> exact hm
  | _ => exact hm

/-- What mode steps make of MCR while no soft reset is pending: FRZACK and LPMACK may follow the requests, the other bits stay. -/
structure McrMoves (m m' : Word) : Prop where
  others : ∀ k, k < 32 → k ≠ 20 → k ≠ 24 → m'.getLsbD k = m.getLsbD k
  stays_enabled : mdis m = false → lpmAck m = false → lpmAck m' = false
  stays_frozen : mdis m = false → frz m = true → halt m = true → frzAck m = true → frzAck m' = true
  stays_thawed : frz m = false → frzAck m = false → frzAck m' = false

section
variable {m m' m'' : Word}

theorem McrMoves.refl (m : Word) : McrMoves m m := ⟨fun _ _ _ _ => rfl, fun _ h => h, fun _ _ _ h => h, fun _ h => h⟩

theorem McrMoves.mdis (h : McrMoves m m') : mdis m' = mdis m := h.others 31 (by omega) (by omega) (by omega)
theorem McrMoves.frz (h : McrMoves m m') : frz m' = frz m := h.others 30 (by omega) (by omega) (by omega)
theorem McrMoves.halt (h : McrMoves m m') : halt m' = halt m := h.others 28 (by omega) (by omega) (by omega)
theorem McrMoves.softRst (h : McrMoves m m') : softRst m' = softRst m := h.others 25 (by omega) (by omega) (by omega)

theorem McrMoves.trans (h : McrMoves m m') (h' : McrMoves m' m'') : McrMoves m m'' where
  others k hk hl hf := (h'.others k hk hl hf).trans (h.others k hk hl hf)
  stays_enabled hd hl := h'.stays_enabled (h.mdis.trans hd) (h.stays_enabled hd hl)
  stays_frozen hd hf hh ha := h'.stays_frozen (h.mdis.trans hd) (h.frz.trans hf) (h.halt.trans hh) (h.stays_frozen hd hf hh ha)
  stays_thawed hf ha := h'.stays_thawed (h.frz.trans hf) (h.stays_thawed hf ha)

/-- An acknowledge bit that follows the requests. -/
theorem McrMoves.of_bit {k : Nat} {b : Bool} (hbits : ∀ j, j < 32 → m'.getLsbD j = if j = k then b else m.getLsbD j)
    (hk : k = 20 ∧ (Machine.mdis m = false → b = false) ∨
      k = 24 ∧ (Machine.mdis m = false → Machine.frz m = true → Machine.halt m = true → b = true) ∧
        (Machine.frz m = false → b = false)) : McrMoves m m' := by
  have hlpm : lpmAck m' = if 20 = k then b else lpmAck m := hbits 20 (by omega)
  have hfrz : frzAck m' = if 24 = k then b else frzAck m := hbits 24 (by omega)
  rcases hk with ⟨rfl, hb⟩ | ⟨rfl, hset, hclear⟩
  · refine ⟨fun j hj hl _ => (hbits j hj).trans (if_neg hl), fun hd _ => hlpm.trans (hb hd), ?_, ?_⟩
    · exact fun _ _ _ ha => hfrz.trans ha
    · exact fun _ ha => hfrz.trans ha
  · refine ⟨fun j hj _ hf => (hbits j hj).trans (if_neg hf), fun _ hl => hlpm.trans hl, ?_, ?_⟩
    · exact fun hd hf hh _ => hfrz.trans (hset hd hf hh)
    · exact fun hf _ => hfrz.trans (hclear hf)

end

/-- The state apart from MCR, the schedule and what is recorded of the block's operation. -/
def State.kept (s : State) : State := { s with mcr := 0, schedule := [], accesses := [], block := .idle, result := none }

/-- A mode step but SOFTRST_DONE is such a move, and leaves the rest of the state. -/
theorem effect_mode_moves {e : Event} {s : State} (hmode : e.isMode = true) (hen : enabled e s = true)
    (hsoft : ∀ m c f r, e ≠ .softRstDone m c f r) : McrMoves s.mcr (effect e s).mcr ∧ (effect e s).kept = s.kept := by
  cases e with
  | lpmEnter =>
    obtain ⟨hd, -, -⟩ := (enabled_lpmEnter_iff s).mp hen
    exact ⟨.of_bit (setsMcrBit_true s (k := 20) (by omega)).2 (.inl ⟨rfl, by simp [hd]⟩), rfl⟩
  | lpmExit => exact ⟨.of_bit (setsMcrBit_false s (k := 20) (by omega)).2 (.inl ⟨rfl, fun _ => rfl⟩), rfl⟩
  | frzEnter =>
    obtain ⟨-, -, hf, -⟩ := (enabled_frzEnter_iff s).mp hen
    exact ⟨.of_bit (setsMcrBit_true s (k := 24) (by omega)).2 (.inr ⟨rfl, fun _ _ _ => rfl, by simp [hf]⟩), rfl⟩
  | frzExit =>
    obtain ⟨-, hreq⟩ := (enabled_frzExit_iff s).mp hen
    refine ⟨.of_bit (setsMcrBit_false s (k := 24) (by omega)).2 (.inr ⟨rfl, fun hd hf hh => ?_, fun _ => rfl⟩), rfl⟩
    simp [hd, hf, hh] at hreq
  | softRstDone m c f r => exact absurd rfl (hsoft m c f r)
  | _ => cases hmode

/-- While no soft reset is pending, SOFTRST_DONE is not enabled. -/
theorem ne_softRstDone_of_enabled {e : Event} {s : State} (hsoft : softRst s.mcr = false) (hen : enabled e s = true)
    (m c f r : Word) : e ≠ .softRstDone m c f r := by
  rintro rfl
  exact Bool.eq_false_iff.mp hsoft ((enabled_softRstDone_iff s m c f r).mp hen).1

/-- So a turn of the peripheral moves MCR and leaves the rest. -/
theorem gap_moves {s : State} (hm : s.onlyModeSteps) (hsoft : softRst s.mcr = false) :
    McrMoves s.mcr (gap s).mcr ∧ (gap s).kept = s.kept := by
  refine gap_of_modeSteps (P := fun t => McrMoves s.mcr t.mcr ∧ t.kept = s.kept) hm (fun t e hmode hen ⟨hmcr, hkept⟩ => ?_)
    ⟨.refl _, rfl⟩
  obtain ⟨hmcr', hkept'⟩ := effect_mode_moves hmode hen (ne_softRstDone_of_enabled (hmcr.softRst.trans hsoft) hen)
  exact ⟨hmcr.trans hmcr', hkept'.trans hkept⟩

/-! ### Accesses between polls -/

/-- INIT is under way with its soft reset behind it: `M` is known of MCR and `R` of the rest of the state. -/
structure Booting (M : Word → Prop) (R : State → Prop) (s : State) : Prop where
  modeSteps : s.onlyModeSteps
  soft : softRst s.mcr = false
  mcr : M s.mcr
  kept : R s.kept

/-- Mode steps keep what is known of MCR. -/
def MovesKeep (M : Word → Prop) : Prop := ∀ m m', McrMoves m m' → M m → M m'

section
variable {M M' : Word → Prop} {R R' : State → Prop} {s : State} {E : State → Prop} {W : SpinPos → State → Prop}

theorem Booting.gap (h : Booting M R s) (hM : MovesKeep M) : Booting M R (gap s) := by
  obtain ⟨hmcr, hkept⟩ := gap_moves h.modeSteps h.soft
  exact ⟨h.modeSteps.gap, hmcr.softRst.trans h.soft, hM _ _ hmcr h.mcr, hkept.symm ▸ h.kept⟩

theorem Booting.logged (h : Booting M R s) (a : Access) : Booting M R (s.logged a) := ⟨h.modeSteps, h.soft, h.mcr, h.kept⟩

theorem Booting.mono (h : Booting M R s) (hR : ∀ u, R u → R' u) : Booting M R' s := ⟨h.modeSteps, h.soft, h.mcr, hR _ h.kept⟩

theorem peekReg_logged (r : Reg) (s : State) (a : Access) : peekReg r (s.logged a) = peekReg r s := by cases r <;> rfl

/-- A read leaves MCR, and of the rest what its side effect leaves. -/
theorem Booting.readReg (h : Booting M R s) (hM : MovesKeep M) (r : Reg) (hR : ∀ t, R t.kept → R' (readEffect r t).kept) :
    (readReg r s).Ends (fun v t => Booting M R' t ∧ v = peekReg r t) E W := by
  have hgap := h.gap hM
  refine readReg_ends ⟨Booting.logged ?_ _, (peekReg_logged _ _ _).symm⟩
  obtain ⟨_, _, _, hr⟩ := readEffect_eq r (Machine.gap s)
  have hkept := hR _ hgap.kept
  rw [hr] at hkept ⊢
  exact ⟨hgap.modeSteps, hgap.soft, hgap.mcr, hkept⟩

theorem writeEffect_mcr {r : Reg} (hr : r ≠ .mcr) (v : Word) (s : State) : (writeEffect r v s).mcr = s.mcr := by
  cases r with
  | mcr => exact absurd rfl hr
  | mb i w =>
    simp only [writeEffect]
    split <;> rfl
  | _ => rfl

/-- A write to another register than MCR leaves MCR. -/
theorem Booting.writeReg (h : Booting M R s) (hM : MovesKeep M) (r : Reg) (hr : r ≠ .mcr) {v : Word}
    (hR : ∀ t, M t.mcr → R t.kept → R' (writeEffect r v t).kept) : (writeReg r v s).Ends (fun _ => Booting M R') E W := by
  have hgap := h.gap hM
  have hmcr := writeEffect_mcr hr v (Machine.gap s)
  exact writeReg_ends (Booting.logged ⟨hgap.modeSteps.writeEffect r v, hmcr.symm ▸ hgap.soft, hmcr.symm ▸ hgap.mcr,
    hR _ hgap.mcr hgap.kept⟩ _)

/-- A read-modify-write of MCR: the mode steps between the two accesses may have moved MCR on from the value read. -/
theorem Booting.modifyMcr (h : Booting M R s) (hM : MovesKeep M) {f : Word → Word} (hsoft : ∀ v, softRst (f v) = softRst v)
    (hf : ∀ v m, M v → McrMoves v m → M' (mcrWrite m (f v))) : (modifyReg .mcr f s).Ends (fun _ => Booting M' R) E W := by
  refine (h.readReg hM .mcr fun _ h => h).bind fun v t ⟨ht, hv⟩ => ?_
  have hv : v = t.mcr := hv
  obtain ⟨hmcr, hkept⟩ := gap_moves ht.modeSteps ht.soft
  refine writeReg_ends ⟨ht.modeSteps.gap, ?_, hf v _ (hv ▸ ht.mcr) (hv ▸ hmcr), ?_⟩
  · exact (getLsbD_mcrWrite _ _ 25).trans ((hsoft v).trans (hv ▸ ht.soft))
  · have hrest : R (Machine.gap t).kept := hkept.symm ▸ ht.kept
    exact hrest

/-- A read-modify-write of CTRL1. -/
theorem Booting.modifyCtrl1 (h : Booting M R s) (hM : MovesKeep M) {f : Word → Word}
    (hf : ∀ u, R u → R' { u with ctrl1 := f u.ctrl1 }) : (modifyReg .ctrl1 f s).Ends (fun _ => Booting M R') E W := by
  refine (h.readReg hM .ctrl1 fun _ h => h).bind fun v t ⟨ht, hv⟩ => ?_
  have ht' : Booting M (fun u => R u ∧ u.ctrl1 = v) t := ⟨ht.modeSteps, ht.soft, ht.mcr, ht.kept, hv.symm⟩
  refine ht'.writeReg hM .ctrl1 nofun fun u _ ⟨hu, hctrl1⟩ => ?_
  rw [← hctrl1]
  exact hf _ hu

end

/-- A read-modify-write of a register keeps a schedule of mode steps. -/
theorem modifyReg_ends {s : State} (hm : s.onlyModeSteps) (r : Reg) (f : Word → Word) {E : State → Prop}
    {W : SpinPos → State → Prop} :
    (modifyReg r f s).Ends (fun _ t => t.onlyModeSteps ∧ ∃ v u, t.mcr = (writeEffect r (f v) u).mcr) E W := by
  refine Res.Ends.bind (readReg_ends (Q := fun _ => State.onlyModeSteps) ?_) fun v t ht =>
    writeReg_ends ⟨ht.gap.writeEffect r _, v, gap t, rfl⟩
  obtain ⟨_, _, _, hread⟩ := readEffect_eq r (gap s)
  rw [hread]
  exact hm.gap

end Sys2Proof.Machine
end

section
/-! 10_state.md R30, R31; 70_reset_and_hazards.md R271 to R274: MCR and CTRL1 as INIT writes them, bit by bit, and which facts
about MCR mode steps keep. -/

namespace Sys2Proof.Machine

/-! ### MCR and CTRL1 as INIT writes them -/

theorem getLsbD_mcrConfigured (m : Word) (st : Settings) {k : Nat} (hk : k < 32) : (mcrConfigured m st).getLsbD k =
    if k = 21 then st.warningInterrupt else if k = 17 then !st.selfReception else if k = 16 then st.individualMasking
    else if k = 29 then false else if k < 7 then decide (k < 4) else m.getLsbD k := by
  simp only [mcrConfigured, BitVec.getLsbD_or, BitVec.getLsbD_and, BitVec.getLsbD_not, getLsbD_bitAt _ 29 k (by omega),
    getLsbD_bitAt _ 21 k (by omega), getLsbD_bitAt _ 17 k (by omega), getLsbD_bitAt _ 16 k (by omega)]
  interval_cases k <;> simp

theorem getLsbD_ctrl1Configured (c : Word) (bt : Timing) (st : Settings) {k : Nat} (hk : k < 32) :
    (ctrl1Configured c bt st).getLsbD k =
      if 24 ≤ k then bt.presdiv.getLsbD (k - 24) else if 22 ≤ k then bt.rjw.getLsbD (k - 22)
      else if 19 ≤ k then bt.pseg1.getLsbD (k - 19) else if 16 ≤ k then bt.pseg2.getLsbD (k - 16)
      else if k = 12 then st.loopbackMode else if k < 3 then bt.propseg.getLsbD k else c.getLsbD k := by
  simp only [ctrl1Configured, ctrl1Timing, BitVec.getLsbD_or, BitVec.getLsbD_and, BitVec.getLsbD_not,
    getLsbD_place bt.presdiv 24 k (by omega), getLsbD_place bt.rjw 22 k (by omega), getLsbD_place bt.pseg1 19 k (by omega),
    getLsbD_place bt.pseg2 16 k (by omega), getLsbD_bitAt _ 12 k (by omega), BitVec.getLsbD_setWidth]
  interval_cases k <;> simp

/-- No low-power request and no low-power mode; the freeze is requested or not. -/
structure Awake (freeze : Bool) (m : Word) : Prop where
  mdis : mdis m = false
  lpmAck : lpmAck m = false
  frz : frz m = freeze
  halt : halt m = freeze

/-- MCR in the freeze window. -/
def Frozen (m : Word) : Prop := Awake true m ∧ frzAck m = true

/-- The fields of MCR that INIT sets from its settings (70_reset_and_hazards.md R271, R274). -/
structure HasSettings (st : Settings) (m : Word) : Prop where
  rfen : m.getLsbD 29 = false
  settings : m.getLsbD 21 = st.warningInterrupt ∧ m.getLsbD 17 = !st.selfReception ∧ m.getLsbD 16 = st.individualMasking
  maxmb : m.extractLsb' 0 7 = 15

/-- Fields of MCR are read off its bits. -/
theorem HasSettings.of_bits {st : Settings} {m m' : Word} (h : HasSettings st m)
    (hbits : ∀ k, k < 32 → k ≠ 20 → k ≠ 24 → k ≠ 28 → k ≠ 30 → m'.getLsbD k = m.getLsbD k) : HasSettings st m' := by
  have hbit : ∀ k, k = 29 ∨ k < 20 ∨ k = 21 → m'.getLsbD k = m.getLsbD k := fun k hk =>
    hbits k (by omega) (by omega) (by omega) (by omega) (by omega)
  obtain ⟨hwrn, hsrx, hirmq⟩ := h.settings
  refine ⟨(hbit 29 (by omega)).trans h.rfen, ⟨(hbit 21 (by omega)).trans hwrn, (hbit 17 (by omega)).trans hsrx,
    (hbit 16 (by omega)).trans hirmq⟩, Eq.trans (BitVec.eq_of_getLsbD_eq fun k hk => ?_) h.maxmb⟩
  rw [BitVec.getLsbD_extractLsb', BitVec.getLsbD_extractLsb', hbit (0 + k) (by omega)]

theorem hasSettings_mcrConfigured (m : Word) (st : Settings) : HasSettings st (mcrConfigured m st) := by
  refine ⟨getLsbD_mcrConfigured m st (by omega), ⟨getLsbD_mcrConfigured m st (by omega), getLsbD_mcrConfigured m st (by omega),
    getLsbD_mcrConfigured m st (by omega)⟩, BitVec.eq_of_getLsbD_eq fun k hk => ?_⟩
  rw [BitVec.getLsbD_extractLsb', getLsbD_mcrConfigured m st (by omega)]
  interval_cases k <;> rfl

theorem movesKeep_true : MovesKeep fun _ => True := fun _ _ _ _ => trivial
theorem movesKeep_enabling : MovesKeep fun m => mdis m = false := fun _ _ h hd => h.mdis.trans hd

theorem movesKeep_awake (freeze : Bool) : MovesKeep (Awake freeze) := fun _ _ h ha =>
  ⟨h.mdis.trans ha.mdis, h.stays_enabled ha.mdis ha.lpmAck, h.frz.trans ha.frz, h.halt.trans ha.halt⟩

theorem movesKeep_frozen : MovesKeep Frozen := fun _ _ h ⟨ha, hf⟩ =>
  ⟨movesKeep_awake true _ _ h ha, h.stays_frozen ha.mdis ha.frz ha.halt hf⟩

theorem movesKeep_and {M M' : Word → Prop} (h : MovesKeep M) (h' : MovesKeep M') : MovesKeep fun m => M m ∧ M' m :=
  fun _ _ hm ⟨k, k'⟩ => ⟨h _ _ hm k, h' _ _ hm k'⟩

theorem movesKeep_settings (st : Settings) : MovesKeep (HasSettings st) := fun _ _ h hs =>
  hs.of_bits fun k hk hl hf _ _ => h.others k hk hl hf

section
variable {v m : Word}

@[simp] theorem mdis_mcrWrite (old v : Word) : mdis (mcrWrite old v) = mdis v := getLsbD_mcrWrite old v 31
@[simp] theorem frz_mcrWrite (old v : Word) : frz (mcrWrite old v) = frz v := getLsbD_mcrWrite old v 30
@[simp] theorem halt_mcrWrite (old v : Word) : halt (mcrWrite old v) = halt v := getLsbD_mcrWrite old v 28
@[simp] theorem softRst_mcrWrite (old v : Word) : softRst (mcrWrite old v) = softRst v := getLsbD_mcrWrite old v 25

theorem HasSettings.mcrWrite {st : Settings} (h : HasSettings st v) (old : Word) : HasSettings st (mcrWrite old v) :=
  h.of_bits fun k _ hl hf _ _ => (getLsbD_mcrWrite old v k).trans (if_neg (by omega))

theorem getLsbD_freezing (v : Word) (k : Nat) :
    (v ||| bitAt true 30 ||| bitAt true 28).getLsbD k = (v.getLsbD k || decide (k = 30) || decide (k = 28)) := by
  rw [BitVec.getLsbD_or, BitVec.getLsbD_or, getLsbD_bitAt _ 30 k (by omega), getLsbD_bitAt _ 28 k (by omega), Bool.true_and,
    Bool.true_and]

theorem getLsbD_released (v : Word) {k : Nat} (hk : k < 32) : (v &&& ~~~(bitAt true 30 ||| bitAt true 28)).getLsbD k =
    (v.getLsbD k && !(decide (k = 30) || decide (k = 28))) := by
  rw [BitVec.getLsbD_and, BitVec.getLsbD_not, BitVec.getLsbD_or, getLsbD_bitAt _ 30 k (by omega), getLsbD_bitAt _ 28 k (by omega),
    decide_eq_true hk, Bool.true_and, Bool.true_and, Bool.true_and]

/-- The write of enable() (70_reset_and_hazards.md R273). -/
theorem mdis_enabled : mdis (mcrWrite m (clearBit v 31)) = false := by
  rw [mdis_mcrWrite, mdis, getLsbD_clearBit _ _ _ (by omega), decide_eq_true rfl, Bool.not_true, Bool.and_false]

/-- The write of enter_freeze(). -/
theorem awake_freezing (hd : mdis v = false) (hl : lpmAck v = false) (h : McrMoves v m) :
    Awake true (mcrWrite m (v ||| bitAt true 30 ||| bitAt true 28)) where
  mdis := by rw [mdis_mcrWrite, mdis, getLsbD_freezing, show v.getLsbD 31 = false from hd]; rfl
  lpmAck := (lpmAck_mcrWrite _ _).trans (h.stays_enabled hd hl)
  frz := by rw [frz_mcrWrite, frz, getLsbD_freezing, decide_eq_true rfl, Bool.or_true, Bool.true_or]
  halt := by rw [halt_mcrWrite, halt, getLsbD_freezing, decide_eq_true (p := 28 = 28) rfl, Bool.or_true]

/-- The write of leave_freeze(). -/
theorem awake_released (ha : Awake true v) (h : McrMoves v m) :
    Awake false (mcrWrite m (v &&& ~~~(bitAt true 30 ||| bitAt true 28))) where
  mdis := by rw [mdis_mcrWrite, mdis, getLsbD_released v (by omega), show v.getLsbD 31 = false from ha.mdis, Bool.false_and]
  lpmAck := (lpmAck_mcrWrite _ _).trans (h.stays_enabled ha.mdis ha.lpmAck)
  frz := by rw [frz_mcrWrite, frz, getLsbD_released v (by omega), decide_eq_true rfl, Bool.true_or, Bool.not_true, Bool.and_false]
  halt := by
    rw [halt_mcrWrite, halt, getLsbD_released v (by omega), decide_eq_true (p := 28 = 28) rfl, Bool.or_true, Bool.not_true,
      Bool.and_false]

/-- It leaves the settings. -/
theorem HasSettings.released {st : Settings} (h : HasSettings st v) :
    HasSettings st (v &&& ~~~(bitAt true 30 ||| bitAt true 28)) :=
  h.of_bits fun k hk _ _ h28 h30 => by simp [getLsbD_released v hk, h28, h30]

/-- The write of the settings keeps the freeze. -/
theorem frozen_configured (st : Settings) (hv : Frozen v) (h : McrMoves v m) : Frozen (mcrWrite m (mcrConfigured v st)) := by
  obtain ⟨ha, hf⟩ := movesKeep_frozen _ _ h hv
  refine ⟨⟨?_, (lpmAck_mcrWrite _ _).trans ha.lpmAck, ?_, ?_⟩, (frzAck_mcrWrite _ _).trans hf⟩
  · exact (mdis_mcrWrite _ _).trans ((getLsbD_mcrConfigured v st (by omega)).trans hv.1.mdis)
  · exact (frz_mcrWrite _ _).trans ((getLsbD_mcrConfigured v st (by omega)).trans hv.1.frz)
  · exact (halt_mcrWrite _ _).trans ((getLsbD_mcrConfigured v st (by omega)).trans hv.1.halt)

end

/-- CTRL1 in the launch state (70_reset_and_hazards.md R276). -/
structure Ctrl1Launched (bt : Timing) (st : Settings) (c : Word) : Prop where
  timing : c.extractLsb' 24 8 = bt.presdiv ∧ c.extractLsb' 22 2 = bt.rjw ∧ c.extractLsb' 19 3 = bt.pseg1 ∧
    c.extractLsb' 16 3 = bt.pseg2 ∧ c.extractLsb' 0 3 = bt.propseg
  settings : c.getLsbD 12 = st.loopbackMode ∧ c.getLsbD 13 = clksrc st.clockSource

theorem clockSource_chosen (c : Word) (src : ClockSource) : (ctrl1ClockSource c src).getLsbD 13 = clksrc src := by
  rw [ctrl1ClockSource, BitVec.getLsbD_or, getLsbD_clearBit _ _ _ (by omega), getLsbD_bitAt _ _ _ (by omega), decide_eq_true rfl,
    Bool.not_true, Bool.and_false, Bool.false_or, Bool.and_true]

theorem ctrl1Launched_configured {c : Word} (bt : Timing) {st : Settings} (h : c.getLsbD 13 = clksrc st.clockSource) :
    Ctrl1Launched bt st (ctrl1Configured c bt st) := by
  refine ⟨⟨?_, ?_, ?_, ?_, ?_⟩, getLsbD_ctrl1Configured c bt st (by omega), (getLsbD_ctrl1Configured c bt st (by omega)).trans h⟩
  all_goals
    refine BitVec.eq_of_getLsbD_eq fun k hk => ?_
    rw [BitVec.getLsbD_extractLsb', getLsbD_ctrl1Configured c bt st (by omega)]
    interval_cases k <;> rfl

/-- No abort request, no late completion and no reception is left, as after a soft reset (10_state.md R39). -/
def State.HiddenClear (s : State) : Prop := ∀ i, s.abortReq.get i = false ∧ s.lateTx.get i = false ∧ s.rxStage.get i = none

end Sys2Proof.Machine
end

section
/-! 70_reset_and_hazards.md R275, R282: the freeze window of INIT, where MCR stays, and the pre-seed in it, mailbox by mailbox. -/

namespace Sys2Proof.Machine

/-! ### The freeze window (R275, R282) -/

/-- What is known in the freeze window of the state besides MCR, once the settings, the mask and the flags are written. -/
structure InWindow (bt : Timing) (st : Settings) (s : State) : Prop where
  ctrl1 : Ctrl1Launched bt st s.ctrl1
  mask : s.rxmgmask = 0
  flags : s.iflag.extractLsb' 0 16 = 0
  hidden : ∀ i, s.lateTx.get i = false ∧ s.rxStage.get i = none

/-- The same with the mailboxes and the abort requests. -/
structure InWindowWith (bt : Timing) (st : Settings) (mb : Vector Mailbox 16) (abortReq : Vector Bool 16) (s : State) : Prop
    extends InWindow bt st s where
  mb_eq : s.mb = mb
  abortReq_eq : s.abortReq = abortReq

/-- MCR in the freeze window with the settings written. -/
def FrozenWith (st : Settings) (m : Word) : Prop := Frozen m ∧ HasSettings st m

theorem movesKeep_frozenWith (st : Settings) : MovesKeep (FrozenWith st) := movesKeep_and movesKeep_frozen (movesKeep_settings st)

/-- Cleared flags stay cleared (10_state.md R28). -/
theorem flags_iflagWrite {f : Word} (h : f.extractLsb' 0 16 = 0) (v : Word) : (iflagWrite f v).extractLsb' 0 16 = 0 := by
  rw [iflagWrite, BitVec.extractLsb'_and, h]
  exact BitVec.zero_and

theorem flags_iflagWrite_all (f : Word) : (iflagWrite f 0x0000FFFF).extractLsb' 0 16 = 0 := by
  rw [iflagWrite, BitVec.extractLsb'_and, show (~~~0x0000FFFF : Word).extractLsb' 0 16 = 0 by decide]
  exact BitVec.and_zero

theorem Frozen.not_running {s : State} (h : Frozen s.mcr) : s.mode ≠ .running := by
  simp [State.mode, modeOf, h.1.lpmAck, h.2]

section
variable {bt : Timing} {st : Settings} {mb : Vector Mailbox 16} {abortReq : Vector Bool 16} {s : State} {E : State → Prop}
  {W : SpinPos → State → Prop} (h : Booting (FrozenWith st) (InWindowWith bt st mb abortReq) s) (i : Fin 16)
include h

theorem readCs_window :
    (readReg (.mb i 0) s).Ends (fun _ => Booting (FrozenWith st) (InWindowWith bt st mb abortReq)) E W :=
  Res.Ends.mono (h.readReg (movesKeep_frozenWith st) (.mb i 0) fun _ ht =>
    ⟨⟨ht.ctrl1, ht.mask, ht.flags, ht.hidden⟩, ht.mb_eq, ht.abortReq_eq⟩) fun _ _ ht => ht.1

theorem writeFlag_window (v : Word) :
    (writeReg .iflag1 v s).Ends (fun _ => Booting (FrozenWith st) (InWindowWith bt st mb abortReq)) E W :=
  h.writeReg (movesKeep_frozenWith st) .iflag1 nofun fun _ _ ht =>
    ⟨⟨ht.ctrl1, ht.mask, flags_iflagWrite ht.flags v, ht.hidden⟩, ht.mb_eq, ht.abortReq_eq⟩

theorem writeWord_window {w : Fin 4} (hw : w ≠ 0) (v : Word) : (writeReg (.mb i w) v s).Ends
    (fun _ => Booting (FrozenWith st) (InWindowWith bt st (put mb i ((mb.get i).setWord w v)) abortReq)) E W := by
  refine h.writeReg (movesKeep_frozenWith st) (.mb i w) nofun fun t _ ht => ?_
  rw [writeEffect_payload i hw]
  exact ⟨⟨ht.ctrl1, ht.mask, ht.flags, ht.hidden⟩, by rw [← ht.mb_eq]; rfl, ht.abortReq_eq⟩

/-- A CS write of another code than Abort leaves no abort request; outside Running nothing is left to complete late (R227). -/
theorem writeCs_window {v : Word} (hv : codeOf v ≠ 0b1001#4) : (writeReg (.mb i 0) v s).Ends
    (fun _ => Booting (FrozenWith st) (InWindowWith bt st (put mb i { mb.get i with cs := v }) (put abortReq i false))) E W := by
  refine h.writeReg (movesKeep_frozenWith st) (.mb i 0) nofun fun t hmcr ht => ?_
  have hlate : (csWriteHidden i v t).lateTx = t.lateTx := by
    rw [csWriteHidden_lateTx, if_neg fun hr => hmcr.1.not_running hr.1]
  have habort : (csWriteHidden i v t).abortReq = put t.abortReq i false := by
    rw [csWriteHidden_abortReq, decide_eq_false hv, Bool.false_and]
  refine ⟨⟨ht.ctrl1, ht.mask, ht.flags, fun j => ⟨?_, ?_⟩⟩, by rw [← ht.mb_eq]; rfl, habort.trans (by rw [← ht.abortReq_eq]; rfl)⟩
  · exact (congrArg (·.get j) hlate).trans (ht.hidden j).1
  · refine (get_put t.rxStage i j none).trans ?_
    split
    · rfl
    · exact (ht.hidden j).2

/-- The mailbox that the pre-seed writes with a code (70_reset_and_hazards.md R275). -/
def seedMailbox (code : BufferState) : Mailbox := { cs := csWord (seedHdr code) seedFrame, idw := 0, d0 := 0, d1 := 0 }

/-- MBWRITE of the pre-seed's frame. -/
theorem mbwrite_window {code : BufferState} (hcode : encodeState code ≠ 0b1001#4) :
    (mbwrite i (seedHdr code) seedFrame s).Ends
      (fun _ => Booting (FrozenWith st) (InWindowWith bt st (put mb i (seedMailbox code)) (put abortReq i false)))
      (fun _ => True) W := by
  unfold mbwrite
  split
  · trivial
  · refine (readCs_window h i).bind fun cs s h => (decodeOrRaise_ends _ trivial).bind fun cur t ⟨_, ht⟩ => ?_
    subst ht
    split
    · refine (writeFlag_window h _).bind fun _ s h => (writeWord_window h i (w := 1) (by decide) _).bind fun _ s h => ?_
      refine Res.Ends.bind ((writeWord_window h i (w := 2) (by decide) _).bind fun _ s h =>
        writeWord_window h i (w := 3) (by decide) _) fun _ s h => ?_
      have hcs : codeOf (csWord (seedHdr code) seedFrame) ≠ 0b1001#4 := by rwa [codeOf_csWord]
      refine (writeCs_window h i hcs).mono fun _ t ht => ?_
      have hidw : idWord seedFrame.id (seedHdr code).prio = 0#32 := show idWord (.base 0) 0 = 0#32 by decide
      have hdata : pack [] = (0#32, 0#32) := rfl
      simpa [seedMailbox, hidw, hdata] using ht
    · trivial

end

/-- The code that the pre-seed gives mailbox `i` (70_reset_and_hazards.md R275). -/
def seedCode (i : Fin 16) : BufferState := if i.val < 8 then .tx .inactive else .rx .empty false

/-- Mailbox `i` is pre-seeded. -/
def State.Seeded (s : State) (i : Fin 16) : Prop := s.mb.get i = seedMailbox (seedCode i) ∧ s.abortReq.get i = false

section
variable {E : State → Prop} {W : SpinPos → State → Prop}

/-- A loop over mailboxes: its iterations keep `I`, and each makes `P` hold of its mailbox and keeps it of the others. -/
theorem forEach_ends {I : State → Prop} {P : Fin 16 → State → Prop} {f : Fin 16 → State → Res Unit} {l : List (Fin 16)}
    (hf : ∀ i ∈ l, ∀ s, I s → (f i s).Ends (fun _ t => I t ∧ ∀ j, j = i ∨ P j s → P j t) E W) {s : State} (h : I s) :
    (forEach l f s).Ends (fun _ t => I t ∧ ∀ j, j ∈ l ∨ P j s → P j t) E W := by
  induction l generalizing s with
  | nil => exact ⟨h, fun j hj => hj.resolve_left List.not_mem_nil⟩
  | cons i l ih =>
    refine (hf i List.mem_cons_self s h).bind fun _ t ⟨ht, hfirst⟩ => ?_
    refine (ih (fun j hj => hf j (List.mem_cons_of_mem i hj)) ht).mono fun _ u ⟨hu, hrest⟩ => ⟨hu, fun j hj => ?_⟩
    rw [List.mem_cons, or_assoc] at hj
    rcases hj with hj | hj | hj
    · exact hrest j (.inr (hfirst j (.inl hj)))
    · exact hrest j (.inl hj)
    · exact hrest j (.inr (hfirst j (.inr hj)))

end

section
variable {bt : Timing} {st : Settings} {s : State} {W : SpinPos → State → Prop}

theorem Booting.withMailboxes {M : Word → Prop} (h : Booting M (InWindow bt st) s) :
    Booting M (InWindowWith bt st s.mb s.abortReq) s :=
  ⟨h.modeSteps, h.soft, h.mcr, h.kept, rfl, rfl⟩

/-- One MBINACT of the pre-seed. -/
theorem mbinact_window (i : Fin 16) (h : Booting (FrozenWith st) (InWindow bt st) s) :
    (mbinact i s).Ends (fun _ => Booting (FrozenWith st) (InWindow bt st)) (fun _ => True) W :=
  (readCs_window h.withMailboxes i).bind fun cs _ h =>
    (writeCs_window h i (codeOf_inactiveCs_ne cs).2).mono fun _ _ h => h.mono fun _ hu => hu.toInWindow

/-- A loop of MBWRITE of the pre-seed. -/
theorem seedLoop_ends {l : List (Fin 16)} {code : BufferState} (hl : ∀ i ∈ l, seedCode i = code)
    (hcode : encodeState code ≠ 0b1001#4) (h : Booting (FrozenWith st) (InWindow bt st) s) :
    (forEach l (fun i s => mbwrite i (seedHdr code) seedFrame s) s).Ends
      (fun _ t => Booting (FrozenWith st) (InWindow bt st) t ∧ ∀ j, j ∈ l ∨ s.Seeded j → t.Seeded j) (fun _ => True) W := by
  refine forEach_ends (P := fun j s => s.Seeded j) (fun i hi s h => ?_) h
  refine (mbwrite_window h.withMailboxes i hcode).mono fun _ t ht => ⟨ht.mono fun _ hu => hu.toInWindow, fun j hj => ?_⟩
  have hmb : t.mb = put s.mb i (seedMailbox code) := ht.kept.mb_eq
  have habort : t.abortReq = put s.abortReq i false := ht.kept.abortReq_eq
  unfold State.Seeded
  rw [hmb, habort, get_put, get_put]
  rcases eq_or_ne i j with rfl | hne
  · rw [if_pos rfl, if_pos rfl, hl i hi]
    exact ⟨rfl, rfl⟩
  · rw [if_neg hne, if_neg hne]
    exact hj.resolve_left hne.symm

/-- The rest of the state once the pre-seed has ended: what INIT leaves of it (70_reset_and_hazards.md R276). -/
structure Seeding (bt : Timing) (st : Settings) (s : State) : Prop extends InWindow bt st s where
  seeded : ∀ i, s.Seeded i
  lock : s.lockedMb = none

theorem preseed_ends (h : Booting (FrozenWith st) (InWindow bt st) s) :
    (preseed s).Ends (fun _ => Booting (FrozenWith st) (Seeding bt st)) (fun _ => True) W := by
  have hinact := forEach_ends (P := fun _ _ => True) (W := W) (E := fun _ => True) (l := txIdx ++ rxIdx) (f := mbinact)
    (fun i _ s h => (mbinact_window (bt := bt) (st := st) i h).mono fun _ t ht => ⟨ht, fun _ _ => trivial⟩) h
  refine hinact.bind fun _ s ⟨h, _⟩ => (seedLoop_ends (by decide) (by decide) h).bind fun _ s ⟨h, htx⟩ =>
    (seedLoop_ends (by decide) (by decide) h).bind fun _ s ⟨h, hrx⟩ => ?_
  have hall : ∀ j, s.Seeded j := fun j =>
    hrx j ((show j ∈ rxIdx ∨ j ∈ txIdx by revert j; decide).imp_right fun hj => htx j (.inl hj))
  have hseeded : Booting (FrozenWith st) (fun u => InWindow bt st u ∧ ∀ j, u.Seeded j) s :=
    ⟨h.modeSteps, h.soft, h.mcr, h.kept, hall⟩
  refine Res.Ends.bind (hseeded.readReg (R' := Seeding bt st) (movesKeep_frozenWith st) .timer fun t ⟨ht, hall⟩ => ?_)
    fun _ _ ht => ht.1
  exact ⟨⟨ht.ctrl1, ht.mask, ht.flags, ht.hidden⟩, hall, rfl⟩

/-- The clock source is chosen, and the soft reset has left nothing hidden. -/
def ClockChosen (st : Settings) (s : State) : Prop := s.HiddenClear ∧ s.ctrl1.getLsbD 13 = clksrc st.clockSource

/-- INIT inside the freeze window (70_reset_and_hazards.md R271, R282). -/
theorem configure_ends (h : Booting Frozen (ClockChosen st) s) :
    (configure bt st s).Ends (fun _ => Booting (FrozenWith st) (Seeding bt st)) (fun _ => True) W := by
  have hctrl1 : (modifyReg .ctrl1 (fun c => ctrl1Configured c bt st) s).Ends
      (fun _ => Booting Frozen fun u => u.HiddenClear ∧ Ctrl1Launched bt st u.ctrl1) (fun _ => True) W :=
    h.modifyCtrl1 movesKeep_frozen fun _ ⟨hclear, hsrc⟩ => ⟨hclear, ctrl1Launched_configured bt hsrc⟩
  refine hctrl1.bind fun _ s h => Res.Ends.bind (h.modifyMcr (M' := FrozenWith st) movesKeep_frozen (fun v => ?_)
    fun v m hv hm => ⟨frozen_configured st hv hm, (hasSettings_mcrConfigured v st).mcrWrite m⟩) fun _ s h => ?_
  · exact getLsbD_mcrConfigured v st (by omega)
  have hmask : (writeReg .rxmgmask 0x00000000 s).Ends
      (fun _ => Booting (FrozenWith st) fun u => (u.HiddenClear ∧ Ctrl1Launched bt st u.ctrl1) ∧ u.rxmgmask = 0)
      (fun _ => True) W :=
    h.writeReg (movesKeep_frozenWith st) .rxmgmask nofun fun _ _ hu => ⟨hu, rfl⟩
  refine hmask.bind fun _ s h => Res.Ends.bind (h.writeReg (R' := InWindow bt st) (movesKeep_frozenWith st) .iflag1 nofun
    fun t _ ⟨⟨hclear, hctrl1⟩, hmask⟩ => ?_) fun _ s h => preseed_ends h
  exact ⟨hctrl1, hmask, flags_iflagWrite_all _, fun i => (hclear i).2⟩

end

end Sys2Proof.Machine
end

section
/-! 70_reset_and_hazards.md R271 to R276: INIT from poll to poll, and the run of INIT, with a peripheral that takes none but
mode steps. -/

namespace Sys2Proof.Machine

/-! ### INIT from poll to poll (R271 to R273) -/

/-- What is known while INIT polls: nothing before the soft reset, and then more at each poll. -/
def Reached (bt : Timing) (st : Settings) : BootPoll → State → Prop
  | .disable1 | .enable1 => State.onlyModeSteps
  | .softReset => fun s => s.onlyModeSteps ∧ (softRst s.mcr = false → s.HiddenClear)
  | .disable2 => Booting (fun _ => True) State.HiddenClear
  | .enable2 => Booting (fun m => mdis m = false) (ClockChosen st)
  | .enterFreeze => Booting (Awake true) (ClockChosen st)
  | .leaveFreeze => Booting (fun m => Awake false m ∧ HasSettings st m) (Seeding bt st)

/-- What is known once INIT has ended with Ok. -/
def Launched (bt : Timing) (st : Settings) : State → Prop :=
  Booting (fun m => (Awake false m ∧ HasSettings st m) ∧ frzAck m = false) (Seeding bt st)

theorem movesKeep_released (st : Settings) : MovesKeep fun m => Awake false m ∧ HasSettings st m :=
  movesKeep_and (movesKeep_awake false) (movesKeep_settings st)

section
variable {bt : Timing} {st : Settings} {s : State}

theorem Launched.gap (h : Launched bt st s) : Launched bt st (gap s) :=
  Booting.gap h fun _ _ hm ⟨hr, hf⟩ => ⟨movesKeep_released st _ _ hm hr, hm.stays_thawed hr.1.frz hf⟩

/-- It is the launch state of 70_reset_and_hazards.md R276. -/
theorem Launched.launch (h : Launched bt st s) : Launch bt st s := by
  obtain ⟨-, hsoft, ⟨⟨hawake, hset⟩, hthawed⟩, hkept⟩ := h
  have hmb : ∀ i, s.mb.get i = seedMailbox (seedCode i) := fun i => (hkept.seeded i).1
  refine ⟨fun i hi => ?_, fun i hi => ?_, hkept.flags, ?_, hset.settings, hset.maxmb, hkept.ctrl1.timing, hkept.ctrl1.settings,
    hkept.mask, hkept.lock, fun i => ⟨(hkept.seeded i).2, hkept.hidden i⟩, ?_⟩
  · rw [hmb, seedCode, if_pos hi]
    decide
  · rw [hmb, seedCode, if_neg (Nat.not_lt.mpr hi)]
    decide
  · exact ⟨hawake.mdis, hawake.frz, hawake.halt, hsoft, hthawed, hawake.lpmAck, hset.rfen⟩
  · simp [State.mode, modeOf, hawake.mdis, hawake.lpmAck, hawake.frz, hawake.halt, hthawed]

/-- SOFTRST_DONE clears the hidden state; no other mode step clears SOFTRST (48_peripheral_agent.md R225). -/
theorem softReset_effect {e : Event} (hmode : e.isMode = true) (hen : enabled e s = true)
    (h : softRst s.mcr = false → s.HiddenClear) : softRst (effect e s).mcr = false → (effect e s).HiddenClear := by
  by_cases hsoft : ∃ m c f r, e = .softRstDone m c f r
  · obtain ⟨m, c, f, r, rfl⟩ := hsoft
    exact fun _ _ => ⟨get_replicate _ _, get_replicate _ _, get_replicate _ _⟩
  · obtain ⟨hmcr, hkept⟩ := effect_mode_moves hmode hen fun m c f r he => hsoft ⟨m, c, f, r, he⟩
    intro hclear
    have hrest : (effect e s).kept.HiddenClear := hkept ▸ h (hmcr.softRst.symm.trans hclear)
    exact hrest

theorem Reached.gap {b : BootPoll} (h : Reached bt st b s) : Reached bt st b (gap s) := by
  cases b with
  | disable1 | enable1 => exact State.onlyModeSteps.gap h
  | softReset =>
    obtain ⟨hm, hclear⟩ := h
    exact ⟨hm.gap, gap_of_modeSteps (P := fun t => softRst t.mcr = false → t.HiddenClear) hm
      (fun _ _ hmode hen ht => softReset_effect hmode hen ht) hclear⟩
  | disable2 => exact Booting.gap h movesKeep_true
  | enable2 => exact Booting.gap h movesKeep_enabling
  | enterFreeze => exact Booting.gap h (movesKeep_awake true)
  | leaveFreeze => exact Booting.gap h (movesKeep_released st)

/-- The record of how INIT ends or spins is no part of what is known. -/
theorem Launched.finished (h : Launched bt st s) (r : Result) : Launched bt st (s.finished r) :=
  ⟨h.modeSteps, h.soft, h.mcr, h.kept⟩

theorem Reached.suspended {b : BootPoll} (h : Reached bt st b s) (p : SpinPos) : Reached bt st b (s.suspended p) := by
  cases b with
  | disable1 | enable1 | softReset => exact h
  | disable2 | enable2 | enterFreeze | leaveFreeze => exact ⟨h.modeSteps, h.soft, h.mcr, h.kept⟩

theorem Reached.logged {b : BootPoll} (h : Reached bt st b s) (a : Access) : Reached bt st b (s.logged a) := by
  cases b with
  | disable1 | enable1 | softReset => exact h
  | disable2 | enable2 | enterFreeze | leaveFreeze => exact Booting.logged h a

/-- INIT spins at `p`, one of its polls, and what should be known there is known. -/
def PollsAt (bt : Timing) (st : Settings) (p : SpinPos) (s : State) : Prop := ∃ b n, p = .boot b n bt st ∧ Reached bt st b s

/-- A piece of INIT ends in the launch state, with an error, or in a poll at which what should be known is known. -/
def Res.Boots (bt : Timing) (st : Settings) (r : Res Unit) : Prop :=
  r.Ends (fun _ => Launched bt st) (fun _ => True) (PollsAt bt st)

/-- A poll goes on where its exit condition is read, MCR being what was read. -/
theorem poll_boots {b : BootPoll} {k : State → Res Unit} (n : Nat) (h : Reached bt st b s)
    (hk : ∀ t, Reached bt st b t → pollDone b t.mcr = true → (k t).Boots bt st) : (poll b n bt st k s).Boots bt st := by
  refine Res.Ends.bind (readReg_ends (Q := fun v t => Reached bt st b t ∧ v = t.mcr) ⟨h.gap.logged _, rfl⟩) fun v t ⟨ht, hv⟩ => ?_
  subst hv
  split
  · next hdone => exact hk t ht hdone
  · split
    · trivial
    · exact ⟨b, n + 1, rfl, ht⟩

theorem afterLeaveFreeze_boots (h : Reached bt st .leaveFreeze s) (hdone : pollDone .leaveFreeze s.mcr = true) :
    (afterLeaveFreeze s).Boots bt st := by
  obtain ⟨hm, hsoft, hmcr, hkept⟩ := h
  exact ⟨hm, hsoft, ⟨hmcr, by simpa [pollDone] using hdone⟩, hkept⟩

theorem afterEnterFreeze_boots (h : Reached bt st .enterFreeze s) (hdone : pollDone .enterFreeze s.mcr = true) :
    (afterEnterFreeze bt st s).Boots bt st := by
  obtain ⟨hm, hsoft, hmcr, hkept⟩ := h
  have hfrozen : Booting Frozen (ClockChosen st) s := ⟨hm, hsoft, ⟨hmcr, hdone⟩, hkept⟩
  refine (configure_ends hfrozen).bind fun _ s h => Res.Ends.bind
    (h.modifyMcr (M' := fun m => Awake false m ∧ HasSettings st m) (movesKeep_frozenWith st) (fun v => ?_)
      fun v m ⟨hv, hs⟩ hm => ⟨awake_released hv.1 hm, hs.released.mcrWrite m⟩)
    fun _ s h => poll_boots (b := .leaveFreeze) 0 h fun _ => afterLeaveFreeze_boots
  exact (getLsbD_released v (by omega)).trans (Bool.and_true _)

theorem afterEnable2_boots (h : Reached bt st .enable2 s) (hdone : pollDone .enable2 s.mcr = true) :
    (afterEnable2 bt st s).Boots bt st := by
  obtain ⟨hm, hsoft, hmcr, hkept⟩ := h
  have hawake : Booting (fun m => mdis m = false ∧ lpmAck m = false) (ClockChosen st) s :=
    ⟨hm, hsoft, ⟨hmcr, by simpa [pollDone] using hdone⟩, hkept⟩
  refine Res.Ends.bind (hawake.modifyMcr (M' := Awake true) (fun _ _ hm ⟨hd, hl⟩ => ⟨hm.mdis.trans hd, hm.stays_enabled hd hl⟩)
    (fun v => ?_) fun v m ⟨hd, hl⟩ hm => awake_freezing hd hl hm)
    fun _ s h => poll_boots (b := .enterFreeze) 0 h fun _ => afterEnterFreeze_boots
  exact (getLsbD_freezing v 25).trans ((Bool.or_false _).trans (Bool.or_false _))

theorem afterDisable2_boots (h : Reached bt st .disable2 s) : (afterDisable2 bt st s).Boots bt st := by
  have hclock : Booting (fun _ => True) State.HiddenClear s := h
  have hsource : (modifyReg .ctrl1 (fun c => ctrl1ClockSource c st.clockSource) s).Ends
      (fun _ => Booting (fun _ => True) (ClockChosen st)) (fun _ => True) (PollsAt bt st) :=
    hclock.modifyCtrl1 movesKeep_true fun u hu => ⟨hu, clockSource_chosen _ _⟩
  refine hsource.bind fun _ s h => Res.Ends.bind (h.modifyMcr (M' := fun m => mdis m = false) movesKeep_true (fun v => ?_)
    fun v m _ _ => mdis_enabled) fun _ s h => poll_boots (b := .enable2) 0 h fun _ => afterEnable2_boots
  exact (getLsbD_clearBit v 31 25 (by omega)).trans (Bool.and_true _)

theorem afterSoftReset_boots (h : Reached bt st .softReset s) (hdone : pollDone .softReset s.mcr = true) :
    (afterSoftReset bt st s).Boots bt st := by
  obtain ⟨hm, hclear⟩ := h
  have hsoft : softRst s.mcr = false := by simpa [pollDone] using hdone
  have hreset : Booting (fun _ => True) State.HiddenClear s := ⟨hm, hsoft, trivial, hclear hsoft⟩
  refine Res.Ends.bind (hreset.modifyMcr (M' := fun _ => True) movesKeep_true (fun v => ?_) fun _ _ _ _ => trivial)
    fun _ s h => poll_boots (b := .disable2) 0 h fun _ h _ => afterDisable2_boots h
  rw [softRst, BitVec.getLsbD_or, getLsbD_bitAt _ _ _ (by omega)]
  exact Bool.or_false _

theorem afterEnable1_boots (h : Reached bt st .enable1 s) : (afterEnable1 bt st s).Boots bt st := by
  refine (modifyReg_ends h .mcr _).bind fun _ t ⟨hm, v, u, hmcr⟩ => poll_boots (b := .softReset) 0 ⟨hm, fun hsoft => ?_⟩
    fun _ => afterSoftReset_boots
  have hset : softRst t.mcr = true := by
    rw [hmcr]
    refine (softRst_mcrWrite _ _).trans ?_
    rw [softRst, BitVec.getLsbD_or, getLsbD_bitAt _ _ _ (by omega)]
    exact Bool.or_true _
  exact absurd hset (Bool.eq_false_iff.mp hsoft)

theorem afterDisable1_boots (h : Reached bt st .disable1 s) : (afterDisable1 bt st s).Boots bt st :=
  (modifyReg_ends h .ctrl1 _).bind fun _ _ h => (modifyReg_ends h.1 .mcr _).bind fun _ _ h =>
    poll_boots (b := .enable1) 0 h.1 fun _ h _ => afterEnable1_boots h

theorem afterPoll_boots {b : BootPoll} (h : Reached bt st b s) (hdone : pollDone b s.mcr = true) :
    (afterPoll b bt st s).Boots bt st := by
  cases b with
  | disable1 => exact afterDisable1_boots h
  | enable1 => exact afterEnable1_boots h
  | softReset => exact afterSoftReset_boots h hdone
  | disable2 => exact afterDisable2_boots h
  | enable2 => exact afterEnable2_boots h hdone
  | enterFreeze => exact afterEnterFreeze_boots h hdone
  | leaveFreeze => exact afterLeaveFreeze_boots h hdone

theorem boot_boots {clocks : ClockInfo}
    (hbt : checkedTiming { sel := st.clockSource, clocks := clocks, targetHz := st.canFrequency } = .ok bt)
    (hm : s.onlyModeSteps) : (boot st clocks s).Boots bt st := by
  rw [boot_of_timing hbt]
  split
  · trivial
  · exact (modifyReg_ends hm .mcr _).bind fun _ _ h => poll_boots (b := .disable1) 0 h.1 fun _ h _ => afterDisable1_boots h

end

/-! ### The run of INIT -/

/-- What each step keeps that is an invariant holds at the end of a run. -/
theorem runSteps_keeps {P : State → Prop} (hstep : ∀ s t, P s → step s = .next t → P t) {k : Nat} {s t : State} (h : P s)
    (ht : runSteps k s = .next t) : P t := by
  induction k generalizing s with
  | zero => exact Host.Outcome.next.inj ht ▸ h
  | succ k ih =>
    cases hs : step s with
    | next u =>
      rw [runSteps_succ hs] at ht
      exact ih (hstep s u h hs) ht
    | fault r => cases r
    | refused r =>
      have hcore : Sys2Proof.core.step s = .refused r := hs
      simp [runSteps, Host.Core.run, hcore] at ht

/-- Where a run of INIT, the caller's only request, can be: not begun, in one of its polls, or ended. -/
inductive InitRun (bt : Timing) (st : Settings) (clocks : ClockInfo) (s : State) : Prop where
  | asked (block : s.block = .idle) (requests : s.requests = [.init st clocks]) (modeSteps : s.onlyModeSteps)
  | polling (b : BootPoll) (n : Nat) (block : s.block = .spinning (.boot b n bt st)) (requests : s.requests = [])
      (reached : Reached bt st b s)
  | failed (e : Err) (block : s.block = .idle) (requests : s.requests = []) (result : s.result = some (.err e))
  | launched (block : s.block = .idle) (requests : s.requests = []) (launched : Launched bt st s)

section
variable {bt : Timing} {st : Settings} {clocks : ClockInfo} {s t : State}

/-- A step that ends as a piece of INIT does is on INIT's run. -/
theorem initRun_of_ended (h : EndedAs (fun _ => Launched bt st) (fun _ => True) (PollsAt bt st) t) (hreqs : t.requests = []) :
    InitRun bt st clocks t := by
  rcases h with ⟨v, u, hu, rfl⟩ | ⟨e, u, -, rfl⟩ | ⟨p, u, ⟨b, n, rfl, hu⟩, rfl⟩
  · exact .launched rfl hreqs (hu.finished _)
  · exact .failed e rfl hreqs rfl
  · exact .polling b n rfl hreqs (hu.suspended _)

theorem InitRun.step
    (hbt : checkedTiming { sel := st.clockSource, clocks := clocks, targetHz := st.canFrequency } = .ok bt)
    (h : InitRun bt st clocks s) (ht : step s = .next t) : InitRun bt st clocks t := by
  cases h with
  | asked hb hr hm =>
    have hinit : execInit st clocks { s with requests := [] } = .next t := (step_idle_cons hb hr).symm.trans ht
    have hends := issue_ends (s := { s with requests := [] }) (body := fun s => returnUnit (boot st clocks s))
      (returnUnit_ends (boot_boots hbt hm)) hinit
    exact initRun_of_ended hends (execInit_asks ⟨rfl, rfl⟩ hinit).requests
  | polling b n hb hr h =>
    rw [step_spinning hb] at ht
    have hends := finish_ends (returnUnit_ends (poll_boots n h fun _ => afterPoll_boots)) ht
    exact initRun_of_ended hends (resume_asks ⟨rfl, hr⟩ ht).requests
  | failed e hb hr hres =>
    obtain rfl := Host.Outcome.next.inj ((step_idle_nil hb hr).symm.trans ht)
    exact .failed e ((gap_block s).trans hb) ((gap_requests s).trans hr) ((gap_result s).trans hres)
  | launched hb hr h =>
    obtain rfl := Host.Outcome.next.inj ((step_idle_nil hb hr).symm.trans ht)
    exact .launched ((gap_block s).trans hb) ((gap_requests s).trans hr) h.gap

end

end Sys2Proof.Machine

open Sys2Proof Sys2Proof.Machine

/-- Settles O50: what is known at INIT's polls grows up to the launch state, which is kept by the mode steps after INIT. -/
theorem initReachesTheLaunchState : Obligations.InitReachesTheLaunchState := by
  intro s t st clocks bt k hr hm hbt _ hreqs hrun hdone hidle hok
  have hinit : InitRun bt st clocks s := .asked hr.1 hreqs hm
  cases runSteps_keeps (fun _ _ h hstep => h.step hbt hstep) hinit hrun with
  | asked _ hr _ => simp [hr] at hdone
  | polling b n hb _ _ => simp [hb] at hidle
  | failed e _ _ hres => simp [hres] at hok
  | launched _ _ h => exact h.launch
end
